-- ==== Sys2Proof/Word.lean ====
section
/-! DEFINITION. The word types of AFSK-CORE (spec/00_scope.md R15, R18). -/

namespace Sys2Proof

/-- A byte of the packet buffer, `u8`. -/
abbrev Byte := BitVec 8

/-- A sample or a table entry, `s16`: a two's-complement pattern (R18). -/
abbrev Half := BitVec 16

/-- A control register, an accumulator, response data: `u32` (R18). -/
abbrev Word := BitVec 32

/-- A command word (spec/30_encoding.md R90). -/
abbrev CommandWord := BitVec 64

end Sys2Proof
end

