-- ==== Sys2Proof/Config.lean ====
section
/-! DEFINITION. The parameters of an instance (spec/00_scope.md R10 to R13), the numbers the spec fixes, and the
free values: what the storages hold after a power-on reset (spec/70_reset_and_hazards.md R302). -/

namespace Sys2Proof

/-- The parameters of R12 that an instance fixes. `CTRL_LEN`, `DATA_LEN`, `PKT_MAX` and `COSLEN` follow from them. -/
structure Params where
  /-- `WMAX`, the greatest legal window length (R11). -/
  wmax : Nat
  /-- `COS_BITS`, log2 of the cosine table's length (R12). -/
  cosBits : Nat
  /-- `PAYLOAD_LEN`, the payload bytes of a data packet (R12). -/
  payloadLen : Nat
  /-- `HASH_SEED`, the seed of the packet hash, left OPEN by the spec (R13). -/
  hashSeed : Word
  /-- `ID_VALUE`, what the register `ID` reads (R12). -/
  idValue : Word
  deriving DecidableEq, Repr

namespace Config

/-- `TAG_CTRL`, the type byte of a control packet (R10). -/
def tagCtrl : Byte := 1#8

/-- `TAG_DATA`, the type byte of a data packet (R10). -/
def tagData : Byte := 2#8

/-- `CTRL_LEN`, bytes in a control packet, fixed by its layout (R12, R231). -/
def ctrlLen : Nat := 31

/-- The values of R12's table, which every test vector of the spec uses. `hashSeed` is the vectors' example for
the OPEN `HASH_SEED`: DESIGN CHOICE, unsafe for a claim about `State.reset` alone (log entry 4). -/
def standard : Params where
  wmax := 64
  cosBits := 8
  payloadLen := 256
  hashSeed := 0xDEADBEEF#32
  idValue := 0x4146534B#32

/-- FREE VALUE (log entry 5). What entry `i` of filter table `t` holds after power-on reset number `n` and before
anything writes it: some value, the same at every read, which nothing constrains (R302). -/
opaque powerOnFt (n t i : Nat) : Half

/-- FREE VALUE (log entry 5). The same for entry `k` of the cosine table (R302). -/
opaque powerOnCt (n k : Nat) : Half

/-- FREE VALUE (log entry 5). The same for entry `i` of the sample window (R302). -/
opaque powerOnWin (n i : Nat) : Half

/-- FREE VALUE (log entry 5). The same for byte `i` of the packet buffer (R302). -/
opaque powerOnPbuf (n i : Nat) : Byte

end Config

/-- `COSLEN`, entries of the cosine table (R12). -/
def Params.coslen (p : Params) : Nat := 2 ^ p.cosBits

/-- `DATA_LEN`, bytes in a data packet (R12, R232). -/
def Params.dataLen (p : Params) : Nat := 10 + p.payloadLen

/-- `PKT_MAX`, bytes in the packet buffer (R12). -/
def Params.pktMax (p : Params) : Nat := max Config.ctrlLen p.dataLen

/-- The bounds the spec puts on the parameters (R11, R12; spec/93_implementation_defined.md U7). -/
abbrev Params.Legal (p : Params) : Prop :=
  1 ≤ p.wmax ∧ p.wmax ≤ 255 ∧ 1 ≤ p.cosBits ∧ p.cosBits ≤ 15 ∧ p.pktMax ≤ 65535

end Sys2Proof
end

