-- ==== Sys2Proof/Syntax.lean ====
section
/-! DEFINITION. The seventeen commands (spec/30_encoding.md R96), the control registers a command can name
(spec/10_state.md R40) and their access classes. Operands are the fields of the command word that the command
reads (R94, R95); what a command ignores (R91) is not part of it. -/

namespace Sys2Proof

/-- One constructor per row of spec/opcode_table.json. -/
inductive Instr where
  /-- `NOP` (R121). -/
  | nop
  /-- `CSRR idx` (R122). -/
  | csrr (idx : BitVec 16)
  /-- `CSRW idx, data` (R123). -/
  | csrw (idx : BitVec 16) (data : Word)
  /-- `SYS.RESET` (R124). -/
  | sysReset
  /-- `FT.WR t, i, value` (R140); `zero` is `idx[15:10]`, which must be 0 (R95). -/
  | ftWr (zero : BitVec 6) (t : BitVec 2) (i : BitVec 8) (value : Half)
  /-- `FT.RD t, i` (R141); `zero` as in `FT.WR`. -/
  | ftRd (zero : BitVec 6) (t : BitVec 2) (i : BitVec 8)
  /-- `CT.WR k, value` (R142). -/
  | ctWr (k : BitVec 16) (value : Half)
  /-- `CT.RD k` (R143). -/
  | ctRd (k : BitVec 16)
  /-- `DEM.INIT` (R162). -/
  | demInit
  /-- `DEM.HALT` (R165). -/
  | demHalt
  /-- `DEM.SAMPLE v` (R170). -/
  | demSample (v : Half)
  /-- `MOD.INIT` (R201). -/
  | modInit
  /-- `MOD.HALT` (R203). -/
  | modHalt
  /-- `MOD.SAMPLE b` (R205). -/
  | modSample (b : Bool)
  /-- `FRM.CLEAR` (R225). -/
  | frmClear
  /-- `FRM.BIT b` (R226). -/
  | frmBit (b : Bool)
  /-- `FRM.RD i` (R227). -/
  | frmRd (i : BitVec 16)
  deriving DecidableEq, Repr

/-- The 21 control and status registers (R40), in the order of their indexes. -/
inductive Csr where
  | id | param0 | param1 | hashseed | status | ctrl | lasterr
  | demWindow | demPllInc | demPllAdj | demRunmax | demPhase | demRunlen | demState
  | modIncLo | modIncHi | modBaudInc | modPhase | modBaud | modState
  | frmPos
  deriving DecidableEq, Repr

/-- How `CSRW` treats a register (R40). -/
inductive Access where
  /-- `RO`: a write faults with `ERR_ACCESS`. -/
  | ro
  /-- Read-only with write-1-to-clear bits (`STATUS`): a write never faults for access (R45). -/
  | w1c
  /-- `RW`. -/
  | rw
  /-- `RW-L(DEM)`: locked while DEM is READY (R69). -/
  | rwLockedByDem
  /-- `RW-L(MOD)`: locked while MOD is READY (R69). -/
  | rwLockedByMod
  deriving DecidableEq, Repr

end Sys2Proof
end

