-- ==== Sys2Proof/Machine/Operands.lean ====
section
/-! DEFINITION. Operand assembly (spec/30_encoding.md R94, R95): which register an index names, the legality of an
index (spec/20_memory.md R75), the numbers two's-complement patterns stand for (spec/00_scope.md R16), and the
zero-extension of results (R94). -/

namespace Sys2Proof.Machine

open Sys2Proof

/-- The register numbered `idx`, if there is one (spec/10_state.md R40). -/
def csrOfIndex (idx : BitVec 16) : Option Csr :=
  match idx with
  | 0x0000#16 => some .id
  | 0x0001#16 => some .param0
  | 0x0002#16 => some .param1
  | 0x0003#16 => some .hashseed
  | 0x0004#16 => some .status
  | 0x0005#16 => some .ctrl
  | 0x0006#16 => some .lasterr
  | 0x0010#16 => some .demWindow
  | 0x0011#16 => some .demPllInc
  | 0x0012#16 => some .demPllAdj
  | 0x0013#16 => some .demRunmax
  | 0x0014#16 => some .demPhase
  | 0x0015#16 => some .demRunlen
  | 0x0016#16 => some .demState
  | 0x0020#16 => some .modIncLo
  | 0x0021#16 => some .modIncHi
  | 0x0022#16 => some .modBaudInc
  | 0x0023#16 => some .modPhase
  | 0x0024#16 => some .modBaud
  | 0x0025#16 => some .modState
  | 0x0030#16 => some .frmPos
  | _ => none

/-- The number of a register (R40). -/
def csrIndex : Csr → BitVec 16
  | .id => 0x0000#16
  | .param0 => 0x0001#16
  | .param1 => 0x0002#16
  | .hashseed => 0x0003#16
  | .status => 0x0004#16
  | .ctrl => 0x0005#16
  | .lasterr => 0x0006#16
  | .demWindow => 0x0010#16
  | .demPllInc => 0x0011#16
  | .demPllAdj => 0x0012#16
  | .demRunmax => 0x0013#16
  | .demPhase => 0x0014#16
  | .demRunlen => 0x0015#16
  | .demState => 0x0016#16
  | .modIncLo => 0x0020#16
  | .modIncHi => 0x0021#16
  | .modBaudInc => 0x0022#16
  | .modPhase => 0x0023#16
  | .modBaud => 0x0024#16
  | .modState => 0x0025#16
  | .frmPos => 0x0030#16

/-- The access class of a register (R40's table). -/
def csrAccess : Csr → Access
  | .id => .ro
  | .param0 => .ro
  | .param1 => .ro
  | .hashseed => .ro
  | .status => .w1c
  | .ctrl => .rw
  | .lasterr => .ro
  | .demWindow => .rwLockedByDem
  | .demPllInc => .rwLockedByDem
  | .demPllAdj => .rwLockedByDem
  | .demRunmax => .rw
  | .demPhase => .rw
  | .demRunlen => .ro
  | .demState => .ro
  | .modIncLo => .rwLockedByMod
  | .modIncHi => .rwLockedByMod
  | .modBaudInc => .rwLockedByMod
  | .modPhase => .ro
  | .modBaud => .ro
  | .modState => .ro
  | .frmPos => .ro

/-- An FT index is legal when `idx[15:10]` = 0 and the entry is below `WMAX` (R95). -/
def ftIndexLegal (p : Params) (zero : BitVec 6) (i : BitVec 8) : Bool :=
  zero == 0#6 && decide (i.toNat < p.wmax)

/-- A CT index is legal when it is below `COSLEN` (R94). -/
def ctIndexLegal (p : Params) (k : BitVec 16) : Bool :=
  decide (k.toNat < p.coslen)

/-- A PBUF index is legal when it is below `PKT_MAX` (R94). -/
def pbufIndexLegal (p : Params) (i : BitVec 16) : Bool :=
  decide (i.toNat < p.pktMax)

/-- `sext_16` of an `s16` pattern (spec/00_scope.md R16): the integer it stands for. -/
def sext16 (v : Half) : Int := v.toInt

/-- `zext_16(to_u16(x))` of an `s16` entry as response data (R94). -/
def zext16 (v : Half) : Word := 0#16 ++ v

/-- `zext_8` of a byte as response data (R94). -/
def zext8 (v : Byte) : Word := 0#24 ++ v

end Sys2Proof.Machine
end

