-- ==== Sys2Proof/WellFormed.lean ====
section
/-! DEFINITION. Which commands are well formed for an instance: the checks that need only the word and the
parameters, namely that the index is inside its space and that a register to be written is not read-only
(spec/60_exceptions.md R273, checks 2 and 3). A command that is not well formed still has a word and still runs: it
takes the fault `ERR_IDX` or `ERR_ACCESS`. -/

namespace Sys2Proof

open Sys2Proof.Machine

/-- Check 2 of R273: the index operand lies in the space the command addresses. -/
def indexInside (p : Params) : Instr → Bool
  | .nop => true
  | .csrr idx => (csrOfIndex idx).isSome
  | .csrw idx _ => (csrOfIndex idx).isSome
  | .sysReset => true
  | .ftWr zero _ i _ => ftIndexLegal p zero i
  | .ftRd zero _ i => ftIndexLegal p zero i
  | .ctWr k _ => ctIndexLegal p k
  | .ctRd k => ctIndexLegal p k
  | .demInit => true
  | .demHalt => true
  | .demSample _ => true
  | .modInit => true
  | .modHalt => true
  | .modSample _ => true
  | .frmClear => true
  | .frmBit _ => true
  | .frmRd i => pbufIndexLegal p i

/-- Check 3 of R273: the command writes no read-only register. -/
def accessAllowed : Instr → Bool
  | .nop => true
  | .csrr _ => true
  | .csrw idx _ => (csrOfIndex idx).all (fun c => csrAccess c != .ro)
  | .sysReset => true
  | .ftWr _ _ _ _ => true
  | .ftRd _ _ _ => true
  | .ctWr _ _ => true
  | .ctRd _ => true
  | .demInit => true
  | .demHalt => true
  | .demSample _ => true
  | .modInit => true
  | .modHalt => true
  | .modSample _ => true
  | .frmClear => true
  | .frmBit _ => true
  | .frmRd _ => true

/-- A command that no check of word and parameters refuses. -/
def wellFormed (p : Params) (i : Instr) : Bool :=
  indexInside p i && accessAllowed i

end Sys2Proof
end

