-- ==== Sys2Proof/Decode.lean ====
section
/-! DEFINITION. The command word's fields, the decoder and the encoder (spec/30_encoding.md R90 to R99). A command
word is a whole 64-bit value without a byte order (spec/20_memory.md R74, log entry 11). -/

namespace Sys2Proof

/-- `op`, bits [63:56] (R90). -/
def opField (w : CommandWord) : BitVec 8 := w.extractLsb' 56 8

/-- `rsv`, bits [55:48], which must be 0 (R90, R98). -/
def rsvField (w : CommandWord) : BitVec 8 := w.extractLsb' 48 8

/-- `idx`, bits [47:32] (R90). -/
def idxField (w : CommandWord) : BitVec 16 := w.extractLsb' 32 16

/-- `data`, bits [31:0] (R90). -/
def dataField (w : CommandWord) : Word := w.extractLsb' 0 32

/-- The FT index's `idx[15:10]`, which must be 0 (R95). -/
def ftZeroField (w : CommandWord) : BitVec 6 := w.extractLsb' 42 6

/-- The FT index's table, `idx[9:8]` (R95). -/
def ftTableField (w : CommandWord) : BitVec 2 := w.extractLsb' 40 2

/-- The FT index's entry, `idx[7:0]` (R95). -/
def ftEntryField (w : CommandWord) : BitVec 8 := w.extractLsb' 32 8

/-- A table entry to write or a sample, `data[15:0]` (R94). -/
def valueField (w : CommandWord) : Half := w.extractLsb' 0 16

/-- A bit operand, `data[0]` (R94). -/
def bitField (w : CommandWord) : Bool := w.getLsbD 0

/-- Why a word is no command; either way it faults with `ERR_OP` (R97, R98). -/
inductive DecodeError where
  /-- The opcode byte is not in R96's table. -/
  | illegalOpcode (op : BitVec 8)
  /-- The opcode is legal and `rsv` is not 0. -/
  | reservedNotZero (rsv : BitVec 8)
  deriving DecidableEq, Repr

/-- The opcode of a command (R96). -/
def opcode : Instr → BitVec 8
  | .nop => 0x00#8
  | .csrr _ => 0x01#8
  | .csrw _ _ => 0x02#8
  | .sysReset => 0x03#8
  | .ftWr _ _ _ _ => 0x10#8
  | .ftRd _ _ _ => 0x11#8
  | .ctWr _ _ => 0x12#8
  | .ctRd _ => 0x13#8
  | .demInit => 0x20#8
  | .demHalt => 0x21#8
  | .demSample _ => 0x22#8
  | .modInit => 0x30#8
  | .modHalt => 0x31#8
  | .modSample _ => 0x32#8
  | .frmClear => 0x40#8
  | .frmBit _ => 0x41#8
  | .frmRd _ => 0x42#8

/-- The command of the word's opcode, its operands taken from the word's fields (R94, R95, R96); the other bits are
ignored (R91). -/
def instrOfOpcode (w : CommandWord) : Option Instr :=
  match opField w with
  | 0x00#8 => some .nop
  | 0x01#8 => some (.csrr (idxField w))
  | 0x02#8 => some (.csrw (idxField w) (dataField w))
  | 0x03#8 => some .sysReset
  | 0x10#8 => some (.ftWr (ftZeroField w) (ftTableField w) (ftEntryField w) (valueField w))
  | 0x11#8 => some (.ftRd (ftZeroField w) (ftTableField w) (ftEntryField w))
  | 0x12#8 => some (.ctWr (idxField w) (valueField w))
  | 0x13#8 => some (.ctRd (idxField w))
  | 0x20#8 => some .demInit
  | 0x21#8 => some .demHalt
  | 0x22#8 => some (.demSample (valueField w))
  | 0x30#8 => some .modInit
  | 0x31#8 => some .modHalt
  | 0x32#8 => some (.modSample (bitField w))
  | 0x40#8 => some .frmClear
  | 0x41#8 => some (.frmBit (bitField w))
  | 0x42#8 => some (.frmRd (idxField w))
  | _ => none

/-- The decoder, total on command words: the opcode must be in the table (R97) and `rsv` must be 0 (R98). Which of
the two is looked at first cannot be seen, both being `ERR_OP` (log entry 12). -/
def decode (w : CommandWord) : Except DecodeError Instr :=
  match instrOfOpcode w with
  | none => .error (.illegalOpcode (opField w))
  | some i => if rsvField w = 0#8 then .ok i else .error (.reservedNotZero (rsvField w))

/-- The FT index `idx[15:10] idx[9:8] idx[7:0]` (R95). -/
def ftIndex (zero : BitVec 6) (t : BitVec 2) (i : BitVec 8) : BitVec 16 := zero ++ t ++ i

/-- The `idx` field of the canonical encoding: 0 where the command ignores it (R91, R105). -/
def encodeIdx : Instr → BitVec 16
  | .nop => 0#16
  | .csrr idx => idx
  | .csrw idx _ => idx
  | .sysReset => 0#16
  | .ftWr zero t i _ => ftIndex zero t i
  | .ftRd zero t i => ftIndex zero t i
  | .ctWr k _ => k
  | .ctRd k => k
  | .demInit => 0#16
  | .demHalt => 0#16
  | .demSample _ => 0#16
  | .modInit => 0#16
  | .modHalt => 0#16
  | .modSample _ => 0#16
  | .frmClear => 0#16
  | .frmBit _ => 0#16
  | .frmRd i => i

/-- The `data` field of the canonical encoding: 0 in every bit the command ignores (R91, R105). -/
def encodeData : Instr → Word
  | .nop => 0#32
  | .csrr _ => 0#32
  | .csrw _ data => data
  | .sysReset => 0#32
  | .ftWr _ _ _ value => 0#16 ++ value
  | .ftRd _ _ _ => 0#32
  | .ctWr _ value => 0#16 ++ value
  | .ctRd _ => 0#32
  | .demInit => 0#32
  | .demHalt => 0#32
  | .demSample v => 0#16 ++ v
  | .modInit => 0#32
  | .modHalt => 0#32
  | .modSample b => 0#31 ++ BitVec.ofBool b
  | .frmClear => 0#32
  | .frmBit b => 0#31 ++ BitVec.ofBool b
  | .frmRd _ => 0#32

/-- The canonical word of a command (R90, R91, R105). -/
def encode (i : Instr) : CommandWord :=
  opcode i ++ 0#8 ++ encodeIdx i ++ encodeData i

/-- The command a word of spec/opcode_table.json decodes to: the table numbers the bits of the whole word from its
least significant bit, as R90 does, so the word is the number itself. -/
def decodeTableWord (nbits w : Nat) : Option Instr :=
  match decode (BitVec.ofNat 64 (w % 2 ^ nbits)) with
  | .ok i => some i
  | .error _ => none

end Sys2Proof
end

