-- ==== Sys2Proof/Machine/State.lean ====
section
/-! DEFINITION. Everything the spec gives the machine, as plain data (spec/10_state.md R30 to R67), what a command
returns (spec/30_encoding.md R92, R93), the reasons a step can stop, and the machine right after a power-on reset
(spec/70_reset_and_hazards.md R301). -/

namespace Sys2Proof.Machine

open Sys2Proof

/-- The five fault codes of a command (spec/60_exceptions.md R271). Taking one is a NEXT state (R272). -/
inductive FaultCode where
  /-- Code 1, `ERR_OP`. -/
  | errOp
  /-- Code 2, `ERR_IDX`. -/
  | errIdx
  /-- Code 3, `ERR_ACCESS`. -/
  | errAccess
  /-- Code 4, `ERR_STATE`. -/
  | errState
  /-- Code 5, `ERR_CFG`. -/
  | errCfg
  deriving DecidableEq, Repr

/-- What every command returns: a `u8` code, 0 for `OK`, and a `u32` (R92). -/
structure Response where
  code : Byte
  data : Word
  deriving DecidableEq, Repr

/-- What the host can do to the block: present a command word (R25), or assert the power-on reset input (R300). -/
inductive HostInput where
  | command (w : CommandWord)
  | powerOn
  deriving DecidableEq, Repr

/-- A storage: the entries written since the power-on reset, by index, in strictly rising order (log entry 7).
An index that is not listed reads as the free value of its space (log entry 5). -/
abbrev Storage (α : Type) := List (Nat × α)

/-- One byte of the packet buffer and which of its bits have been written since the power-on reset; the others hold
unspecified values (R65, log entry 8). In canonical form an unwritten bit of `value` is 0. -/
structure PbufByte where
  value : Byte
  written : Byte
  deriving DecidableEq, Repr

/-- The stored fields of the control and status registers (R40 to R61). The constant registers are functions of the
parameters, `LOCKLOSS` is computed at the read (R45), and unnamed bits have no storage (R68). -/
structure Regs where
  /-- `STATUS[0]` (R45). -/
  demReady : Bool
  /-- `STATUS[1]` (R45). -/
  modReady : Bool
  /-- `STATUS[12:8]`: bit 0 is `E_OP`, bit 4 is `E_CFG` (R45). -/
  sticky : BitVec 5
  /-- `CTRL[0]`, `CHAIN` (R46). -/
  chain : Bool
  /-- `LASTERR[7:0]` (R47). -/
  lastErrCode : Byte
  /-- `LASTERR[15:8]` (R47). -/
  lastErrOp : Byte
  /-- `DEM_WINDOW` (R48). -/
  demWindow : Word
  /-- `DEM_PLL_INC` (R49). -/
  demPllInc : Word
  /-- `DEM_PLL_ADJ` (R50). -/
  demPllAdj : Word
  /-- `DEM_RUNMAX` (R51). -/
  demRunmax : Word
  /-- `DEM_PHASE` (R52). -/
  demPhase : Word
  /-- `DEM_RUNLEN` (R53). -/
  demRunlen : Word
  /-- `DEM_STATE[0]`, `prev_dec` (R54). -/
  prevDec : Bool
  /-- `DEM_STATE[15:8]`, `wr_ptr` (R54). -/
  wrPtr : BitVec 8
  /-- `MOD_INC_LO` (R55). -/
  modIncLo : Word
  /-- `MOD_INC_HI` (R56). -/
  modIncHi : Word
  /-- `MOD_BAUD_INC` (R57). -/
  modBaudInc : Word
  /-- `MOD_PHASE` (R58). -/
  modPhase : Word
  /-- `MOD_BAUD` (R59). -/
  modBaud : Word
  /-- `MOD_STATE[0]`, `cur_bit` (R60). -/
  curBit : Bool
  /-- `MOD_STATE[1]`, `need_bit` (R60). -/
  needBit : Bool
  /-- `FRM_POS[15:0]`, `byte_off` (R61). -/
  byteOff : BitVec 16
  /-- `FRM_POS[18:16]`, `bit_off` (R61). -/
  bitOff : BitVec 3
  deriving DecidableEq, Repr

/-- The registers' values after either reset (R67, R301). -/
def Regs.reset : Regs where
  demReady := false
  modReady := false
  sticky := 0#5
  chain := false
  lastErrCode := 0#8
  lastErrOp := 0#8
  demWindow := 0#32
  demPllInc := 0#32
  demPllAdj := 0#32
  demRunmax := 0xFFFFFFFF#32
  demPhase := 0#32
  demRunlen := 0#32
  prevDec := false
  wrPtr := 0#8
  modIncLo := 0#32
  modIncHi := 0#32
  modBaudInc := 0#32
  modPhase := 0#32
  modBaud := 0#32
  curBit := false
  needBit := true
  byteOff := 0#16
  bitOff := 0#3

/-- One instance of AFSK-CORE, with the host's inputs that it has not taken yet. -/
structure State where
  /-- The parameters of this instance; no step changes them (R12, log entry 4). -/
  params : Params
  /-- The registers' stored fields (R40). -/
  regs : Regs
  /-- FT, entry `i` of table `t` at index `256 * t + i`, which is its `idx` (R62, R95). -/
  ft : Storage Half
  /-- CT (R63). -/
  ct : Storage Half
  /-- WIN (R64). -/
  win : Storage Half
  /-- PBUF (R65). -/
  pbuf : Storage PbufByte
  /-- The response of the last command, if there was one since the power-on reset (R92, log entry 3). -/
  response : Option Response
  /-- MODEL's own: what the host has presented and the block has not taken yet, in order (log entry 1). -/
  inbox : List HostInput
  /-- MODEL's own: which power-on reset this is; the free contents of the storages depend on it (log entry 6). -/
  powerOns : Nat
  deriving DecidableEq, Repr

/-- Why a step can stop. The block itself never does: every fault of the spec is a response, and the machine goes on
(R272). The two constructors name an access outside a storage, which R71 says never happens: no run from reset
reaches one. Safe: the model stops where the spec gives no effect (log entry 9). -/
inductive Fault where
  /-- Raised by `DEM.SAMPLE` when DEM is READY with a window length that is 0 or above `WMAX`, or with `wr_ptr`
  outside WIN: the lock (R69) and `DEM.INIT` (R164) keep every run from such a state. Safe. -/
  | windowOutsideStorage
  /-- Raised by `FRM.BIT` and by a chained `DEM.SAMPLE` that emits a bit when `byte_off` is not below `PKT_MAX`,
  which R221 says never holds between commands. Safe. -/
  | positionOutsideBuffer
  deriving DecidableEq, Repr

/-- Why the model gives a command no meaning. No arm of `exec` is refused. -/
inductive Refusal where
  /-- Answered by an arm of `exec` for a command that has no meaning yet. Safe: nothing follows from it. -/
  | notModelled (mnemonic : String)
  deriving DecidableEq, Repr

/-- What a command does. -/
abbrev Result := Host.Outcome State Fault Refusal

/-- An instance with parameters `p` right after its power-on reset number `n` (R301): every register at its reset
value, nothing listed in the storages, whose contents are unspecified (R302), no response, no input waiting. -/
def State.resetWith (p : Params) (n : Nat) : State where
  params := p
  regs := Regs.reset
  ft := []
  ct := []
  win := []
  pbuf := []
  response := none
  inbox := []
  powerOns := n

/-- The machine right after reset, with the parameters of R12's table (log entries 4 and 6). -/
def State.reset : State := State.resetWith Config.standard 0

end Sys2Proof.Machine
end

