-- ==== Sys2Proof/Machine/Ops.lean ====
section
/-! DEFINITION. The named operations over the storages (`MemRead`, `MemWrite` of spec/20_memory.md R71), the response
(`respond` of spec/00_scope.md R16), taking a fault (spec/60_exceptions.md R272), and taking the host's next input.
There is no return from a fault: "There is nothing to return from" (R276). -/

namespace Sys2Proof.Machine

open Sys2Proof

/-- The entry written at `i`, if any. -/
def storageGet {α : Type} : Storage α → Nat → Option α
  | [], _ => none
  | (k, v) :: rest, i => if i = k then some v else storageGet rest i

/-- Write `v` at `i`, keeping the indexes strictly rising. -/
def storagePut {α : Type} : Storage α → Nat → α → Storage α
  | [], i, v => [(i, v)]
  | (k, w) :: rest, i, v =>
    if i < k then (i, v) :: (k, w) :: rest
    else if i = k then (i, v) :: rest
    else (k, w) :: storagePut rest i v

/-- The canonical form of a storage: indexes strictly rising, every one of them inside the space (log entry 7). -/
abbrev Storage.wf {α : Type} (m : Storage α) (inside : Nat → Bool) : Prop :=
  m.Pairwise (fun a b => a.1 < b.1) ∧ ∀ e ∈ m, inside e.1 = true

/-- The index of entry `i` of table `t` in FT's storage: the value of its `idx` (spec/30_encoding.md R95). -/
def ftKey (t i : Nat) : Nat := 256 * t + i

/-- FT's index space: four tables of `WMAX` entries (R70). -/
def ftInside (p : Params) (k : Nat) : Bool := decide (k / 256 < 4) && decide (k % 256 < p.wmax)

/-- CT's index space (R70). -/
def ctInside (p : Params) (k : Nat) : Bool := decide (k < p.coslen)

/-- WIN's index space (R70). -/
def winInside (p : Params) (k : Nat) : Bool := decide (k < p.wmax)

/-- PBUF's index space (R70). -/
def pbufInside (p : Params) (k : Nat) : Bool := decide (k < p.pktMax)

/-- A listed byte of PBUF has a written bit, and its unwritten bits are 0 in `value` (log entry 8). -/
def pbufByteCanonical (e : PbufByte) : Bool := e.written != 0#8 && e.value &&& ~~~e.written == 0#8

/-- The four storages are in canonical form. -/
abbrev Memory.wf (s : State) : Prop :=
  Storage.wf s.ft (ftInside s.params) ∧ Storage.wf s.ct (ctInside s.params) ∧
    Storage.wf s.win (winInside s.params) ∧ Storage.wf s.pbuf (pbufInside s.params) ∧
    ∀ e ∈ s.pbuf, pbufByteCanonical e.2 = true

/-- `MemRead(FT[t], i)`; an entry never written reads as the free value (R302). -/
def ftRead (s : State) (t i : Nat) : Half :=
  (storageGet s.ft (ftKey t i)).getD (Config.powerOnFt s.powerOns t i)

/-- `MemWrite(FT[t], i, v)`. -/
def ftWrite (t i : Nat) (v : Half) (s : State) : State :=
  { s with ft := storagePut s.ft (ftKey t i) v }

/-- `MemRead(CT, k)`. -/
def ctRead (s : State) (k : Nat) : Half :=
  (storageGet s.ct k).getD (Config.powerOnCt s.powerOns k)

/-- `MemWrite(CT, k, v)`. -/
def ctWrite (k : Nat) (v : Half) (s : State) : State :=
  { s with ct := storagePut s.ct k v }

/-- `MemRead(WIN, i)`. -/
def winRead (s : State) (i : Nat) : Half :=
  (storageGet s.win i).getD (Config.powerOnWin s.powerOns i)

/-- `MemWrite(WIN, i, v)`. -/
def winWrite (i : Nat) (v : Half) (s : State) : State :=
  { s with win := storagePut s.win i v }

/-- WIN with 0 at every one of its `n` entries: `DEM.INIT` writes them all (R162). -/
def zeroWindow (n : Nat) : Storage Half := (List.range n).map (fun i => (i, 0#16))

/-- The byte an entry of PBUF reads as, when its unwritten bits hold those of `free`. -/
def pbufByteValue (e : PbufByte) (free : Byte) : Byte :=
  if e.written = 0xFF#8 then e.value else e.value ||| (free &&& ~~~e.written)

/-- `MemRead(PBUF, i)`; a bit never written reads as the free value's (R65, R302). -/
def pbufRead (s : State) (i : Nat) : Byte :=
  match storageGet s.pbuf i with
  | none => Config.powerOnPbuf s.powerOns i
  | some e => pbufByteValue e (Config.powerOnPbuf s.powerOns i)

/-- `MemWrite(PBUF, i, v)` of a whole byte. -/
def pbufWrite (i : Nat) (v : Byte) (s : State) : State :=
  { s with pbuf := storagePut s.pbuf i (PbufByte.mk v 0xFF#8) }

/-- A byte with bit `k` replaced by `b`, the others as they were (R76). -/
def setBit (v : Byte) (k : Nat) (b : Bool) : Byte :=
  (v &&& ~~~(1#8 <<< k)) ||| (if b then 1#8 <<< k else 0#8)

/-- An entry of PBUF after a write of its bit `k`. -/
def pbufByteWithBit (e : PbufByte) (k : Nat) (b : Bool) : PbufByte :=
  { value := setBit e.value k b, written := e.written ||| (1#8 <<< k) }

/-- Write bit `k` of byte `i` of PBUF and leave the other seven as they were (R76, R221). -/
def pbufWriteBit (i k : Nat) (b : Bool) (s : State) : State :=
  { s with
    pbuf := storagePut s.pbuf i
      (pbufByteWithBit ((storageGet s.pbuf i).getD { value := 0#8, written := 0#8 }) k b) }

/-- The state with other registers. -/
def State.setRegs (s : State) (r : Regs) : State := { s with regs := r }

/-- `respond(data)`: end the command with code `OK` (R16). -/
def respond (data : Word) (s : State) : State :=
  { s with response := some { code := 0#8, data := data } }

/-- The number of a fault code (R271). -/
def faultNumber : FaultCode → Byte
  | .errOp => 1#8
  | .errIdx => 2#8
  | .errAccess => 3#8
  | .errState => 4#8
  | .errCfg => 5#8

/-- The sticky bit of a fault code within `STATUS[12:8]`: code `c` sets `STATUS[7 + c]` (R45, R272). -/
def stickyBit (c : FaultCode) : BitVec 5 := 1#5 <<< ((faultNumber c).toNat - 1)

/-- Fault entry, `raise Fault(c)`, for a command whose opcode byte is `op` (R272): the sticky bit, `LASTERR`, and the
response with data 0. Nothing else changes. -/
def raiseFault (c : FaultCode) (op : Byte) (s : State) : State :=
  { s with
    regs := { s.regs with
      sticky := s.regs.sticky ||| stickyBit c
      lastErrCode := faultNumber c
      lastErrOp := op }
    response := some { code := faultNumber c, data := 0#32 } }

/-- The host's next input and the state without it; none when the host has presented nothing. -/
def nextInput (s : State) : Option (HostInput × State) :=
  match s.inbox with
  | [] => none
  | x :: rest => some (x, { s with inbox := rest })

/-- The state in which the host presents the word `w` next, before what already waits. -/
def presentCommand (w : CommandWord) (s : State) : State :=
  { s with inbox := .command w :: s.inbox }

/-- The 33-bit sum of two `u32` (R170, R205). -/
def sum33 (a b : Word) : BitVec 33 := a.setWidth 33 + b.setWidth 33

/-- `sum33[31:0]`: the sum modulo 2^32 (spec/00_scope.md R19). -/
def sumLow (a b : Word) : Word := (sum33 a b).extractLsb' 0 32

/-- `sum33[32]`: the carry out of bit 31, the source's "crosses 1.0" (R19). -/
def sumCarry (a b : Word) : Bool := (sum33 a b).getLsbD 32

end Sys2Proof.Machine
end

