-- ==== Sys2Proof/Machine/Flags.lean ====
section
/-! DEFINITION. The one-bit flags and the words that show them (spec/10_state.md R33, R45 to R47, R54, R60, R61), the
legality of the units' configurations (spec/42_demodulator.md R164, spec/43_modulator.md R201) and the lock
(spec/10_state.md R69). -/

namespace Sys2Proof.Machine

open Sys2Proof

/-- `LOCKLOSS`: the run length exceeds the expected maximum, unsigned, computed when asked (R45, R184). -/
def lockLoss (r : Regs) : Bool := r.demRunmax.ult r.demRunlen

/-- The word `STATUS` reads as (R45). -/
def statusWord (r : Regs) : Word :=
  0#19 ++ r.sticky ++ 0#5 ++ BitVec.ofBool (lockLoss r) ++ BitVec.ofBool r.modReady ++ BitVec.ofBool r.demReady

/-- The word `CTRL` reads as (R46). -/
def ctrlWord (r : Regs) : Word := 0#31 ++ BitVec.ofBool r.chain

/-- The word `LASTERR` reads as (R47). -/
def lastErrWord (r : Regs) : Word := 0#16 ++ r.lastErrOp ++ r.lastErrCode

/-- The word `DEM_STATE` reads as (R54). -/
def demStateWord (r : Regs) : Word := 0#16 ++ r.wrPtr ++ 0#7 ++ BitVec.ofBool r.prevDec

/-- The word `MOD_STATE` reads as (R60). -/
def modStateWord (r : Regs) : Word := 0#30 ++ BitVec.ofBool r.needBit ++ BitVec.ofBool r.curBit

/-- The word `FRM_POS` reads as (R61). -/
def frmPosWord (r : Regs) : Word := 0#13 ++ r.bitOff ++ r.byteOff

/-- The word `PARAM0` reads as (R42). -/
def param0Word (p : Params) : Word :=
  BitVec.ofNat 16 p.pktMax ++ 0#4 ++ BitVec.ofNat 4 p.cosBits ++ BitVec.ofNat 8 p.wmax

/-- The word `PARAM1` reads as (R43). -/
def param1Word (p : Params) : Word := BitVec.ofNat 16 p.dataLen ++ BitVec.ofNat 16 Config.ctrlLen

/-- The sticky bits after `CSRW STATUS, v`: those whose bit of `v[12:8]` is 1 are cleared (R45, R123). -/
def clearSticky (sticky : BitVec 5) (v : Word) : BitVec 5 := sticky &&& ~~~(v.extractLsb' 8 5)

/-- DEM's configuration is legal: `1 <= DEM_WINDOW <= WMAX`, `DEM_PLL_INC != 0`, `DEM_PLL_ADJ < 0x80000000` (R164). -/
def demConfigLegal (p : Params) (r : Regs) : Bool :=
  decide (1 ≤ r.demWindow.toNat) && decide (r.demWindow.toNat ≤ p.wmax) && r.demPllInc != 0#32 &&
    r.demPllAdj.ult 0x80000000#32

/-- MOD's configuration is legal: `MOD_BAUD_INC != 0` (R201). -/
def modConfigLegal (r : Regs) : Bool := r.modBaudInc != 0#32

/-- A register of this access class is locked now (R69). -/
def locked (a : Access) (r : Regs) : Bool :=
  match a with
  | .ro => false
  | .w1c => false
  | .rw => false
  | .rwLockedByDem => r.demReady
  | .rwLockedByMod => r.modReady

end Sys2Proof.Machine
end

