-- ==== Sys2Proof/Machine/Hash.lean ====
section
/-! DEFINITION. `Hash32(bytes, seed)` (spec/44_framer.md R250), adopted as the spec writes it; the spec marks the
algorithm as general knowledge (spec/93_implementation_defined.md G1, log entry 10). All arithmetic is modulo 2^32. -/

namespace Sys2Proof.Machine

open Sys2Proof

/-- Four bytes as a little-endian `u32`, the first the least significant (spec/20_memory.md R72, R250). -/
def le32 (b0 b1 b2 b3 : Byte) : Word := b3 ++ b2 ++ b1 ++ b0

/-- `rotl32` (spec/00_scope.md R16). -/
def rotl32 (v : Word) (r : Nat) : Word := (v <<< r) ||| (v >>> (32 - r))

/-- What R250 does to a block or a tail `k` before it enters the hash. -/
def hashScramble (k : Word) : Word := rotl32 (k * 0xCC9E2D51#32) 15 * 0x1B873593#32

/-- One four-byte block (R250). -/
def hashBlock (h k : Word) : Word := rotl32 (h ^^^ hashScramble k) 13 * 5#32 + 0xE6546B64#32

/-- The blocks in order and then the tail of at most three bytes (R250). -/
def hashBytes (h : Word) : List Byte → Word
  | [] => h
  | [a] => h ^^^ hashScramble (le32 a 0#8 0#8 0#8)
  | [a, b] => h ^^^ hashScramble (le32 a b 0#8 0#8)
  | [a, b, c] => h ^^^ hashScramble (le32 a b c 0#8)
  | a :: b :: c :: d :: rest => hashBytes (hashBlock h (le32 a b c d)) rest

/-- The finaliser of R250. -/
def hashFinish (h : Word) : Word :=
  let h1 := (h ^^^ (h >>> 16)) * 0x85EBCA6B#32
  let h2 := (h1 ^^^ (h1 >>> 13)) * 0xC2B2AE35#32
  h2 ^^^ (h2 >>> 16)

/-- `Hash32(bytes, seed)` (R250). -/
def hash32 (bytes : List Byte) (seed : Word) : Word :=
  hashFinish (hashBytes seed bytes ^^^ BitVec.ofNat 32 bytes.length)

end Sys2Proof.Machine
end

