-- ==== Sys2Proof/Machine/Framer.lean ====
section
/-! DEFINITION. The framer: a candidate's length, striping, validation, `PushBit` (spec/44_framer.md R221, R222, R240,
R245) and the commands `FRM.CLEAR`, `FRM.BIT`, `FRM.RD` (R225 to R227). -/

namespace Sys2Proof.Machine

open Sys2Proof

/-- `Target(ty)`: the length at which a candidate with this type byte is complete (R222). -/
def target (p : Params) (ty : Byte) : Nat :=
  if ty = Config.tagCtrl then Config.ctrlLen
  else if ty = Config.tagData then p.dataLen
  else 2

/-- What the striping of a format version XORs byte `i` of a packet with; `none` where it leaves the byte alone
(R245, R247). -/
def stripeMask (version : Byte) (i : Nat) : Option Byte :=
  if version = 1#8 then
    if i % 16 = 7 then some 0x55#8
    else if i % 16 = 15 then some 0xAA#8
    else none
  else if version = 2#8 then
    if i % 3 = 0 then some 0x35#8
    else if i % 3 = 1 then some 0xAC#8
    else some 0x95#8
  else none

/-- The striping of one byte of PBUF, in place (R245). -/
def stripeByte (version : Byte) (i : Nat) (s : State) : State :=
  match stripeMask version i with
  | none => s
  | some m => pbufWrite i (pbufRead s i ^^^ m) s

/-- `Stripe(version, lo, hi)` with `hi = lo + n`: the bytes from `lo` up, `n` of them (R245). -/
def stripe (version : Byte) (lo : Nat) : Nat → State → State
  | 0, s => s
  | n + 1, s => stripeByte version (lo + n) (stripe version lo n s)

/-- The bytes of PBUF from `lo` up, `n` of them. -/
def pbufBytes (s : State) (lo n : Nat) : List Byte := (List.range n).map (fun k => pbufRead s (lo + k))

/-- The little-endian `u32` at offset `i` of PBUF (spec/20_memory.md R72). -/
def pbufWord (s : State) (i : Nat) : Word :=
  le32 (pbufRead s i) (pbufRead s (i + 1)) (pbufRead s (i + 2)) (pbufRead s (i + 3))

/-- The hash of a candidate of `n` bytes, its trailing hash field left out, equals that field (R240, R251). -/
def hashMatches (s : State) (n : Nat) : Bool :=
  hash32 (pbufBytes s 0 (n - 4)) s.params.hashSeed == pbufWord s (n - 4)

/-- A candidate's validity and the state with its striping reversed. -/
structure Validated where
  state : State
  valid : Bool

/-- `Validate(n)` on a complete candidate of `n` bytes (R240 to R243): an unknown type is invalid and nothing is
changed; a data packet's span from the header to the trailing hash is un-striped in place before the hash is
checked; a control packet is not un-striped. -/
def validate (n : Nat) (s : State) : Validated :=
  if pbufRead s 1 = Config.tagCtrl then { state := s, valid := hashMatches s n }
  else if pbufRead s 1 = Config.tagData then
    let s1 := stripe (pbufRead s 0) 2 (n - 4 - 2) s
    { state := s1, valid := hashMatches s1 n }
  else { state := s, valid := false }

/-- The result of a push that completes a candidate: `pkt_type`, `pkt_valid`, `pkt_done` in [17:8] (R228). -/
def packetResult (ty : Byte) (valid : Bool) : Word :=
  0#14 ++ ty ++ BitVec.ofBool valid ++ 1#1 ++ 0#8

/-- What pushing a bit leaves and returns. -/
structure Pushed where
  state : State
  result : Word

/-- The state with the framer at this position. -/
def setPosition (byteOff : BitVec 16) (bitOff : BitVec 3) (s : State) : State :=
  s.setRegs { s.regs with byteOff := byteOff, bitOff := bitOff }

/-- The part of `PushBit` after a byte is full and `byte_off` has become `n` with `bit_off` = 0 (R221). -/
def byteFilled (n : BitVec 16) (s : State) : Pushed :=
  if n.toNat < 2 then { state := setPosition n 0#3 s, result := 0#32 }
  else if n.toNat < target s.params (pbufRead s 1) then { state := setPosition n 0#3 s, result := 0#32 }
  else
    let v := validate (target s.params (pbufRead s 1)) s
    { state := setPosition 0#16 0#3 v.state, result := packetResult (pbufRead s 1) v.valid }

/-- `PushBit(b)`, the one operation of FRM (R221). -/
def pushBit (b : Bool) (s : State) : Pushed :=
  let s1 := pbufWriteBit s.regs.byteOff.toNat s.regs.bitOff.toNat b s
  if s.regs.bitOff.toNat + 1 < 8 then
    { state := setPosition s.regs.byteOff (s.regs.bitOff + 1#3) s1, result := 0#32 }
  else byteFilled (s.regs.byteOff + 1#16) s1

/-- `byte_off` is inside PBUF, as R221 says it always is between commands. -/
def positionInside (s : State) : Bool := decide (s.regs.byteOff.toNat < s.params.pktMax)

/-- `FRM.CLEAR` (R225). -/
def execFrmClear (s : State) : Result := .next (respond 0#32 (setPosition 0#16 0#3 s))

/-- `FRM.BIT b` (R226). -/
def execFrmBit (b : Bool) (s : State) : Result :=
  if positionInside s then .next (respond (pushBit b s).result (pushBit b s).state)
  else .fault .positionOutsideBuffer

/-- `FRM.RD i` (R227). -/
def execFrmRd (i : BitVec 16) (s : State) : Result :=
  if pbufIndexLegal s.params i = false then .next (raiseFault .errIdx (opcode (.frmRd i)) s)
  else .next (respond (zext8 (pbufRead s i.toNat)) s)

end Sys2Proof.Machine
end

