-- ==== Sys2Proof/Machine/Demodulator.lean ====
section
/-! DEFINITION. The demodulator: the five steps of a sample (spec/42_demodulator.md R170 to R180) and the commands
`DEM.INIT`, `DEM.HALT`, `DEM.SAMPLE` (R162, R165, R170). -/

namespace Sys2Proof.Machine

open Sys2Proof

/-- The exact sum of `f 0` to `f (n - 1)`. -/
def sumBelow (f : Nat → Int) : Nat → Int
  | 0 => 0
  | n + 1 => sumBelow f n + f n

/-- `W`, the window length (R48). -/
def windowLength (s : State) : Nat := s.regs.demWindow.toNat

/-- Every `MemRead` and `MemWrite` of a sample is inside WIN and FT, and `mod W` is defined. R71 says this always
holds when DEM is READY. -/
def windowInside (s : State) : Bool :=
  decide (1 ≤ windowLength s) && decide (windowLength s ≤ s.params.wmax) &&
    decide (s.regs.wrPtr.toNat < s.params.wmax)

/-- Step 1 (R171): the sample replaces the oldest at `wr_ptr`, which moves on modulo `W`. -/
def shiftWindow (v : Half) (s : State) : State :=
  (winWrite s.regs.wrPtr.toNat v s).setRegs
    { s.regs with wrPtr := BitVec.ofNat 8 ((s.regs.wrPtr.toNat + 1) % windowLength s) }

/-- The `j`-th oldest sample of the window, once `wr_ptr` points at the oldest (R172). -/
def windowSample (s : State) (j : Nat) : Int :=
  sext16 (winRead s ((s.regs.wrPtr.toNat + j) % windowLength s))

/-- Step 2 (R172): `acc[t]`, the correlation of the window with table `t`, oldest sample first; exact. -/
def correlation (s : State) (t : Nat) : Int :=
  sumBelow (fun j => windowSample s j * sext16 (ftRead s t j)) (windowLength s)

/-- Step 2 (R173): `E_lo`. -/
def energyLow (s : State) : Int := correlation s 0 * correlation s 0 + correlation s 1 * correlation s 1

/-- Step 2 (R173): `E_hi`. -/
def energyHigh (s : State) : Int := correlation s 2 * correlation s 2 + correlation s 3 * correlation s 3

/-- Step 2 (R173): the tone decision, 1 when `D = E_hi - E_lo` is above 0; a tie gives 0. -/
def toneDecision (s : State) : Bool := decide (0 < energyHigh s - energyLow s)

/-- Step 3 (R175): the run length, 0 on a transition and else one more, stopping at 0xFFFFFFFF. -/
def nextRunLength (trans : Bool) (n : Word) : Word :=
  if trans then 0#32 else if n = 0xFFFFFFFF#32 then n else n + 1#32

/-- Step 4 (R177): on a transition the advanced phase moves by `adj` toward 1/2. -/
def nudge (trans : Bool) (phase adj : Word) : Word :=
  if trans then if phase.ult 0x80000000#32 then phase + adj else phase - adj else phase

/-- What the five steps of a sample leave and decide. -/
structure Demodulated where
  state : State
  dec : Bool
  trans : Bool
  wrapped : Bool

/-- Steps 1 to 4 of a sample, and whether the phase wrapped (R170 to R177). -/
def demodulate (v : Half) (s : State) : Demodulated :=
  let s1 := shiftWindow v s
  let dec := toneDecision s1
  let trans := dec != s.regs.prevDec
  { state := s1.setRegs { s1.regs with
      prevDec := dec
      demRunlen := nextRunLength trans s.regs.demRunlen
      demPhase := nudge trans (sumLow s.regs.demPhase s.regs.demPllInc) s.regs.demPllAdj }
    dec := dec
    trans := trans
    wrapped := sumCarry s.regs.demPhase s.regs.demPllInc }

/-- The response of `DEM.SAMPLE` (R178, R179); `pkt` is bits [17:8] of a chained push's result, else 0 (R180). -/
def demResponse (pkt : BitVec 10) (lockloss : Bool) (d : Demodulated) : Word :=
  0#14 ++ pkt ++ 0#3 ++ BitVec.ofBool lockloss ++ BitVec.ofBool d.dec ++ BitVec.ofBool d.trans ++
    BitVec.ofBool d.wrapped ++ BitVec.ofBool (d.wrapped && d.dec)

/-- Step 5 without a push: `CHAIN` = 0, or no bit is emitted (R178, R180). -/
def emitUnchained (d : Demodulated) : Result :=
  .next (respond (demResponse 0#10 (lockLoss d.state.regs) d) d.state)

/-- Step 5 with a push: the emitted bit goes into FRM within the same command (R180). -/
def emitChained (d : Demodulated) : Result :=
  if positionInside d.state then
    .next (respond (demResponse ((pushBit d.dec d.state).result.extractLsb' 8 10) (lockLoss d.state.regs) d)
      (pushBit d.dec d.state).state)
  else .fault .positionOutsideBuffer

/-- `DEM.INIT` (R162): the configuration must be legal (R164). -/
def execDemInit (s : State) : Result :=
  if demConfigLegal s.params s.regs then
    .next (respond 0#32
      { s with
        win := zeroWindow s.params.wmax
        regs := { s.regs with
          wrPtr := 0#8, demPhase := 0#32, prevDec := false, demRunlen := 0#32, demReady := true } })
  else .next (raiseFault .errCfg (opcode .demInit) s)

/-- `DEM.HALT` (R165). -/
def execDemHalt (s : State) : Result :=
  .next (respond 0#32 (s.setRegs { s.regs with demReady := false }))

/-- `DEM.SAMPLE v` (R170). -/
def execDemSample (v : Half) (s : State) : Result :=
  if s.regs.demReady = false then .next (raiseFault .errState (opcode (.demSample v)) s)
  else if windowInside s = false then .fault .windowOutsideStorage
  else if (demodulate v s).wrapped && s.regs.chain then emitChained (demodulate v s)
  else emitUnchained (demodulate v s)

end Sys2Proof.Machine
end

