-- ==== Sys2Proof/Machine/Modulator.lean ====
section
/-! DEFINITION. The modulator: poll, look up, advance (spec/43_modulator.md R205 to R210) and the commands `MOD.INIT`,
`MOD.HALT`, `MOD.SAMPLE` (R201, R203, R205). -/

namespace Sys2Proof.Machine

open Sys2Proof

/-- The bit this sample sends: the operand when MOD polls, else the bit it has (R206). -/
def polledBit (b : Bool) (r : Regs) : Bool := if r.needBit then b else r.curBit

/-- `MOD_PHASE[31 : 32 - COS_BITS]`, the index looked up (R207). -/
def cosIndex (p : Params) (phase : Word) : Nat := phase.toNat / 2 ^ (32 - p.cosBits)

/-- The tone increment of a bit (R208). -/
def toneIncrement (bit : Bool) (r : Regs) : Word := if bit then r.modIncHi else r.modIncLo

/-- The response of `MOD.SAMPLE` (R210). -/
def modResponse (sample : Half) (polled : Bool) : Word := 0#15 ++ BitVec.ofBool polled ++ sample

/-- MOD's registers after a sample (R205): the bit, the tone phase advanced by its increment (R208), the baud
fraction advanced (R209), and `need_bit` set exactly when the baud fraction wrapped. -/
def modAdvance (b : Bool) (r : Regs) : Regs :=
  { r with
    curBit := polledBit b r
    needBit := sumCarry r.modBaud r.modBaudInc
    modPhase := r.modPhase + toneIncrement (polledBit b r) r
    modBaud := sumLow r.modBaud r.modBaudInc }

/-- `MOD.INIT` (R201). -/
def execModInit (s : State) : Result :=
  if modConfigLegal s.regs then
    .next (respond 0#32 (s.setRegs
      { s.regs with modPhase := 0#32, modBaud := 0#32, curBit := false, needBit := true, modReady := true }))
  else .next (raiseFault .errCfg (opcode .modInit) s)

/-- `MOD.HALT` (R203). -/
def execModHalt (s : State) : Result :=
  .next (respond 0#32 (s.setRegs { s.regs with modReady := false }))

/-- `MOD.SAMPLE b` (R205): the sample is looked up before the phase advances (R207). -/
def execModSample (b : Bool) (s : State) : Result :=
  if s.regs.modReady = false then .next (raiseFault .errState (opcode (.modSample b)) s)
  else
    .next (respond (modResponse (ctRead s (cosIndex s.params s.regs.modPhase)) s.regs.needBit)
      (s.setRegs (modAdvance b s.regs)))

end Sys2Proof.Machine
end

