-- ==== Sys2Proof/Machine/System.lean ====
section
/-! DEFINITION. The registers as words, the system commands (spec/40_system.md R121 to R124), a word that is no command
(spec/30_encoding.md R97, R98), the power-on reset input (spec/70_reset_and_hazards.md R300) and waiting for the host
(R321). -/

namespace Sys2Proof.Machine

open Sys2Proof

/-- `csr[idx]`: the register's value with its computed fields evaluated now (R40, R122). -/
def csrRead (c : Csr) (s : State) : Word :=
  match c with
  | .id => s.params.idValue
  | .param0 => param0Word s.params
  | .param1 => param1Word s.params
  | .hashseed => s.params.hashSeed
  | .status => statusWord s.regs
  | .ctrl => ctrlWord s.regs
  | .lasterr => lastErrWord s.regs
  | .demWindow => s.regs.demWindow
  | .demPllInc => s.regs.demPllInc
  | .demPllAdj => s.regs.demPllAdj
  | .demRunmax => s.regs.demRunmax
  | .demPhase => s.regs.demPhase
  | .demRunlen => s.regs.demRunlen
  | .demState => demStateWord s.regs
  | .modIncLo => s.regs.modIncLo
  | .modIncHi => s.regs.modIncHi
  | .modBaudInc => s.regs.modBaudInc
  | .modPhase => s.regs.modPhase
  | .modBaud => s.regs.modBaud
  | .modState => modStateWord s.regs
  | .frmPos => frmPosWord s.regs

/-- The registers after a `CSRW` that passed its checks (R123). A read-only register never comes here. -/
def csrWrite (c : Csr) (v : Word) (r : Regs) : Regs :=
  match c with
  | .id => r
  | .param0 => r
  | .param1 => r
  | .hashseed => r
  | .status => { r with sticky := clearSticky r.sticky v }
  | .ctrl => { r with chain := v.getLsbD 0 }
  | .lasterr => r
  | .demWindow => { r with demWindow := v }
  | .demPllInc => { r with demPllInc := v }
  | .demPllAdj => { r with demPllAdj := v }
  | .demRunmax => { r with demRunmax := v }
  | .demPhase => { r with demPhase := v }
  | .demRunlen => r
  | .demState => r
  | .modIncLo => { r with modIncLo := v }
  | .modIncHi => { r with modIncHi := v }
  | .modBaudInc => { r with modBaudInc := v }
  | .modPhase => r
  | .modBaud => r
  | .modState => r
  | .frmPos => r

/-- `NOP` (R121). -/
def execNop (s : State) : Result := .next (respond 0#32 s)

/-- `CSRR idx` (R122). -/
def execCsrr (idx : BitVec 16) (s : State) : Result :=
  match csrOfIndex idx with
  | none => .next (raiseFault .errIdx (opcode (.csrr idx)) s)
  | some c => .next (respond (csrRead c s) s)

/-- `CSRW idx, data`: index, then access, then the lock, then the write (R123, R273). -/
def execCsrw (idx : BitVec 16) (data : Word) (s : State) : Result :=
  match csrOfIndex idx with
  | none => .next (raiseFault .errIdx (opcode (.csrw idx data)) s)
  | some c =>
    if csrAccess c = .ro then .next (raiseFault .errAccess (opcode (.csrw idx data)) s)
    else if locked (csrAccess c) s.regs then .next (raiseFault .errState (opcode (.csrw idx data)) s)
    else .next (respond 0#32 (s.setRegs (csrWrite c data s.regs)))

/-- `SYS.RESET`: every register to its reset value, the storages as they were (R124). -/
def execSysReset (s : State) : Result := .next (respond 0#32 (s.setRegs Regs.reset))

/-- A word that is no command faults with `ERR_OP`; `LASTERR` takes its opcode byte, legal or not (R47, R97, R98). -/
def execIllegal (w : CommandWord) (s : State) : Result := .next (raiseFault .errOp (opField w) s)

/-- The power-on reset input: registers at their reset values, the storages' contents unspecified anew, no response
(R300, R301, log entry 13). The host's later inputs stay waiting. -/
def powerOnReset (s : State) : Result :=
  .next { State.resetWith s.params (s.powerOns + 1) with inbox := s.inbox }

/-- No input waits: the block holds its state (R321, log entry 2). -/
def idle (s : State) : Result := .next s

end Sys2Proof.Machine
end

