-- ==== Sys2Proof/Machine/Tables.lean ====
section
/-! DEFINITION. The table commands (spec/41_tables.md R140 to R143): index first, then the lock (R273). -/

namespace Sys2Proof.Machine

open Sys2Proof

/-- `FT.WR t, i, value` (R140). -/
def execFtWr (zero : BitVec 6) (t : BitVec 2) (i : BitVec 8) (value : Half) (s : State) : Result :=
  if ftIndexLegal s.params zero i = false then
    .next (raiseFault .errIdx (opcode (.ftWr zero t i value)) s)
  else if s.regs.demReady then .next (raiseFault .errState (opcode (.ftWr zero t i value)) s)
  else .next (respond 0#32 (ftWrite t.toNat i.toNat value s))

/-- `FT.RD t, i` (R141). -/
def execFtRd (zero : BitVec 6) (t : BitVec 2) (i : BitVec 8) (s : State) : Result :=
  if ftIndexLegal s.params zero i = false then .next (raiseFault .errIdx (opcode (.ftRd zero t i)) s)
  else .next (respond (zext16 (ftRead s t.toNat i.toNat)) s)

/-- `CT.WR k, value` (R142). -/
def execCtWr (k : BitVec 16) (value : Half) (s : State) : Result :=
  if ctIndexLegal s.params k = false then .next (raiseFault .errIdx (opcode (.ctWr k value)) s)
  else if s.regs.modReady then .next (raiseFault .errState (opcode (.ctWr k value)) s)
  else .next (respond 0#32 (ctWrite k.toNat value s))

/-- `CT.RD k` (R143). -/
def execCtRd (k : BitVec 16) (s : State) : Result :=
  if ctIndexLegal s.params k = false then .next (raiseFault .errIdx (opcode (.ctRd k)) s)
  else .next (respond (zext16 (ctRead s k.toNat)) s)

end Sys2Proof.Machine
end

