-- ==== Sys2Proof/Machine/Dispatch.lean ====
section
/-! DEFINITION. One arm per command: the meaning of each is one definition of Machine/<Family>.lean. -/

namespace Sys2Proof.Machine

open Sys2Proof

-- The meaning of a command in a state.
def exec (i : Instr) (s : State) : Host.Outcome State Fault Refusal :=
  match i with
  | .nop => Sys2Proof.Machine.execNop s
  | .csrr idx => Sys2Proof.Machine.execCsrr idx s
  | .csrw idx data => Sys2Proof.Machine.execCsrw idx data s
  | .sysReset => Sys2Proof.Machine.execSysReset s
  | .ftWr zero t e value => Sys2Proof.Machine.execFtWr zero t e value s
  | .ftRd zero t e => Sys2Proof.Machine.execFtRd zero t e s
  | .ctWr k value => Sys2Proof.Machine.execCtWr k value s
  | .ctRd k => Sys2Proof.Machine.execCtRd k s
  | .demInit => Sys2Proof.Machine.execDemInit s
  | .demHalt => Sys2Proof.Machine.execDemHalt s
  | .demSample v => Sys2Proof.Machine.execDemSample v s
  | .modInit => Sys2Proof.Machine.execModInit s
  | .modHalt => Sys2Proof.Machine.execModHalt s
  | .modSample b => Sys2Proof.Machine.execModSample b s
  | .frmClear => Sys2Proof.Machine.execFrmClear s
  | .frmBit b => Sys2Proof.Machine.execFrmBit b s
  | .frmRd j => Sys2Proof.Machine.execFrmRd j s

end Sys2Proof.Machine
end

