-- ==== Sys2Proof/Machine/Step.lean ====
section
/-! DEFINITION. One step: the block takes the host's next input and runs it to its end (spec/00_scope.md R17, R20). -/

namespace Sys2Proof.Machine

open Sys2Proof

/-- A command word is decoded and run; a word that is no command faults with `ERR_OP` (R97, R98). -/
def runWord (w : CommandWord) (s : State) : Host.Outcome State Fault Refusal :=
  match decode w with
  | .ok i => exec i s
  | .error _ => execIllegal w s

/-- One input of the host, taken from the front of `inbox`; with none, the block holds its state (R321). -/
def step (s : State) : Host.Outcome State Fault Refusal :=
  match nextInput s with
  | none => idle s
  | some (.powerOn, rest) => powerOnReset rest
  | some (.command w, rest) => runWord w rest

/-- The state in which the next input is the table word `w` of `nbits` bits, every bit above them 0. -/
def State.withFetchWord (s : State) (nbits w : Nat) : State :=
  presentCommand (BitVec.ofNat 64 (w % 2 ^ nbits)) s

end Sys2Proof.Machine
end

