-- ==== Sys2Proof/Machine/Pseudo.lean ====
section
/-! DEFINITION. What the spec describes on the host's side of the command interface: the four pseudo-operations
(spec/30_encoding.md R110 to R113), the packet fields a host reads (spec/44_framer.md R231, R232), and the increments
a host derives from rates (spec/42_demodulator.md R163, spec/43_modulator.md R202). The hardware knows none of them. -/

namespace Sys2Proof.Machine

open Sys2Proof

/-- Commands in order, each run to its end before the next (spec/20_memory.md R80). -/
def runCommands : List Instr → State → Result
  | [], s => .next s
  | i :: rest, s =>
    match exec i s with
    | .next t => runCommands rest t
    | .fault r => .fault r
    | .refused r => .refused r

/-- What `DEM.BATCH` returns (R110). -/
inductive BatchResult where
  | fault (code : Byte) (unconsumed : Nat)
  | bit (b : Bool) (unconsumed : Nat)
  | noBitYet (unconsumed : Nat)
  deriving DecidableEq, Repr

/-- `unconsumed`, the number of samples a batch call did not consume (R110). -/
def BatchResult.unconsumed : BatchResult → Nat
  | .fault _ n => n
  | .bit _ n => n
  | .noBitYet n => n

/-- What the response to one sample says to the batch's loop, with `rest` samples after it (R110); none when the
loop goes on. -/
def batchVerdict (r : Response) (rest : Nat) : Option BatchResult :=
  if r.code ≠ 0#8 then some (.fault r.code (rest + 1))
  else if r.data.getLsbD 1 then some (.bit (r.data.getLsbD 0) rest)
  else none

/-- `DEM.BATCH`: `DEM.SAMPLE` for each sample until one faults or emits a bit (R110, R190). -/
def demBatch : List Half → State → Host.Outcome (State × BatchResult) Fault Refusal
  | [], s => .next (s, .noBitYet 0)
  | v :: rest, s =>
    match exec (.demSample v) s with
    | .fault r => .fault r
    | .refused r => .refused r
    | .next t =>
      match t.response.bind (fun r => batchVerdict r rest.length) with
      | some verdict => .next (t, verdict)
      | none => demBatch rest t

/-- The `FT.WR` commands of one table, entry 0 first (R111). -/
def ftRow (t : BitVec 2) (entries : List Half) : List Instr :=
  entries.mapIdx (fun i v => .ftWr 0#6 t (BitVec.ofNat 8 i) v)

/-- `FT.LOAD T0, T1, T2, T3, W` (R111). A table with fewer than `W` entries, an entry number above 255 or a `W` above
32 bits, of which R111 says nothing: DESIGN CHOICE (log entry 16). -/
def ftLoad (t0 t1 t2 t3 : List Half) (w : Nat) : List Instr :=
  .csrw (csrIndex .demWindow) (BitVec.ofNat 32 w) ::
    (ftRow 0#2 (t0.take w) ++ ftRow 1#2 (t1.take w) ++ ftRow 2#2 (t2.take w) ++ ftRow 3#2 (t3.take w))

/-- `CT.LOAD C` (R112). A table with other than `COSLEN` entries, of which R112 says nothing: DESIGN CHOICE (log
entry 16). -/
def ctLoad (entries : List Half) : List Instr :=
  entries.mapIdx (fun k v => .ctWr (BitVec.ofNat 16 k) v)

/-- `FRM.BYTE v`: the eight bits of the byte, bit 0 first (R113). -/
def frmByte (v : Byte) : List Instr :=
  (List.range 8).map (fun k => .frmBit (v.getLsbD k))

/-- The fields of a control packet in PBUF, by R231's offsets. -/
structure CtrlPacket where
  version : Byte
  type : Byte
  reserved : Byte
  length : Word
  fullhash : Word
  guid : List Byte
  hash : Word
  deriving DecidableEq, Repr

/-- The control packet PBUF holds (R231). -/
def readCtrlPacket (s : State) : CtrlPacket where
  version := pbufRead s 0
  type := pbufRead s 1
  reserved := pbufRead s 2
  length := pbufWord s 3
  fullhash := pbufWord s 7
  guid := pbufBytes s 11 16
  hash := pbufWord s 27

/-- The fields of a data packet in PBUF, by R232's offsets. -/
structure DataPacket where
  version : Byte
  type : Byte
  block : Word
  payload : List Byte
  hash : Word
  deriving DecidableEq, Repr

/-- The data packet PBUF holds (R232). -/
def readDataPacket (s : State) : DataPacket where
  version := pbufRead s 0
  type := pbufRead s 1
  block := pbufWord s 2
  payload := pbufBytes s 6 s.params.payloadLen
  hash := pbufWord s (6 + s.params.payloadLen)

/-- `rate · 2^32 / sampleRate` rounded to the nearest integer, as the host computes an increment (R163, R202). With a
sample rate of 0 there is no increment: "the host's division fails first" (R164), the division is "impossible" and
happens in the host (R202). The spec leaves open how that failure shows, which way a tie goes, rates that are no whole
numbers, and a result that does not fit its `u32` register: here the failure is `none`, a tie goes up, rates are whole
and the result is not narrowed, DESIGN CHOICE (log entry 14). -/
def rateIncrement (rate sampleRate : Nat) : Option Nat :=
  if sampleRate = 0 then none else some ((2 * rate * 2 ^ 32 + sampleRate) / (2 * sampleRate))

end Sys2Proof.Machine
end

