-- ==== Sys2Proof/Safety.lean ====
section
/-! DEFINITION. The terms the statements use: what holds of every state a run from reset can be in, what unspecified
storage contents can reach, and the spec's own tables written out a second time, from its words and not from the
model's functions: the bits a command uses, the registers' numbers and values, the order of the checks. -/

namespace Sys2Proof.Machine

open Sys2Proof

/-- Every entry of WIN has been written since the power-on reset. -/
def windowWritten (s : State) : Prop :=
  ∀ i, i < s.params.wmax → (storageGet s.win i).isSome = true

/-- Bit `k` of byte `i` of PBUF has been written since the power-on reset. -/
def pbufBitWritten (s : State) (i k : Nat) : Bool :=
  match storageGet s.pbuf i with
  | none => false
  | some e => e.written.getLsbD k

/-- Every bit of PBUF before the framer's position has been written since the power-on reset. -/
def candidateWritten (s : State) : Prop :=
  ∀ i k, k < 8 → 8 * i + k < 8 * s.regs.byteOff.toNat + s.regs.bitOff.toNat → pbufBitWritten s i k = true

/-- What a run from reset never leaves. -/
structure Invariant (s : State) : Prop where
  /-- The parameters keep their bounds (R11, R12). -/
  paramsLegal : s.params.Legal
  /-- The storages are in canonical form. -/
  memoryWf : Memory.wf s
  /-- While DEM is READY its configuration is legal: `DEM.INIT` checked it and the lock holds (R69, R162). -/
  demLegal : s.regs.demReady = true → demConfigLegal s.params s.regs = true
  /-- While DEM is READY `wr_ptr` is in `[0, W)` (R54). -/
  wrPtrInside : s.regs.demReady = true → s.regs.wrPtr.toNat < s.regs.demWindow.toNat
  /-- While DEM is READY no entry of WIN holds its power-on contents (R64). -/
  windowKnown : s.regs.demReady = true → windowWritten s
  /-- While MOD is READY its configuration is legal (R69, R201). -/
  modLegal : s.regs.modReady = true → modConfigLegal s.regs = true
  /-- `byte_off` is in `[0, PKT_MAX)` (R61). -/
  byteOffInside : s.regs.byteOff.toNat < s.params.pktMax
  /-- Once the type byte is in, `byte_off` is below the candidate's length (R221). -/
  beforeTarget : 2 ≤ s.regs.byteOff.toNat → s.regs.byteOff.toNat < target s.params (pbufRead s 1)
  /-- Every bit of the current accumulation has been written (R65). -/
  candidateKnown : candidateWritten s
  /-- `LASTERR[7:0]` is 0 or a fault code (R47, R271). -/
  lastErrLegal : s.regs.lastErrCode.toNat ≤ 5
  /-- The response code is one of R93's. -/
  responseLegal : ∀ r, s.response = some r → r.code.toNat ≤ 5

/-- Some FT entry that `DEM.SAMPLE` reads has never been written (R302). -/
def filterUnwritten (s : State) : Prop :=
  ∃ t i, t < 4 ∧ i < s.regs.demWindow.toNat ∧ storageGet s.ft (ftKey t i) = none

/-- Byte `i` of PBUF has a bit that has never been written. -/
def pbufByteUnwritten (s : State) (i : Nat) : Prop :=
  ∃ k, k < 8 ∧ pbufBitWritten s i k = false

/-- R302's list: the commands whose result unspecified power-on contents can reach, in a state. -/
def readsUnspecified (i : Instr) (s : State) : Prop :=
  match i with
  | .nop => False
  | .csrr _ => False
  | .csrw _ _ => False
  | .sysReset => False
  | .ftWr _ _ _ _ => False
  | .ftRd _ t e => storageGet s.ft (ftKey t.toNat e.toNat) = none
  | .ctWr _ _ => False
  | .ctRd k => storageGet s.ct k.toNat = none
  | .demInit => False
  | .demHalt => False
  | .demSample _ => filterUnwritten s
  | .modInit => False
  | .modHalt => False
  | .modSample _ => storageGet s.ct (cosIndex s.params s.regs.modPhase) = none
  | .frmClear => False
  | .frmBit _ => False
  | .frmRd j => pbufByteUnwritten s j.toNat

/-- An executed command's response with this data (R92). -/
def okWith (data : Nat) : Option Response := some { code := 0#8, data := BitVec.ofNat 32 data }

/-- What `raise Fault(code)` leaves for a command whose opcode byte is `op` (R272): `STATUS[7 + code]` set, `LASTERR`
written, the response with data 0, and nothing else. -/
def faultRecorded (code : Nat) (op : Byte) (s : State) : State :=
  { s with
    regs := { s.regs with
      sticky := s.regs.sticky ||| 1#5 <<< (code - 1)
      lastErrCode := BitVec.ofNat 8 code
      lastErrOp := op }
    response := some { code := BitVec.ofNat 8 code, data := 0#32 } }

/-- A word with this opcode and with `rsv` not 0 faults with `ERR_OP` (R98). -/
def refusesReserved (op : Byte) (s : State) : Prop :=
  ∀ w : CommandWord, w.extractLsb' 56 8 = op → w.extractLsb' 48 8 ≠ 0#8 →
    runWord w s = .next (faultRecorded 1 op s)

/-- A word with this opcode, `rsv` 0 and these operands runs as command `i`, whatever its other bits (R90, R91). -/
def carriedBy (op : Byte) (operands : CommandWord → Prop) (i : Instr) (s : State) : Prop :=
  ∀ w : CommandWord, w.extractLsb' 56 8 = op → w.extractLsb' 48 8 = 0#8 → operands w → runWord w s = exec i s

/-- The seventeen opcodes of R96. -/
def legalOpcodes : List Byte :=
  [0x00#8, 0x01#8, 0x02#8, 0x03#8, 0x10#8, 0x11#8, 0x12#8, 0x13#8, 0x20#8, 0x21#8, 0x22#8, 0x30#8, 0x31#8, 0x32#8,
    0x40#8, 0x41#8, 0x42#8]

/-- The bits of a command word that a command with this opcode uses: `op` and `rsv` always, and the fields of R96's
column "uses". -/
def usedBits (op : Byte) : CommandWord :=
  if op ∈ [0x01#8, 0x11#8, 0x13#8, 0x42#8] then 0xFFFFFFFF00000000#64
  else if op = 0x02#8 then 0xFFFFFFFFFFFFFFFF#64
  else if op ∈ [0x10#8, 0x12#8] then 0xFFFFFFFF0000FFFF#64
  else if op = 0x22#8 then 0xFFFF00000000FFFF#64
  else if op ∈ [0x32#8, 0x41#8] then 0xFFFF000000000001#64
  else 0xFFFF000000000000#64

/-- The registers' numbers (R40). -/
def csrNumbers : List (BitVec 16) :=
  [0x0000#16, 0x0001#16, 0x0002#16, 0x0003#16, 0x0004#16, 0x0005#16, 0x0006#16, 0x0010#16, 0x0011#16, 0x0012#16,
    0x0013#16, 0x0014#16, 0x0015#16, 0x0016#16, 0x0020#16, 0x0021#16, 0x0022#16, 0x0023#16, 0x0024#16, 0x0025#16,
    0x0030#16]

/-- The numbers of the read-only registers (R40, R123). -/
def readOnlyNumbers : List (BitVec 16) :=
  [0x0000#16, 0x0001#16, 0x0002#16, 0x0003#16, 0x0006#16, 0x0015#16, 0x0016#16, 0x0023#16, 0x0024#16, 0x0025#16,
    0x0030#16]

/-- The numbers of the registers locked while DEM is READY (R40, R69). -/
def demLockedNumbers : List (BitVec 16) := [0x0010#16, 0x0011#16, 0x0012#16]

/-- The numbers of the registers locked while MOD is READY (R40, R69). -/
def modLockedNumbers : List (BitVec 16) := [0x0020#16, 0x0021#16, 0x0022#16]

/-- Each register's number and the value it reads as, as a number put together from its fields' places (R41 to R61). -/
def csrView (s : State) : List (BitVec 16 × Nat) :=
  [(0x0000#16, s.params.idValue.toNat),
    (0x0001#16, s.params.wmax + 2 ^ 8 * s.params.cosBits + 2 ^ 16 * s.params.pktMax),
    (0x0002#16, 31 + 2 ^ 16 * (10 + s.params.payloadLen)),
    (0x0003#16, s.params.hashSeed.toNat),
    (0x0004#16, s.regs.demReady.toNat + 2 * s.regs.modReady.toNat +
      (if s.regs.demRunmax.toNat < s.regs.demRunlen.toNat then 4 else 0) + 2 ^ 8 * s.regs.sticky.toNat),
    (0x0005#16, s.regs.chain.toNat),
    (0x0006#16, s.regs.lastErrCode.toNat + 2 ^ 8 * s.regs.lastErrOp.toNat),
    (0x0010#16, s.regs.demWindow.toNat),
    (0x0011#16, s.regs.demPllInc.toNat),
    (0x0012#16, s.regs.demPllAdj.toNat),
    (0x0013#16, s.regs.demRunmax.toNat),
    (0x0014#16, s.regs.demPhase.toNat),
    (0x0015#16, s.regs.demRunlen.toNat),
    (0x0016#16, s.regs.prevDec.toNat + 2 ^ 8 * s.regs.wrPtr.toNat),
    (0x0020#16, s.regs.modIncLo.toNat),
    (0x0021#16, s.regs.modIncHi.toNat),
    (0x0022#16, s.regs.modBaudInc.toNat),
    (0x0023#16, s.regs.modPhase.toNat),
    (0x0024#16, s.regs.modBaud.toNat),
    (0x0025#16, s.regs.curBit.toNat + 2 * s.regs.needBit.toNat),
    (0x0030#16, s.regs.byteOff.toNat + 2 ^ 16 * s.regs.bitOff.toNat)]

/-- Each register's value after either reset, by number (R40's table, R67): the constant registers from the
parameters, `DEM_RUNMAX` all ones, `MOD_STATE` 2, every other 0. -/
def csrViewAtReset (p : Params) : List (BitVec 16 × Nat) :=
  [(0x0000#16, p.idValue.toNat),
    (0x0001#16, p.wmax + 2 ^ 8 * p.cosBits + 2 ^ 16 * p.pktMax),
    (0x0002#16, 31 + 2 ^ 16 * (10 + p.payloadLen)),
    (0x0003#16, p.hashSeed.toNat),
    (0x0004#16, 0), (0x0005#16, 0), (0x0006#16, 0), (0x0010#16, 0), (0x0011#16, 0), (0x0012#16, 0),
    (0x0013#16, 0xFFFFFFFF), (0x0014#16, 0), (0x0015#16, 0), (0x0016#16, 0), (0x0020#16, 0), (0x0021#16, 0),
    (0x0022#16, 0), (0x0023#16, 0), (0x0024#16, 0), (0x0025#16, 2), (0x0030#16, 0)]

/-- Check 2 of R273: the index operand is out of range for the command (R271's row `ERR_IDX`). -/
abbrev indexOutOfRange (op : Byte) (idx : BitVec 16) (p : Params) : Prop :=
  (op ∈ [0x01#8, 0x02#8] ∧ idx ∉ csrNumbers) ∨
    (op ∈ [0x10#8, 0x11#8] ∧ (idx.extractLsb' 10 6 ≠ 0#6 ∨ p.wmax ≤ (idx.extractLsb' 0 8).toNat)) ∨
    (op ∈ [0x12#8, 0x13#8] ∧ p.coslen ≤ idx.toNat) ∨
    (op = 0x42#8 ∧ p.pktMax ≤ idx.toNat)

/-- Check 4 of R273: the unit is in the wrong state for the command (R271's row `ERR_STATE`). -/
abbrev stateWrong (op : Byte) (idx : BitVec 16) (r : Regs) : Prop :=
  (op = 0x22#8 ∧ r.demReady = false) ∨ (op = 0x32#8 ∧ r.modReady = false) ∨
    (op = 0x10#8 ∧ r.demReady = true) ∨ (op = 0x12#8 ∧ r.modReady = true) ∨
    (op = 0x02#8 ∧ idx ∈ demLockedNumbers ∧ r.demReady = true) ∨
    (op = 0x02#8 ∧ idx ∈ modLockedNumbers ∧ r.modReady = true)

/-- Check 5 of R273: the configuration is illegal at an `INIT` (R271's row `ERR_CFG`). -/
abbrev configIllegal (op : Byte) (p : Params) (r : Regs) : Prop :=
  (op = 0x20#8 ∧ (r.demWindow.toNat = 0 ∨ p.wmax < r.demWindow.toNat ∨ r.demPllInc.toNat = 0 ∨
      0x80000000 ≤ r.demPllAdj.toNat)) ∨
    (op = 0x30#8 ∧ r.modBaudInc.toNat = 0)

/-- The code a word is answered with: the first of R273's five checks that fails, or 0 when none does. -/
def expectedCode (w : CommandWord) (s : State) : Nat :=
  let op := w.extractLsb' 56 8
  let idx := w.extractLsb' 32 16
  if op ∉ legalOpcodes ∨ w.extractLsb' 48 8 ≠ 0#8 then 1
  else if indexOutOfRange op idx s.params then 2
  else if op = 0x02#8 ∧ idx ∈ readOnlyNumbers then 3
  else if stateWrong op idx s.regs then 4
  else if configIllegal op s.params s.regs then 5
  else 0

end Sys2Proof.Machine
end

