-- ==== Sys2Proof/Certificates/Slice0/Obligations.lean ====
section
/-! DEFINITION. The statements for the provers, each from the rules of spec/. A frame is written as
`t = { s with f := t.f, … }`: every field that is not named is as it was, the storages among them. -/

open Sys2Proof Sys2Proof.Machine

/-! ### Encoding and decoding -/

/-- Every command decodes from its canonical word, with every operand at every value of its field (R90, R94 to R96). -/
def Obligations.DecodeOfEncodeIsTheCommand : Prop :=
  ∀ i : Instr, decode (encode i) = .ok i

/-- R91: the canonical word of a decoded word has every ignored bit 0 and every used bit as it was, and a word that
agrees in the used bits decodes to the same command. -/
def Obligations.IgnoredBitsHaveNoEffect : Prop :=
  ∀ (w : CommandWord) (i : Instr), decode w = .ok i →
    encode i = w &&& usedBits (w.extractLsb' 56 8) ∧
    ∀ w' : CommandWord, w' &&& usedBits (w.extractLsb' 56 8) = w &&& usedBits (w.extractLsb' 56 8) →
      decode w' = .ok i

/-- R97, R98: a word whose opcode is not in the table, or whose `rsv` is not 0, faults with `ERR_OP` and does nothing
else; every other word is a command. -/
def Obligations.IllegalWordFaultsWithErrOp : Prop :=
  ∀ (w : CommandWord) (s : State) (rest : List HostInput), s.inbox = .command w :: rest →
    (w.extractLsb' 56 8 ∉ legalOpcodes ∨ w.extractLsb' 48 8 ≠ 0#8 →
      step s = .next (faultRecorded 1 (w.extractLsb' 56 8) { s with inbox := rest })) ∧
    (w.extractLsb' 56 8 ∈ legalOpcodes → w.extractLsb' 48 8 = 0#8 →
      ∃ i, decode w = .ok i ∧ step s = exec i { s with inbox := rest })

/-- Words written out from R90's fields and R96's opcodes decode to the commands they stand for; four are R105's and
V11's own. -/
def Obligations.WrittenOutWordsDecode : Prop :=
  decode 0x0000000000000000#64 = .ok .nop ∧
  decode 0x0100000400000000#64 = .ok (.csrr 4#16) ∧
  decode 0x0200001000000010#64 = .ok (.csrw 0x10#16 16#32) ∧
  decode 0x100003050000FFFF#64 = .ok (.ftWr 0#6 3#2 5#8 0xFFFF#16) ∧
  decode 0x1100043F00000000#64 = .ok (.ftRd 1#6 0#2 63#8) ∧
  decode 0x1200008000008001#64 = .ok (.ctWr 128#16 0x8001#16) ∧
  decode 0x220000000000FFFD#64 = .ok (.demSample 0xFFFD#16) ∧
  decode 0x3200000000000001#64 = .ok (.modSample true) ∧
  decode 0x4100000000000000#64 = .ok (.frmBit false) ∧
  decode 0x4200010900000000#64 = .ok (.frmRd 265#16)

/-! ### The step -/

/-- A step takes the host's next word and runs the command it decodes to, in the state without that word (R17, R80). -/
def Obligations.StepRunsTheDecodedCommand : Prop :=
  ∀ (s : State) (w : CommandWord) (rest : List HostInput) (i : Instr),
    s.inbox = .command w :: rest → decode w = .ok i → step s = exec i { s with inbox := rest }

/-- When the host presents nothing the block holds its state (R321; the inbox is the model's, log entries 1, 2). -/
def Obligations.StepWithoutInputHoldsTheState : Prop :=
  ∀ s : State, s.inbox = [] → step s = .next s

/-- The power-on reset input (R300, R301): every register at its reset value, every entry of the storages the next
power-on's free value, the parameters and the later inputs as they were. That it is an input of the step and clears
the response is the model's choice (log entry 13). -/
def Obligations.PowerOnInputResetsTheBlock : Prop :=
  ∀ (s : State) (rest : List HostInput), s.inbox = .powerOn :: rest →
    ∃ t, step s = .next t ∧ t.params = s.params ∧ t.inbox = rest ∧ t.powerOns = s.powerOns + 1 ∧
      t.response = none ∧ t.regs = Regs.reset ∧
      (∀ k i, ftRead t k i = Config.powerOnFt (s.powerOns + 1) k i) ∧
      (∀ k, ctRead t k = Config.powerOnCt (s.powerOns + 1) k) ∧
      (∀ i, winRead t i = Config.powerOnWin (s.powerOns + 1) i) ∧
      (∀ i, pbufRead t i = Config.powerOnPbuf (s.powerOns + 1) i)

/-! ### Reset -/

/-- R67: after a power-on reset and after `SYS.RESET` every register reads its reset value; after a power-on reset
every entry of a storage reads as an unconstrained value; `SYS.RESET` leaves the storages as they were (R124). The
values hold for every parameter of an instance, `HASH_SEED` among them. -/
def Obligations.ResetRegistersReadTheirResetValues : Prop :=
  (∀ (p : Params) (n : Nat), p.Legal →
    (∀ e ∈ csrViewAtReset p, exec (.csrr e.1) (State.resetWith p n) =
      .next { State.resetWith p n with response := okWith e.2 }) ∧
    (∀ k i, ftRead (State.resetWith p n) k i = Config.powerOnFt n k i) ∧
    (∀ k, ctRead (State.resetWith p n) k = Config.powerOnCt n k) ∧
    (∀ i, winRead (State.resetWith p n) i = Config.powerOnWin n i) ∧
    (∀ i, pbufRead (State.resetWith p n) i = Config.powerOnPbuf n i)) ∧
  (∀ s : State, s.params.Legal →
    ∃ t, exec .sysReset s = .next t ∧ t = { s with regs := t.regs, response := okWith 0 } ∧
      (∀ e ∈ csrViewAtReset s.params, exec (.csrr e.1) t = .next { t with response := okWith e.2 }) ∧
      t.regs = (State.resetWith s.params 0).regs ∧
      carriedBy 0x03#8 (fun _ => True) .sysReset s ∧ refusesReserved 0x03#8 s)

/-- The state after reset meets the invariant, for every instance and whatever the storages hold. -/
def Obligations.ResetMeetsTheInvariant : Prop :=
  ∀ (p : Params) (n : Nat), p.Legal → Invariant (State.resetWith p n)

/-! ### Invariants of every step -/

/-- Every step keeps the invariant: the storages' canonical form, the legal configuration of a READY unit (R69),
`wr_ptr` in `[0, W)` (R54), the framer's position (R61, R221), the written bits of the accumulation (R65), the codes (R93). -/
def Obligations.EveryStepKeepsTheInvariant : Prop :=
  ∀ s t : State, Invariant s → step s = .next t → Invariant t

/-- No step from the invariant stops: `MemRead` and `MemWrite` are never called outside a space (R71), and every
command is answered. -/
def Obligations.NoStepFromTheInvariantStops : Prop :=
  ∀ s : State, Invariant s → ∃ t, step s = .next t

/-- Whatever a host presents, in any number and order, is taken input by input and never stops the block (R25, R183). -/
def Obligations.EveryHostSequenceRunsToItsEnd : Prop :=
  ∀ (p : Params) (n : Nat) (inputs : List HostInput), p.Legal →
    ∃ t : State, Host.Core.run Sys2Proof.core inputs.length { State.resetWith p n with inbox := inputs } = .next t ∧
      t.inbox = [] ∧ Invariant t

/-- No command changes a parameter of the instance, so the constant registers read the same ever after: the seed is
fixed (R44), as are `ID`, `PARAM0` and `PARAM1` (R41 to R43). -/
def Obligations.ConstantRegistersNeverChange : Prop :=
  ∀ (i : Instr) (s t : State), exec i s = .next t →
    t.params = s.params ∧ t.powerOns = s.powerOns ∧ t.inbox = s.inbox ∧
    ∀ c ∈ [Csr.id, Csr.param0, Csr.param1, Csr.hashseed], csrRead c t = csrRead c s

/-! ### Faults -/

/-- R92, R272: every word is answered; one that is answered with a code other than `OK` has set its sticky bit and
`LASTERR` (whose upper half reads 0), answers data 0, and has changed nothing else. -/
def Obligations.FaultChangesOnlyTheErrorRecord : Prop :=
  ∀ (w : CommandWord) (s t : State), runWord w s = .next t →
    ∃ r, t.response = some r ∧ r.code.toNat ≤ 5 ∧
      (r.code ≠ 0#8 → r.data = 0#32 ∧ t = faultRecorded r.code.toNat (w.extractLsb' 56 8) s ∧
        exec (.csrr 0x0006#16) t =
          .next { t with response := okWith (r.code.toNat + 2 ^ 8 * (w.extractLsb' 56 8).toNat) })

/-- R273: the code a word is answered with is that of the first check that fails, in the order opcode and `rsv`, index,
access, unit state, configuration; 0 when none does. -/
def Obligations.FirstFailingCheckDecidesTheCode : Prop :=
  ∀ (w : CommandWord) (s t : State) (rest : List HostInput), s.inbox = .command w :: rest → step s = .next t →
    ∃ r, t.response = some r ∧ r.code.toNat = expectedCode w s

/-- R276: a fault sets its own sticky bit, keeps the others and overwrites `LASTERR`; no other answer sets a bit or
writes `LASTERR`; `CSRW STATUS` clears the bits it names and leaves `LASTERR`; `SYS.RESET` clears both. -/
def Obligations.ErrorRecordChangesOnlyByFaultsAndClears : Prop :=
  ∀ (i : Instr) (s t : State) (r : Response), exec i s = .next t → t.response = some r →
    (r.code ≠ 0#8 → t.regs.sticky = s.regs.sticky ||| 1#5 <<< (r.code.toNat - 1) ∧
      t.regs.lastErrCode = r.code ∧ t.regs.lastErrOp = opcode i) ∧
    (∀ v, i = .csrw 0x0004#16 v → r.code = 0#8 ∧ t.regs.lastErrCode = s.regs.lastErrCode ∧
      t.regs.lastErrOp = s.regs.lastErrOp ∧
      ∀ k, k < 5 → t.regs.sticky.getLsbD k = (s.regs.sticky.getLsbD k && !v.getLsbD (8 + k))) ∧
    (i = .sysReset → t.regs.sticky = 0#5 ∧ t.regs.lastErrCode = 0#8 ∧ t.regs.lastErrOp = 0#8) ∧
    (r.code = 0#8 → i ≠ .sysReset → (∀ v, i ≠ .csrw 0x0004#16 v) →
      t.regs.sticky = s.regs.sticky ∧ t.regs.lastErrCode = s.regs.lastErrCode ∧ t.regs.lastErrOp = s.regs.lastErrOp)

/-! ### System commands -/

/-- R121. -/
def Obligations.NopRespondsAndChangesNothing : Prop :=
  ∀ s : State, exec .nop s = .next { s with response := okWith 0 } ∧
    carriedBy 0x00#8 (fun _ => True) .nop s ∧ refusesReserved 0x00#8 s

/-- R122: every register of the map can be read in every state, as the word its fields make, and reading changes
nothing; an index that is not in the map faults with `ERR_IDX`. -/
def Obligations.CsrrReadsEveryRegister : Prop :=
  ∀ s : State, s.params.Legal →
    (∀ e ∈ csrView s, e.2 < 2 ^ 32 ∧ exec (.csrr e.1) s = .next { s with response := okWith e.2 }) ∧
    (∀ idx, idx ∉ csrNumbers → exec (.csrr idx) s = .next (faultRecorded 2 0x01#8 s)) ∧
    (∀ idx, carriedBy 0x01#8 (fun w => w.extractLsb' 32 16 = idx) (.csrr idx) s) ∧ refusesReserved 0x01#8 s

/-- R123: the checks in their order, and then exactly the named register takes the value; `CSRW STATUS` only clears. -/
def Obligations.CsrwWritesExactlyTheNamedRegister : Prop :=
  ∀ (s : State) (v : Word),
    (∀ idx, idx ∉ csrNumbers → exec (.csrw idx v) s = .next (faultRecorded 2 0x02#8 s)) ∧
    (∀ idx ∈ readOnlyNumbers, exec (.csrw idx v) s = .next (faultRecorded 3 0x02#8 s)) ∧
    (s.regs.demReady = true → ∀ idx ∈ demLockedNumbers, exec (.csrw idx v) s = .next (faultRecorded 4 0x02#8 s)) ∧
    (s.regs.modReady = true → ∀ idx ∈ modLockedNumbers, exec (.csrw idx v) s = .next (faultRecorded 4 0x02#8 s)) ∧
    (∃ t, exec (.csrw 0x0004#16 v) s = .next t ∧
      t = { s with regs := { s.regs with sticky := t.regs.sticky }, response := okWith 0 } ∧
      ∀ k, k < 5 → t.regs.sticky.getLsbD k = (s.regs.sticky.getLsbD k && !v.getLsbD (8 + k))) ∧
    exec (.csrw 0x0005#16 v) s =
      .next { s with regs := { s.regs with chain := v.getLsbD 0 }, response := okWith 0 } ∧
    (s.regs.demReady = false →
      exec (.csrw 0x0010#16 v) s = .next { s with regs := { s.regs with demWindow := v }, response := okWith 0 } ∧
      exec (.csrw 0x0011#16 v) s = .next { s with regs := { s.regs with demPllInc := v }, response := okWith 0 } ∧
      exec (.csrw 0x0012#16 v) s = .next { s with regs := { s.regs with demPllAdj := v }, response := okWith 0 }) ∧
    exec (.csrw 0x0013#16 v) s = .next { s with regs := { s.regs with demRunmax := v }, response := okWith 0 } ∧
    exec (.csrw 0x0014#16 v) s = .next { s with regs := { s.regs with demPhase := v }, response := okWith 0 } ∧
    (s.regs.modReady = false →
      exec (.csrw 0x0020#16 v) s = .next { s with regs := { s.regs with modIncLo := v }, response := okWith 0 } ∧
      exec (.csrw 0x0021#16 v) s = .next { s with regs := { s.regs with modIncHi := v }, response := okWith 0 } ∧
      exec (.csrw 0x0022#16 v) s = .next { s with regs := { s.regs with modBaudInc := v }, response := okWith 0 }) ∧
    (∀ idx, carriedBy 0x02#8 (fun w => w.extractLsb' 32 16 = idx ∧ w.extractLsb' 0 32 = v) (.csrw idx v) s) ∧
    refusesReserved 0x02#8 s

/-! ### Table commands -/

/-- R140: one entry of one table takes the value, every other entry and everything else is as it was; a bad index or,
after that, a READY demodulator is refused. -/
def Obligations.FtWrWritesOneEntry : Prop :=
  ∀ (s : State) (zero : BitVec 6) (k : BitVec 2) (i : BitVec 8) (v : Half),
    (zero ≠ 0#6 ∨ s.params.wmax ≤ i.toNat → exec (.ftWr zero k i v) s = .next (faultRecorded 2 0x10#8 s)) ∧
    (zero = 0#6 → i.toNat < s.params.wmax → s.regs.demReady = true →
      exec (.ftWr zero k i v) s = .next (faultRecorded 4 0x10#8 s)) ∧
    (zero = 0#6 → i.toNat < s.params.wmax → s.regs.demReady = false →
      ∃ t, exec (.ftWr zero k i v) s = .next t ∧ t = { s with ft := t.ft, response := okWith 0 } ∧
        ∀ k' i', i' < 256 →
          ftRead t k' i' = if k' = k.toNat ∧ i' = i.toNat then v else ftRead s k' i') ∧
    carriedBy 0x10#8 (fun w => w.extractLsb' 42 6 = zero ∧ w.extractLsb' 40 2 = k ∧ w.extractLsb' 32 8 = i ∧
      w.extractLsb' 0 16 = v) (.ftWr zero k i v) s ∧
    refusesReserved 0x10#8 s

/-- R141: the entry, zero-extended, in every state of DEM, and nothing changes. -/
def Obligations.FtRdReadsOneEntry : Prop :=
  ∀ (s : State) (zero : BitVec 6) (k : BitVec 2) (i : BitVec 8),
    (zero ≠ 0#6 ∨ s.params.wmax ≤ i.toNat → exec (.ftRd zero k i) s = .next (faultRecorded 2 0x11#8 s)) ∧
    (zero = 0#6 → i.toNat < s.params.wmax →
      exec (.ftRd zero k i) s = .next { s with response := okWith (ftRead s k.toNat i.toNat).toNat }) ∧
    carriedBy 0x11#8 (fun w => w.extractLsb' 42 6 = zero ∧ w.extractLsb' 40 2 = k ∧ w.extractLsb' 32 8 = i)
      (.ftRd zero k i) s ∧
    refusesReserved 0x11#8 s

/-- R142: one entry takes the value, every other entry and everything else is as it was; a bad index or, after that, a
READY modulator is refused. -/
def Obligations.CtWrWritesOneEntry : Prop :=
  ∀ (s : State) (k : BitVec 16) (v : Half),
    (s.params.coslen ≤ k.toNat → exec (.ctWr k v) s = .next (faultRecorded 2 0x12#8 s)) ∧
    (k.toNat < s.params.coslen → s.regs.modReady = true →
      exec (.ctWr k v) s = .next (faultRecorded 4 0x12#8 s)) ∧
    (k.toNat < s.params.coslen → s.regs.modReady = false →
      ∃ t, exec (.ctWr k v) s = .next t ∧ t = { s with ct := t.ct, response := okWith 0 } ∧
        ∀ k', ctRead t k' = if k' = k.toNat then v else ctRead s k') ∧
    carriedBy 0x12#8 (fun w => w.extractLsb' 32 16 = k ∧ w.extractLsb' 0 16 = v) (.ctWr k v) s ∧
    refusesReserved 0x12#8 s

/-- R143: the entry, zero-extended, in every state of MOD, and nothing changes. -/
def Obligations.CtRdReadsOneEntry : Prop :=
  ∀ (s : State) (k : BitVec 16),
    (s.params.coslen ≤ k.toNat → exec (.ctRd k) s = .next (faultRecorded 2 0x13#8 s)) ∧
    (k.toNat < s.params.coslen →
      exec (.ctRd k) s = .next { s with response := okWith (ctRead s k.toNat).toNat }) ∧
    carriedBy 0x13#8 (fun w => w.extractLsb' 32 16 = k) (.ctRd k) s ∧ refusesReserved 0x13#8 s

/-! ### The demodulator -/

/-- R162: with a legal configuration a session starts, whatever the unit's state: WIN all 0, `wr_ptr`, the phase, the
decision and the run length 0, and nothing else changes; with an illegal one, `ERR_CFG`. -/
def Obligations.DemInitStartsASession : Prop :=
  ∀ s : State,
    (1 ≤ s.regs.demWindow.toNat → s.regs.demWindow.toNat ≤ s.params.wmax → s.regs.demPllInc.toNat ≠ 0 →
      s.regs.demPllAdj.toNat < 0x80000000 →
      ∃ t, exec .demInit s = .next t ∧
        t = { s with
          win := t.win
          regs := { s.regs with
            wrPtr := 0#8, demPhase := 0#32, prevDec := false, demRunlen := 0#32, demReady := true }
          response := okWith 0 } ∧
        ∀ i, i < s.params.wmax → winRead t i = 0#16) ∧
    (s.regs.demWindow.toNat = 0 ∨ s.params.wmax < s.regs.demWindow.toNat ∨ s.regs.demPllInc.toNat = 0 ∨
      0x80000000 ≤ s.regs.demPllAdj.toNat → exec .demInit s = .next (faultRecorded 5 0x20#8 s)) ∧
    carriedBy 0x20#8 (fun _ => True) .demInit s ∧ refusesReserved 0x20#8 s

/-- R165, R203: a `HALT` clears its unit's READY bit and changes nothing else, in either state. -/
def Obligations.HaltOnlyClearsReady : Prop :=
  ∀ s : State,
    exec .demHalt s = .next { s with regs := { s.regs with demReady := false }, response := okWith 0 } ∧
    exec .modHalt s = .next { s with regs := { s.regs with modReady := false }, response := okWith 0 } ∧
    carriedBy 0x21#8 (fun _ => True) .demHalt s ∧ refusesReserved 0x21#8 s ∧
    carriedBy 0x31#8 (fun _ => True) .modHalt s ∧ refusesReserved 0x31#8 s

/-- R183: in READY every sample is answered `OK`; in IDLE every sample is refused with `ERR_STATE` (R170). The sample
is `data[15:0]` of the word, and its other bits are ignored. -/
def Obligations.DemSampleIsOkExactlyWhenReady : Prop :=
  ∀ (s : State) (v : Half), Invariant s →
    carriedBy 0x22#8 (fun w => w.extractLsb' 0 16 = v) (.demSample v) s ∧ refusesReserved 0x22#8 s ∧
    (s.regs.demReady = true → ∃ t r, exec (.demSample v) s = .next t ∧ t.response = some r ∧ r.code = 0#8) ∧
    (s.regs.demReady = false → exec (.demSample v) s = .next (faultRecorded 4 0x22#8 s))

/-- R170 to R179 for a sample that pushes nothing into FRM. The new sample replaces the entry at `wr_ptr`; the window,
oldest sample first, is correlated with the four tables by exact sums; the decision compares the energies; the phase
advances modulo 2^32 and on a transition moves by `DEM_PLL_ADJ` toward 1/2; a wrap emits the decision. -/
def Obligations.DemSampleFollowsTheFiveSteps : Prop :=
  ∀ (s : State) (v : Half), s.params.Legal → s.regs.demReady = true →
    1 ≤ s.regs.demWindow.toNat → s.regs.demWindow.toNat ≤ s.params.wmax → s.regs.wrPtr.toNat < s.params.wmax →
    s.regs.demPllAdj.toNat < 0x80000000 →
    (s.regs.chain = false ∨ s.regs.demPhase.toNat + s.regs.demPllInc.toNat < 2 ^ 32) →
    let w := s.regs.demWindow.toNat
    let wr := (s.regs.wrPtr.toNat + 1) % w
    let window : Nat → Int := fun i => if i = s.regs.wrPtr.toNat then v.toInt else (winRead s i).toInt
    let acc : Nat → Int := fun k => ∑ j ∈ Finset.range w, window ((wr + j) % w) * (ftRead s k j).toInt
    let dec := decide (acc 0 ^ 2 + acc 1 ^ 2 < acc 2 ^ 2 + acc 3 ^ 2)
    let trans := dec != s.regs.prevDec
    let total := s.regs.demPhase.toNat + s.regs.demPllInc.toNat
    let wrapped := decide (2 ^ 32 ≤ total)
    let advanced := total % 2 ^ 32
    let phase := if trans then
        if advanced < 0x80000000 then advanced + s.regs.demPllAdj.toNat else advanced - s.regs.demPllAdj.toNat
      else advanced
    let run := if trans then 0 else min (s.regs.demRunlen.toNat + 1) 0xFFFFFFFF
    ∃ t, exec (.demSample v) s = .next t ∧
      t = { s with
        win := t.win
        regs := { s.regs with
          wrPtr := BitVec.ofNat 8 wr, prevDec := dec, demRunlen := BitVec.ofNat 32 run
          demPhase := BitVec.ofNat 32 phase }
        response := okWith ((wrapped && dec).toNat + 2 * wrapped.toNat + 4 * trans.toNat + 8 * dec.toNat +
          (if s.regs.demRunmax.toNat < run then 16 else 0)) } ∧
      phase < 2 ^ 32 ∧
      ∀ i, winRead t i = if i = s.regs.wrPtr.toNat then v else winRead s i

/-- R180: with `CHAIN` = 1 a sample that emits a bit leaves FRM exactly as a `FRM.BIT` of that bit issued right after
the unchained sample, and copies bits [17:8] of its result into the response; with `CHAIN` = 0, or with no bit
emitted, FRM is not touched. -/
def Obligations.ChainedSamplePushesItsBit : Prop :=
  ∀ (s : State) (v : Half), Invariant s → s.regs.demReady = true →
    (s.regs.chain = true → 2 ^ 32 ≤ s.regs.demPhase.toNat + s.regs.demPllInc.toNat →
      ∃ t u f r ru rf, exec (.demSample v) s = .next t ∧
        exec (.demSample v) { s with regs := { s.regs with chain := false } } = .next u ∧
        u.response = some ru ∧ ru.code = 0#8 ∧ ru.data.getLsbD 1 = true ∧
        exec (.frmBit (ru.data.getLsbD 0)) u = .next f ∧ f.response = some rf ∧ rf.code = 0#8 ∧
        t.response = some r ∧ r.code = 0#8 ∧ r.data = ru.data ||| rf.data ∧
        t = { f with regs := { f.regs with chain := true }, response := t.response }) ∧
    (s.regs.chain = false ∨ s.regs.demPhase.toNat + s.regs.demPllInc.toNat < 2 ^ 32 →
      ∃ t r, exec (.demSample v) s = .next t ∧ t.response = some r ∧ r.code = 0#8 ∧
        t.pbuf = s.pbuf ∧ t.regs.byteOff = s.regs.byteOff ∧ t.regs.bitOff = s.regs.bitOff ∧
        r.data.extractLsb' 8 10 = 0#10)

/-- R19 (b): with a window of at most 64 samples every correlation sum is at most 2^36 in magnitude and the decision
value at most 2^73. -/
def Obligations.CorrelationAndDecisionAreBounded : Prop :=
  ∀ s : State, s.regs.demWindow.toNat ≤ 64 →
    (∀ k, |correlation s k| ≤ 2 ^ 36) ∧ 0 ≤ energyLow s ∧ energyLow s ≤ 2 ^ 73 ∧ 0 ≤ energyHigh s ∧
      energyHigh s ≤ 2 ^ 73 ∧ |energyHigh s - energyLow s| ≤ 2 ^ 73

/-- R182: after any number of zero samples into an all-zero window with the decision 0 there was no transition, the
phase has run free, and the window is still zero. -/
def Obligations.SilenceNeverMakesATransition : Prop :=
  ∀ (n : Nat) (s : State), Invariant s → s.regs.demReady = true → s.regs.chain = false → s.regs.prevDec = false →
    (∀ i, i < s.regs.demWindow.toNat → winRead s i = 0#16) →
    ∃ t, runCommands (List.replicate n (.demSample 0#16)) s = .next t ∧ t.regs.prevDec = false ∧
      t.regs.demPhase = BitVec.ofNat 32 (s.regs.demPhase.toNat + n * s.regs.demPllInc.toNat) ∧
      t.regs.demRunlen.toNat = min (s.regs.demRunlen.toNat + n) 0xFFFFFFFF ∧
      (∀ i, i < s.regs.demWindow.toNat → winRead t i = 0#16) ∧
      (0 < n → ∃ r, t.response = some r ∧ r.code = 0#8 ∧ r.data.getLsbD 0 = false ∧
        r.data.getLsbD 2 = false ∧ r.data.getLsbD 3 = false)

/-! ### The modulator -/

/-- R201: with `MOD_BAUD_INC` not 0 a session starts, whatever the unit's state; with 0, `ERR_CFG`. -/
def Obligations.ModInitStartsASession : Prop :=
  ∀ s : State,
    (s.regs.modBaudInc.toNat ≠ 0 → exec .modInit s = .next { s with
      regs := { s.regs with
        modPhase := 0#32, modBaud := 0#32, curBit := false, needBit := true, modReady := true }
      response := okWith 0 }) ∧
    (s.regs.modBaudInc.toNat = 0 → exec .modInit s = .next (faultRecorded 5 0x30#8 s)) ∧
    carriedBy 0x30#8 (fun _ => True) .modInit s ∧ refusesReserved 0x30#8 s

/-- R205: the poll, the lookup at the phase before the advance, the tone phase by the current bit's increment, the
baud fraction, and `need_bit` exactly when it wrapped; in IDLE, `ERR_STATE`. -/
def Obligations.ModSamplePollsLooksUpAndAdvances : Prop :=
  ∀ (s : State) (b : Bool),
    (s.regs.modReady = false → exec (.modSample b) s = .next (faultRecorded 4 0x32#8 s)) ∧
    (s.regs.modReady = true →
      let bit := if s.regs.needBit then b else s.regs.curBit
      let inc := if bit then s.regs.modIncHi else s.regs.modIncLo
      let index := s.regs.modPhase.toNat / 2 ^ (32 - s.params.cosBits)
      exec (.modSample b) s = .next { s with
        regs := { s.regs with
          curBit := bit
          needBit := decide (2 ^ 32 ≤ s.regs.modBaud.toNat + s.regs.modBaudInc.toNat)
          modPhase := BitVec.ofNat 32 (s.regs.modPhase.toNat + inc.toNat)
          modBaud := BitVec.ofNat 32 (s.regs.modBaud.toNat + s.regs.modBaudInc.toNat) }
        response := okWith ((ctRead s index).toNat + 2 ^ 16 * s.regs.needBit.toNat) }) ∧
    carriedBy 0x32#8 (fun w => w.getLsbD 0 = b) (.modSample b) s ∧ refusesReserved 0x32#8 s

/-- R206, R209: a session's `n`-th sample (from 0) polls exactly when `n` is 0 or the baud fraction, `n` increments
exact, has reached a new multiple of 2^32 with the sample before; the tone phase of equal increments is `n` of them. -/
def Obligations.ModPollsOncePerBaudPeriod : Prop :=
  ∀ (s : State) (bits : List Bool), s.regs.modReady = true → s.regs.modBaud = 0#32 → s.regs.needBit = true →
    ∃ t, runCommands (bits.map .modSample) s = .next t ∧
      t.regs.modBaud = BitVec.ofNat 32 (bits.length * s.regs.modBaudInc.toNat) ∧
      (t.regs.needBit = true ↔ bits.length = 0 ∨
        (bits.length - 1) * s.regs.modBaudInc.toNat / 2 ^ 32 < bits.length * s.regs.modBaudInc.toNat / 2 ^ 32) ∧
      (s.regs.modIncLo = s.regs.modIncHi →
        t.regs.modPhase = BitVec.ofNat 32 (s.regs.modPhase.toNat + bits.length * s.regs.modIncLo.toNat))

/-! ### The framer -/

/-- R225. -/
def Obligations.FrmClearDropsThePartialPacket : Prop :=
  ∀ s : State,
    exec .frmClear s = .next { s with
      regs := { s.regs with byteOff := 0#16, bitOff := 0#3 }, response := okWith 0 } ∧
    carriedBy 0x40#8 (fun _ => True) .frmClear s ∧ refusesReserved 0x40#8 s

/-- R227: the byte of PBUF as it stands, zero-extended, and nothing changes; an index at or above `PKT_MAX` is
refused. -/
def Obligations.FrmRdReadsOneByte : Prop :=
  ∀ (s : State) (i : BitVec 16),
    (s.params.pktMax ≤ i.toNat → exec (.frmRd i) s = .next (faultRecorded 2 0x42#8 s)) ∧
    (i.toNat < s.params.pktMax →
      exec (.frmRd i) s = .next { s with response := okWith (pbufRead s i.toNat).toNat }) ∧
    carriedBy 0x42#8 (fun w => w.extractLsb' 32 16 = i) (.frmRd i) s ∧ refusesReserved 0x42#8 s

/-- R73, R76, R221: a bit that does not complete a candidate is stored at the framer's position, every other bit of
PBUF and everything else is as it was, and the position advances by one bit; the answer is `OK` 0. `ty` is the type
byte as the bit leaves it. The bit is `data[0]` of the word, and its other bits are ignored. -/
def Obligations.FrmBitStoresOneBit : Prop :=
  (∀ (s : State) (b : Bool),
    carriedBy 0x41#8 (fun w => w.getLsbD 0 = b) (.frmBit b) s ∧ refusesReserved 0x41#8 s) ∧
  ∀ (s : State) (b : Bool) (ty : Byte), Memory.wf s → s.params.Legal → s.regs.byteOff.toNat < s.params.pktMax →
    (∀ k, k < 8 → ty.getLsbD k =
      if s.regs.byteOff.toNat = 1 ∧ k = s.regs.bitOff.toNat then b else (pbufRead s 1).getLsbD k) →
    (s.regs.bitOff.toNat < 7 ∨ s.regs.byteOff.toNat = 0 ∨ s.regs.byteOff.toNat + 1 < target s.params ty) →
    ∃ t, exec (.frmBit b) s = .next t ∧
      t = { s with
        pbuf := t.pbuf
        regs := { s.regs with byteOff := t.regs.byteOff, bitOff := t.regs.bitOff }
        response := okWith 0 } ∧
      8 * t.regs.byteOff.toNat + t.regs.bitOff.toNat =
        8 * s.regs.byteOff.toNat + s.regs.bitOff.toNat + 1 ∧
      ∀ i k, k < 8 → (pbufRead t i).getLsbD k =
        if i = s.regs.byteOff.toNat ∧ k = s.regs.bitOff.toNat then b else (pbufRead s i).getLsbD k

/-- R241: the bit that completes the header of an unknown type completes an invalid candidate at once; no byte of PBUF
is changed but that bit, and the position returns to 0. -/
def Obligations.UnknownTypeIsRejectedAtTheHeader : Prop :=
  ∀ (s : State) (b : Bool) (ty : Byte), Memory.wf s → s.params.Legal →
    s.regs.byteOff = 1#16 → s.regs.bitOff = 7#3 → ty ≠ 1#8 → ty ≠ 2#8 →
    (∀ k, k < 8 → ty.getLsbD k = if k = 7 then b else (pbufRead s 1).getLsbD k) →
    ∃ t, exec (.frmBit b) s = .next t ∧
      t = { s with
        pbuf := t.pbuf
        regs := { s.regs with byteOff := 0#16, bitOff := 0#3 }
        response := okWith (2 ^ 8 + 2 ^ 10 * ty.toNat) } ∧
      ∀ i, pbufRead t i = if i = 1 then ty else pbufRead s i

/-- R242, R251: the last bit of a control packet completes it; its 31 bytes stay as received, and it is valid exactly
when the hash of the first 27 with the seed equals the last four, little-endian. -/
def Obligations.ControlPacketIsCheckedAsReceived : Prop :=
  ∀ (s : State) (b : Bool), Memory.wf s → s.params.Legal →
    s.regs.byteOff = 30#16 → s.regs.bitOff = 7#3 → pbufRead s 1 = 1#8 →
    ∃ t, exec (.frmBit b) s = .next t ∧
      (∀ i k, k < 8 → (pbufRead t i).getLsbD k =
        if i = 30 ∧ k = 7 then b else (pbufRead s i).getLsbD k) ∧
      let hash := hash32 ((List.range 27).map (pbufRead t)) s.params.hashSeed
      let got := (pbufRead t 27).toNat + 2 ^ 8 * (pbufRead t 28).toNat + 2 ^ 16 * (pbufRead t 29).toNat +
        2 ^ 24 * (pbufRead t 30).toNat
      t = { s with
        pbuf := t.pbuf
        regs := { s.regs with byteOff := 0#16, bitOff := 0#3 }
        response := okWith (2 ^ 8 + (if hash.toNat = got then 2 ^ 9 else 0) + 2 ^ 10) }

/-- R243, R245, R247: the last bit of a data packet completes it; the span from the header to the trailing hash is
un-striped in place by the packet's version, whether the packet is valid or not, and it is valid exactly when the
hash of the un-striped bytes equals the trailing field. -/
def Obligations.DataPacketIsUnstripedThenChecked : Prop :=
  ∀ (s : State) (b : Bool), Memory.wf s → s.params.Legal →
    s.regs.byteOff.toNat + 1 = 10 + s.params.payloadLen → s.regs.bitOff = 7#3 → pbufRead s 1 = 2#8 →
    let n := 10 + s.params.payloadLen
    let mask : Nat → Byte := fun i =>
      if pbufRead s 0 = 1#8 then (if i % 16 = 7 then 0x55#8 else if i % 16 = 15 then 0xAA#8 else 0#8)
      else if pbufRead s 0 = 2#8 then (if i % 3 = 0 then 0x35#8 else if i % 3 = 1 then 0xAC#8 else 0x95#8)
      else 0#8
    ∃ t, exec (.frmBit b) s = .next t ∧
      (∀ i k, k < 8 → (pbufRead t i).getLsbD k =
        ((if i = s.regs.byteOff.toNat ∧ k = 7 then b else (pbufRead s i).getLsbD k) ^^
          (if 2 ≤ i ∧ i < n - 4 then (mask i).getLsbD k else false))) ∧
      let hash := hash32 ((List.range (n - 4)).map (pbufRead t)) s.params.hashSeed
      let got := (pbufRead t (n - 4)).toNat + 2 ^ 8 * (pbufRead t (n - 3)).toNat +
        2 ^ 16 * (pbufRead t (n - 2)).toNat + 2 ^ 24 * (pbufRead t (n - 1)).toNat
      t = { s with
        pbuf := t.pbuf
        regs := { s.regs with byteOff := 0#16, bitOff := 0#3 }
        response := okWith (2 ^ 8 + (if hash.toNat = got then 2 ^ 9 else 0) + 2 ^ 11) }

/-- R245, R247: what `Stripe` does to every byte of PBUF, for every version and span; it changes nothing else. -/
def Obligations.StripeXorsTheVersionsPattern : Prop :=
  ∀ (s : State) (version : Byte) (lo n : Nat),
    stripe version lo n s = { s with pbuf := (stripe version lo n s).pbuf } ∧
    ∀ i, pbufRead (stripe version lo n s) i =
      if lo ≤ i ∧ i < lo + n then
        if version = 1#8 then
          if i % 16 = 7 then pbufRead s i ^^^ 0x55#8
          else if i % 16 = 15 then pbufRead s i ^^^ 0xAA#8
          else pbufRead s i
        else if version = 2#8 then
          if i % 3 = 0 then pbufRead s i ^^^ 0x35#8
          else if i % 3 = 1 then pbufRead s i ^^^ 0xAC#8
          else pbufRead s i ^^^ 0x95#8
        else pbufRead s i
      else pbufRead s i

/-- R246: applying the striping of a version twice to the same span yields the original bytes. -/
def Obligations.StripeTwiceYieldsTheOriginal : Prop :=
  ∀ (s : State) (version : Byte) (lo n i : Nat),
    pbufRead (stripe version lo n (stripe version lo n s)) i = pbufRead s i

/-- R252, its second half: of candidates with the same header, body and seed, at most one trailing hash field is
valid, so a flip inside the field alone always fails. -/
def Obligations.TrailingHashFlipAlwaysFails : Prop :=
  ∀ (s u : State) (n : Nat), 4 ≤ n → u.params.hashSeed = s.params.hashSeed →
    (∀ i, i < n - 4 → pbufRead u i = pbufRead s i) → hashMatches s n = true →
    (∃ i, n - 4 ≤ i ∧ i < n ∧ pbufRead u i ≠ pbufRead s i) → hashMatches u n = false

/-- R73, R221, R312: from position 0, bits enter PBUF in order, the least significant bit of each byte first, and
overwrite what was there bit by bit, as long as the header is not in or the candidate's length is not reached. -/
def Obligations.AccumulationStoresBitsInOrder : Prop :=
  ∀ (s : State) (bits : List Bool) (ty : Byte), Memory.wf s → s.params.Legal →
    s.regs.byteOff = 0#16 → s.regs.bitOff = 0#3 →
    (∀ k, k < 8 → ty.getLsbD k = bits.getD (8 + k) false) →
    (bits.length < 16 ∨ bits.length < 8 * target s.params ty) →
    ∃ t, runCommands (bits.map .frmBit) s = .next t ∧
      8 * t.regs.byteOff.toNat + t.regs.bitOff.toNat = bits.length ∧
      (∀ i k, k < 8 → (pbufRead t i).getLsbD k =
        if 8 * i + k < bits.length then bits.getD (8 * i + k) false else (pbufRead s i).getLsbD k) ∧
      (0 < bits.length → t.response = okWith 0)

/-- R113: `FRM.BYTE v` from a byte boundary, where it does not complete a candidate, stores `v` at `byte_off` and
moves on to the next byte. -/
def Obligations.FrmByteStoresTheByte : Prop :=
  ∀ (s : State) (v : Byte), Memory.wf s → s.params.Legal → s.regs.byteOff.toNat < s.params.pktMax →
    s.regs.bitOff = 0#3 →
    (s.regs.byteOff.toNat = 0 ∨ (s.regs.byteOff.toNat = 1 ∧ (v = 1#8 ∨ (v = 2#8))) ∨
      (2 ≤ s.regs.byteOff.toNat ∧ s.regs.byteOff.toNat + 1 < target s.params (pbufRead s 1))) →
    ∃ t, runCommands (frmByte v) s = .next t ∧
      t = { s with
        pbuf := t.pbuf
        regs := { s.regs with byteOff := s.regs.byteOff + 1#16, bitOff := 0#3 }
        response := okWith 0 } ∧
      ∀ i, pbufRead t i = if i = s.regs.byteOff.toNat then v else pbufRead s i

/-- R257: FRM terminates every candidate, from whatever position: of any `8 * PKT_MAX` bits, one completes a candidate,
valid or not, and returns the position to 0. -/
def Obligations.EveryCandidateTerminates : Prop :=
  ∀ (s : State) (bits : List Bool), Invariant s → 8 * s.params.pktMax ≤ bits.length →
    ∃ n t r, 1 ≤ n ∧ n ≤ bits.length ∧ runCommands ((bits.take n).map .frmBit) s = .next t ∧
      t.response = some r ∧ r.code = 0#8 ∧ r.data.getLsbD 8 = true ∧
      t.regs.byteOff = 0#16 ∧ t.regs.bitOff = 0#3

/-- R258: a stream of equal bits from position 0 never makes a valid packet: each sixteenth bit completes an invalid
candidate of type 0 or 0xFF, and no other bit completes one. -/
def Obligations.EqualBitsNeverMakeAValidPacket : Prop :=
  ∀ (s : State) (b : Bool) (m : Nat), Memory.wf s → s.params.Legal →
    s.regs.byteOff = 0#16 → s.regs.bitOff = 0#3 →
    ∃ t, runCommands (List.replicate (m + 1) (.frmBit b)) s = .next t ∧
      t.response = okWith (if (m + 1) % 16 = 0 then (if b then 0x3FD00 else 0x100) else 0) ∧
      8 * t.regs.byteOff.toNat + t.regs.bitOff.toNat = (m + 1) % 16

/-! ### Rules of the whole machine -/

/-- R200: a command to MOD changes nothing of DEM, FRM or their storages, and a command to DEM nothing of MOD or CT,
but for the error record of a fault. -/
def Obligations.UnitsShareNoState : Prop :=
  ∀ (i : Instr) (s t : State), exec i s = .next t →
    (opcode i ∈ [0x30#8, 0x31#8, 0x32#8] →
      t = { s with
        regs := { s.regs with
          sticky := t.regs.sticky, lastErrCode := t.regs.lastErrCode, lastErrOp := t.regs.lastErrOp
          modReady := t.regs.modReady, modPhase := t.regs.modPhase, modBaud := t.regs.modBaud
          curBit := t.regs.curBit, needBit := t.regs.needBit }
        response := t.response }) ∧
    (opcode i ∈ [0x20#8, 0x21#8, 0x22#8] →
      t.ct = s.ct ∧ t.regs.modReady = s.regs.modReady ∧ t.regs.modIncLo = s.regs.modIncLo ∧
      t.regs.modIncHi = s.regs.modIncHi ∧ t.regs.modBaudInc = s.regs.modBaudInc ∧
      t.regs.modPhase = s.regs.modPhase ∧ t.regs.modBaud = s.regs.modBaud ∧ t.regs.curBit = s.regs.curBit ∧
      t.regs.needBit = s.regs.needBit)

/-- R69: while a unit is READY and stays so, no command changes its locked registers or its table. -/
def Obligations.SessionsKeepTheirConfiguration : Prop :=
  ∀ (i : Instr) (s t : State), exec i s = .next t →
    (s.regs.demReady = true → i ≠ .sysReset →
      t.regs.demWindow = s.regs.demWindow ∧ t.regs.demPllInc = s.regs.demPllInc ∧
      t.regs.demPllAdj = s.regs.demPllAdj ∧ t.ft = s.ft) ∧
    (s.regs.modReady = true → i ≠ .sysReset →
      t.regs.modIncLo = s.regs.modIncLo ∧ t.regs.modIncHi = s.regs.modIncHi ∧
      t.regs.modBaudInc = s.regs.modBaudInc ∧ t.ct = s.ct)

/-- R35: only a successful `INIT` makes a unit READY, and only its `HALT` or a reset makes it IDLE. -/
def Obligations.OnlyInitHaltAndResetMoveAUnit : Prop :=
  ∀ (i : Instr) (s t : State), exec i s = .next t →
    (t.regs.demReady ≠ s.regs.demReady →
      (t.regs.demReady = true ∧ i = .demInit ∧ t.response = okWith 0) ∨
      (t.regs.demReady = false ∧ (i = .demHalt ∨ i = .sysReset))) ∧
    (t.regs.modReady ≠ s.regs.modReady →
      (t.regs.modReady = true ∧ i = .modInit ∧ t.response = okWith 0) ∨
      (t.regs.modReady = false ∧ (i = .modHalt ∨ i = .sysReset)))

/-- R186: a command other than `DEM.INIT`, `DEM.SAMPLE`, `SYS.RESET` and a write of `DEM_PHASE` leaves the
demodulator's phase, decision, run length, `wr_ptr` and window as they were. -/
def Obligations.OtherCommandsLeaveTheDemodulatorAlone : Prop :=
  ∀ (i : Instr) (s t : State), exec i s = .next t →
    opcode i ∉ [0x20#8, 0x22#8] → i ≠ .sysReset → (∀ v, i ≠ .csrw 0x0014#16 v) →
    t.win = s.win ∧ t.regs.demPhase = s.regs.demPhase ∧ t.regs.prevDec = s.regs.prevDec ∧
      t.regs.demRunlen = s.regs.demRunlen ∧ t.regs.wrPtr = s.regs.wrPtr

/-- R70's column "written by": FT changes only by `FT.WR`, CT only by `CT.WR`, WIN only by `DEM.SAMPLE` and `DEM.INIT`,
PBUF only by `FRM.BIT` and by `DEM.SAMPLE` with `CHAIN` = 1. -/
def Obligations.EachStorageHasItsOwnWriters : Prop :=
  ∀ (i : Instr) (s t : State), exec i s = .next t →
    (t.ft ≠ s.ft → opcode i = 0x10#8) ∧ (t.ct ≠ s.ct → opcode i = 0x12#8) ∧
    (t.win ≠ s.win → opcode i = 0x20#8 ∨ opcode i = 0x22#8) ∧
    (t.pbuf ≠ s.pbuf → opcode i = 0x41#8 ∨ (opcode i = 0x22#8 ∧ s.regs.chain = true))

/-- R77: `CSRR`, `FT.RD`, `CT.RD` and `FRM.RD` change no state at all, and repeated they answer the same. -/
def Obligations.ReadsHaveNoSideEffect : Prop :=
  ∀ (i : Instr) (s t : State), opcode i ∈ [0x01#8, 0x11#8, 0x13#8, 0x42#8] → exec i s = .next t →
    ∀ r, t.response = some r → r.code = 0#8 →
      t = { s with response := some r } ∧ exec i t = .next t

/-- R302 (with R64 and R65): in a state a run can be in, what the storages happened to hold at power-on reaches a
command's answer and effect only through the reads R302 lists; every other command answers and does the same whatever
they held. That they are functions of the power-on count `powerOns`, so that another count stands for other contents,
is the model's choice (log entries 5 and 6). A read that is refused with `ERR_IDX` is answered the same by the
statements of the reads themselves. -/
def Obligations.UnspecifiedContentsReachOnlyTheListedReads : Prop :=
  ∀ (i : Instr) (s t : State) (n : Nat), Invariant s → ¬ readsUnspecified i s → exec i s = .next t →
    exec i { s with powerOns := n } = .next { t with powerOns := n }

/-! ### The host's sequences -/

/-- R110, R190: a batch into a READY demodulator never faults; it has run exactly the samples it consumed, reports the
bit of the last one when it emitted one, and otherwise consumed them all without a bit. -/
def Obligations.BatchStopsAtTheFirstBit : Prop :=
  ∀ (s : State) (samples : List Half), Invariant s → s.regs.demReady = true →
    ∃ t res, demBatch samples s = .next (t, res) ∧ res.unconsumed ≤ samples.length ∧
      runCommands ((samples.take (samples.length - res.unconsumed)).map .demSample) s = .next t ∧
      (∀ n, n < samples.length - res.unconsumed →
        ∃ u r, runCommands ((samples.take (n + 1)).map .demSample) s = .next u ∧ u.response = some r ∧ r.code = 0#8 ∧
          (n + 1 < samples.length - res.unconsumed → r.data.getLsbD 1 = false) ∧
          (n + 1 = samples.length - res.unconsumed → ∀ b m, res = .bit b m →
            r.data.getLsbD 1 = true ∧ r.data.getLsbD 0 = b) ∧
          (n + 1 = samples.length - res.unconsumed → ∀ m, res = .noBitYet m → r.data.getLsbD 1 = false)) ∧
      (∀ m, res = .noBitYet m → m = 0) ∧ (∀ c m, res ≠ .fault c m) ∧ (∀ b m, res = .bit b m → m < samples.length)

/-- R111: `FT.LOAD` of four tables of at least `W` entries into an IDLE demodulator writes `DEM_WINDOW` and the entries
`[0, W)` of each table, in `4 W + 1` commands, and changes nothing else. -/
def Obligations.FtLoadWritesWindowAndTables : Prop :=
  ∀ (s : State) (t0 t1 t2 t3 : List Half) (w : Nat), s.params.Legal → s.regs.demReady = false →
    w ≤ s.params.wmax → w ≤ t0.length → w ≤ t1.length → w ≤ t2.length → w ≤ t3.length →
    (ftLoad t0 t1 t2 t3 w).length = 4 * w + 1 ∧
    ∃ t, runCommands (ftLoad t0 t1 t2 t3 w) s = .next t ∧
      t = { s with
        ft := t.ft, regs := { s.regs with demWindow := BitVec.ofNat 32 w }, response := okWith 0 } ∧
      ∀ k i, k < 4 → i < 256 → ftRead t k i =
        if i < w then ([t0, t1, t2, t3].getD k []).getD i 0#16 else ftRead s k i

/-- R112: `CT.LOAD` of `COSLEN` entries into an IDLE modulator writes every entry of CT and changes nothing else. -/
def Obligations.CtLoadWritesTheTable : Prop :=
  ∀ (s : State) (entries : List Half), s.params.Legal → s.regs.modReady = false →
    entries.length = s.params.coslen →
    (ctLoad entries).length = s.params.coslen ∧
    ∃ t, runCommands (ctLoad entries) s = .next t ∧ t = { s with ct := t.ct, response := okWith 0 } ∧
      ∀ k, ctRead t k = if k < s.params.coslen then entries.getD k 0#16 else ctRead s k
end

