-- ==== Sys2Proof/Laws/Encoding.lean ====
section
/-! SUPPORT. The fields of a canonical word, and what the decoder looks at (spec/30_encoding.md R90, R91). -/

namespace Sys2Proof

section
variable (i : Instr)

@[simp] theorem opField_encode : opField (encode i) = opcode i := by
  simp (disch := decide) only [opField, encode, BitVec.extractLsb'_append_eq_of_le, Nat.sub_self,
    BitVec.extractLsb'_eq_self, Nat.reduceSub]

@[simp] theorem rsvField_encode : rsvField (encode i) = 0#8 := by
  simp (disch := decide) only [rsvField, encode, BitVec.extractLsb'_append_eq_of_le, Nat.reduceSub,
    BitVec.extractLsb'_append_eq_of_add_le, BitVec.extractLsb'_eq_self]

@[simp] theorem idxField_encode : idxField (encode i) = encodeIdx i := by
  simp (disch := decide) only [idxField, encode, BitVec.extractLsb'_append_eq_of_le, Nat.reduceSub,
    BitVec.extractLsb'_append_eq_of_add_le, BitVec.extractLsb'_eq_self]

@[simp] theorem dataField_encode : dataField (encode i) = encodeData i := by
  simp (disch := decide) only [dataField, encode, BitVec.extractLsb'_append_eq_of_add_le,
    BitVec.extractLsb'_eq_self]

end

theorem extract_extract (w : CommandWord) (a b c d : Nat) (h : c + d ≤ b) :
    (w.extractLsb' a b).extractLsb' c d = w.extractLsb' (a + c) d := by
  apply BitVec.eq_of_getLsbD_eq
  intro k hk
  simp only [BitVec.getLsbD_extractLsb', hk, decide_true, Bool.true_and, Nat.add_assoc]
  rw [show decide (c + k < b) = true by simp; omega, Bool.true_and]

/-- The narrow operand fields are parts of `idx` and `data` (R94, R95). -/
theorem ftZeroField_eq (w : CommandWord) : ftZeroField w = (idxField w).extractLsb' 10 6 :=
  (extract_extract w 32 16 10 6 (by decide)).symm

theorem ftTableField_eq (w : CommandWord) : ftTableField w = (idxField w).extractLsb' 8 2 :=
  (extract_extract w 32 16 8 2 (by decide)).symm

theorem ftEntryField_eq (w : CommandWord) : ftEntryField w = (idxField w).extractLsb' 0 8 :=
  (extract_extract w 32 16 0 8 (by decide)).symm

theorem valueField_eq (w : CommandWord) : valueField w = (dataField w).extractLsb' 0 16 :=
  (extract_extract w 0 32 0 16 (by decide)).symm

theorem bitField_eq (w : CommandWord) : bitField w = (dataField w).getLsbD 0 := by
  simp only [bitField, dataField, BitVec.getLsbD_extractLsb']
  rfl

/-- The parts of an FT index are the operands it was made of (R95). -/
theorem ftIndex_zeroPart (zero : BitVec 6) (t : BitVec 2) (i : BitVec 8) :
    (ftIndex zero t i).extractLsb' 10 6 = zero := by
  unfold ftIndex
  rw [BitVec.extractLsb'_append_eq_of_le (by decide), BitVec.extractLsb'_append_eq_of_le (by decide)]
  exact BitVec.extractLsb'_eq_self

theorem ftIndex_tablePart (zero : BitVec 6) (t : BitVec 2) (i : BitVec 8) :
    (ftIndex zero t i).extractLsb' 8 2 = t := by
  unfold ftIndex
  rw [BitVec.extractLsb'_append_eq_of_le (by decide), BitVec.extractLsb'_append_eq_of_add_le (by decide)]
  exact BitVec.extractLsb'_eq_self

theorem ftIndex_entryPart (zero : BitVec 6) (t : BitVec 2) (i : BitVec 8) :
    (ftIndex zero t i).extractLsb' 0 8 = i := by
  unfold ftIndex
  rw [BitVec.extractLsb'_append_eq_of_add_le (by decide)]
  exact BitVec.extractLsb'_eq_self

/-- A 16-bit operand and a bit are read back from the `data` they were put in (R94). -/
theorem lowHalf_append (v : Half) : (0#16 ++ v).extractLsb' 0 16 = v := by
  rw [BitVec.extractLsb'_append_eq_of_add_le (by decide)]
  exact BitVec.extractLsb'_eq_self

theorem lowBit_append (b : Bool) : (0#31 ++ BitVec.ofBool b).getLsbD 0 = b := by cases b <;> decide

end Sys2Proof
end

