-- ==== Sys2Proof/Laws/State.lean ====
section
/-! SUPPORT. One lemma per field of State per update: what the update leaves in the field, true by computation. Later
proofs rewrite with these and unfold no update. -/

namespace Sys2Proof.Machine

open Sys2Proof

section
variable (s : State) (r : Regs)
@[simp] theorem setRegs_params : (s.setRegs r).params = s.params := rfl
@[simp] theorem setRegs_regs : (s.setRegs r).regs = r := rfl
@[simp] theorem setRegs_ft : (s.setRegs r).ft = s.ft := rfl
@[simp] theorem setRegs_ct : (s.setRegs r).ct = s.ct := rfl
@[simp] theorem setRegs_win : (s.setRegs r).win = s.win := rfl
@[simp] theorem setRegs_pbuf : (s.setRegs r).pbuf = s.pbuf := rfl
@[simp] theorem setRegs_response : (s.setRegs r).response = s.response := rfl
@[simp] theorem setRegs_inbox : (s.setRegs r).inbox = s.inbox := rfl
@[simp] theorem setRegs_powerOns : (s.setRegs r).powerOns = s.powerOns := rfl
end

section
variable (s : State) (d : Word)
@[simp] theorem respond_params : (respond d s).params = s.params := rfl
@[simp] theorem respond_regs : (respond d s).regs = s.regs := rfl
@[simp] theorem respond_ft : (respond d s).ft = s.ft := rfl
@[simp] theorem respond_ct : (respond d s).ct = s.ct := rfl
@[simp] theorem respond_win : (respond d s).win = s.win := rfl
@[simp] theorem respond_pbuf : (respond d s).pbuf = s.pbuf := rfl
@[simp] theorem respond_response : (respond d s).response = some { code := 0#8, data := d } := rfl
@[simp] theorem respond_inbox : (respond d s).inbox = s.inbox := rfl
@[simp] theorem respond_powerOns : (respond d s).powerOns = s.powerOns := rfl
end

section
variable (s : State) (c : FaultCode) (op : Byte)
@[simp] theorem raiseFault_params : (raiseFault c op s).params = s.params := rfl
@[simp] theorem raiseFault_regs : (raiseFault c op s).regs =
    { s.regs with
      sticky := s.regs.sticky ||| stickyBit c
      lastErrCode := faultNumber c
      lastErrOp := op } := rfl
@[simp] theorem raiseFault_ft : (raiseFault c op s).ft = s.ft := rfl
@[simp] theorem raiseFault_ct : (raiseFault c op s).ct = s.ct := rfl
@[simp] theorem raiseFault_win : (raiseFault c op s).win = s.win := rfl
@[simp] theorem raiseFault_pbuf : (raiseFault c op s).pbuf = s.pbuf := rfl
@[simp] theorem raiseFault_response : (raiseFault c op s).response = some { code := faultNumber c, data := 0#32 } := rfl
@[simp] theorem raiseFault_inbox : (raiseFault c op s).inbox = s.inbox := rfl
@[simp] theorem raiseFault_powerOns : (raiseFault c op s).powerOns = s.powerOns := rfl
end

section
variable (s : State) (t i : Nat) (v : Half)
@[simp] theorem ftWrite_params : (ftWrite t i v s).params = s.params := rfl
@[simp] theorem ftWrite_regs : (ftWrite t i v s).regs = s.regs := rfl
@[simp] theorem ftWrite_ft : (ftWrite t i v s).ft = storagePut s.ft (ftKey t i) v := rfl
@[simp] theorem ftWrite_ct : (ftWrite t i v s).ct = s.ct := rfl
@[simp] theorem ftWrite_win : (ftWrite t i v s).win = s.win := rfl
@[simp] theorem ftWrite_pbuf : (ftWrite t i v s).pbuf = s.pbuf := rfl
@[simp] theorem ftWrite_response : (ftWrite t i v s).response = s.response := rfl
@[simp] theorem ftWrite_inbox : (ftWrite t i v s).inbox = s.inbox := rfl
@[simp] theorem ftWrite_powerOns : (ftWrite t i v s).powerOns = s.powerOns := rfl
end

section
variable (s : State) (k : Nat) (v : Half)
@[simp] theorem ctWrite_params : (ctWrite k v s).params = s.params := rfl
@[simp] theorem ctWrite_regs : (ctWrite k v s).regs = s.regs := rfl
@[simp] theorem ctWrite_ft : (ctWrite k v s).ft = s.ft := rfl
@[simp] theorem ctWrite_ct : (ctWrite k v s).ct = storagePut s.ct k v := rfl
@[simp] theorem ctWrite_win : (ctWrite k v s).win = s.win := rfl
@[simp] theorem ctWrite_pbuf : (ctWrite k v s).pbuf = s.pbuf := rfl
@[simp] theorem ctWrite_response : (ctWrite k v s).response = s.response := rfl
@[simp] theorem ctWrite_inbox : (ctWrite k v s).inbox = s.inbox := rfl
@[simp] theorem ctWrite_powerOns : (ctWrite k v s).powerOns = s.powerOns := rfl
end

section
variable (s : State) (i : Nat) (v : Half)
@[simp] theorem winWrite_params : (winWrite i v s).params = s.params := rfl
@[simp] theorem winWrite_regs : (winWrite i v s).regs = s.regs := rfl
@[simp] theorem winWrite_ft : (winWrite i v s).ft = s.ft := rfl
@[simp] theorem winWrite_ct : (winWrite i v s).ct = s.ct := rfl
@[simp] theorem winWrite_win : (winWrite i v s).win = storagePut s.win i v := rfl
@[simp] theorem winWrite_pbuf : (winWrite i v s).pbuf = s.pbuf := rfl
@[simp] theorem winWrite_response : (winWrite i v s).response = s.response := rfl
@[simp] theorem winWrite_inbox : (winWrite i v s).inbox = s.inbox := rfl
@[simp] theorem winWrite_powerOns : (winWrite i v s).powerOns = s.powerOns := rfl
end

section
variable (s : State) (i : Nat) (v : Byte)
@[simp] theorem pbufWrite_params : (pbufWrite i v s).params = s.params := rfl
@[simp] theorem pbufWrite_regs : (pbufWrite i v s).regs = s.regs := rfl
@[simp] theorem pbufWrite_ft : (pbufWrite i v s).ft = s.ft := rfl
@[simp] theorem pbufWrite_ct : (pbufWrite i v s).ct = s.ct := rfl
@[simp] theorem pbufWrite_win : (pbufWrite i v s).win = s.win := rfl
@[simp] theorem pbufWrite_pbuf : (pbufWrite i v s).pbuf = storagePut s.pbuf i (PbufByte.mk v 0xFF#8) := rfl
@[simp] theorem pbufWrite_response : (pbufWrite i v s).response = s.response := rfl
@[simp] theorem pbufWrite_inbox : (pbufWrite i v s).inbox = s.inbox := rfl
@[simp] theorem pbufWrite_powerOns : (pbufWrite i v s).powerOns = s.powerOns := rfl
end

section
variable (s : State) (i k : Nat) (b : Bool)
@[simp] theorem pbufWriteBit_params : (pbufWriteBit i k b s).params = s.params := rfl
@[simp] theorem pbufWriteBit_regs : (pbufWriteBit i k b s).regs = s.regs := rfl
@[simp] theorem pbufWriteBit_ft : (pbufWriteBit i k b s).ft = s.ft := rfl
@[simp] theorem pbufWriteBit_ct : (pbufWriteBit i k b s).ct = s.ct := rfl
@[simp] theorem pbufWriteBit_win : (pbufWriteBit i k b s).win = s.win := rfl
@[simp] theorem pbufWriteBit_pbuf : (pbufWriteBit i k b s).pbuf =
    storagePut s.pbuf i
      (pbufByteWithBit ((storageGet s.pbuf i).getD (PbufByte.mk 0#8 0#8)) k b) := rfl
@[simp] theorem pbufWriteBit_response : (pbufWriteBit i k b s).response = s.response := rfl
@[simp] theorem pbufWriteBit_inbox : (pbufWriteBit i k b s).inbox = s.inbox := rfl
@[simp] theorem pbufWriteBit_powerOns : (pbufWriteBit i k b s).powerOns = s.powerOns := rfl
end

section
variable (s : State) (n : BitVec 16) (k : BitVec 3)
@[simp] theorem setPosition_params : (setPosition n k s).params = s.params := rfl
@[simp] theorem setPosition_regs : (setPosition n k s).regs = { s.regs with byteOff := n, bitOff := k } := rfl
@[simp] theorem setPosition_ft : (setPosition n k s).ft = s.ft := rfl
@[simp] theorem setPosition_ct : (setPosition n k s).ct = s.ct := rfl
@[simp] theorem setPosition_win : (setPosition n k s).win = s.win := rfl
@[simp] theorem setPosition_pbuf : (setPosition n k s).pbuf = s.pbuf := rfl
@[simp] theorem setPosition_response : (setPosition n k s).response = s.response := rfl
@[simp] theorem setPosition_inbox : (setPosition n k s).inbox = s.inbox := rfl
@[simp] theorem setPosition_powerOns : (setPosition n k s).powerOns = s.powerOns := rfl
end

section
variable (s : State) (w : CommandWord)
@[simp] theorem presentCommand_params : (presentCommand w s).params = s.params := rfl
@[simp] theorem presentCommand_regs : (presentCommand w s).regs = s.regs := rfl
@[simp] theorem presentCommand_ft : (presentCommand w s).ft = s.ft := rfl
@[simp] theorem presentCommand_ct : (presentCommand w s).ct = s.ct := rfl
@[simp] theorem presentCommand_win : (presentCommand w s).win = s.win := rfl
@[simp] theorem presentCommand_pbuf : (presentCommand w s).pbuf = s.pbuf := rfl
@[simp] theorem presentCommand_response : (presentCommand w s).response = s.response := rfl
@[simp] theorem presentCommand_inbox : (presentCommand w s).inbox = .command w :: s.inbox := rfl
@[simp] theorem presentCommand_powerOns : (presentCommand w s).powerOns = s.powerOns := rfl
end

end Sys2Proof.Machine
end

