-- ==== Sys2Proof/Laws/Storage.lean ====
section
/-! SUPPORT. The laws of the storages: what a read gives after a write (spec/20_memory.md R71), and that every write
keeps the canonical form. -/

namespace Sys2Proof.Machine

open Sys2Proof

section
variable {α : Type} (m : Storage α) (i j : Nat) (v : α)

@[simp] theorem storageGet_put_same : storageGet (storagePut m i v) i = some v := by
  induction m with
  | nil => simp [storagePut, storageGet]
  | cons e m ih =>
    obtain ⟨k, w⟩ := e
    unfold storagePut
    split
    · simp [storageGet]
    · split
      · simp [storageGet]
      · rename_i h1 h2
        simp [storageGet, h2, ih]

theorem storageGet_put_other (h : j ≠ i) : storageGet (storagePut m i v) j = storageGet m j := by
  induction m with
  | nil => simp [storagePut, storageGet, h]
  | cons e m ih =>
    obtain ⟨k, w⟩ := e
    unfold storagePut
    split
    · simp [storageGet, h]
    · split
      · rename_i h1 h2
        subst h2
        simp [storageGet, h]
      · simp [storageGet, ih]

/-- Read after write, both cases at once. -/
theorem storageGet_put :
    storageGet (storagePut m i v) j = if j = i then some v else storageGet m j := by
  by_cases h : j = i
  · subst h; simp
  · rw [storageGet_put_other m i j v h, if_neg h]

theorem mem_storagePut {e : Nat × α} (h : e ∈ storagePut m i v) : e = (i, v) ∨ e ∈ m := by
  induction m with
  | nil => simpa [storagePut] using h
  | cons a m ih =>
    obtain ⟨k, w⟩ := a
    unfold storagePut at h
    split at h
    · simpa using h
    · split at h
      · simp only [List.mem_cons] at h ⊢
        tauto
      · simp only [List.mem_cons] at h ⊢
        rcases h with h | h
        · tauto
        · have := ih h
          tauto

theorem storagePut_pairwise (h : m.Pairwise (fun a b => a.1 < b.1)) :
    (storagePut m i v).Pairwise (fun a b => a.1 < b.1) := by
  induction m with
  | nil => simp [storagePut]
  | cons a m ih =>
    obtain ⟨k, w⟩ := a
    rw [List.pairwise_cons] at h
    unfold storagePut
    split
    · rename_i hlt
      refine List.pairwise_cons.mpr ⟨?_, List.pairwise_cons.mpr h⟩
      intro b hb
      rcases List.mem_cons.mp hb with rfl | hb
      · exact hlt
      · exact Nat.lt_trans hlt (h.1 b hb)
    · split
      · rename_i heq
        exact List.pairwise_cons.mpr ⟨fun b hb => by have := h.1 b hb; simp_all, h.2⟩
      · rename_i h1 h2
        refine List.pairwise_cons.mpr ⟨?_, ih h.2⟩
        intro b hb
        rcases mem_storagePut m i v hb with rfl | hb
        · simp only; omega
        · exact h.1 b hb

/-- A write inside the space keeps the canonical form. -/
theorem storagePut_wf {inside : Nat → Bool} (hi : inside i = true) (h : Storage.wf m inside) :
    Storage.wf (storagePut m i v) inside := by
  refine ⟨storagePut_pairwise m i v h.1, fun e he => ?_⟩
  rcases mem_storagePut m i v he with rfl | he
  · exact hi
  · exact h.2 e he

theorem storageGet_mem {w : α} (h : storageGet m i = some w) : (i, w) ∈ m := by
  induction m with
  | nil => simp [storageGet] at h
  | cons a m ih =>
    obtain ⟨k, u⟩ := a
    unfold storageGet at h
    split at h
    · rename_i hk
      cases h
      simp [hk]
    · exact List.mem_cons_of_mem _ (ih h)

end

theorem storageGet_map (f : Nat → Half) (l : List Nat) (i : Nat) :
    storageGet (l.map (fun k => (k, f k))) i = if i ∈ l then some (f i) else none := by
  induction l with
  | nil => simp [storageGet]
  | cons k l ih =>
    simp only [List.map_cons, storageGet, List.mem_cons]
    by_cases h : i = k
    · subst h; simp
    · simp [h, ih]

/-- After `DEM.INIT` every entry of WIN below `n` is 0 and no other is listed (R162). -/
theorem storageGet_zeroWindow (n i : Nat) :
    storageGet (zeroWindow n) i = if i < n then some 0#16 else none := by
  simpa [zeroWindow] using storageGet_map (fun _ => 0#16) (List.range n) i

theorem zeroWindow_wf (p : Params) : Storage.wf (zeroWindow p.wmax) (winInside p) := by
  constructor
  · unfold zeroWindow
    rw [List.pairwise_map]
    exact List.pairwise_lt_range
  · intro e he
    simp only [zeroWindow, List.mem_map, List.mem_range] at he
    obtain ⟨k, hk, rfl⟩ := he
    simp [winInside, hk]

theorem ctInside_iff {p : Params} {k : Nat} : ctInside p k = true ↔ k < p.coslen := by
  simp only [ctInside, decide_eq_true_eq]

theorem winInside_iff {p : Params} {k : Nat} : winInside p k = true ↔ k < p.wmax := by
  simp only [winInside, decide_eq_true_eq]

theorem pbufInside_iff {p : Params} {k : Nat} : pbufInside p k = true ↔ k < p.pktMax := by
  simp only [pbufInside, decide_eq_true_eq]

theorem ftInside_iff {p : Params} {k : Nat} : ftInside p k = true ↔ k / 256 < 4 ∧ k % 256 < p.wmax := by
  simp only [ftInside, Bool.and_eq_true, decide_eq_true_eq]

theorem ftKey_inj {t i t' i' : Nat} (hi : i < 256) (hi' : i' < 256) :
    ftKey t i = ftKey t' i' ↔ t = t' ∧ i = i' := by
  unfold ftKey
  omega

theorem ftInside_ftKey {p : Params} {t i : Nat} (ht : t < 4) (hi : i < 256) (h : i < p.wmax) :
    ftInside p (ftKey t i) = true := by
  rw [ftInside_iff, ftKey]
  constructor
  · omega
  · have : (256 * t + i) % 256 = i := by omega
    omega

/-- `MemRead` after `MemWrite` on FT (R71). -/
theorem ftRead_ftWrite (s : State) {t i t' i' : Nat} (v : Half) (hi : i < 256) (hi' : i' < 256) :
    ftRead (ftWrite t i v s) t' i' = if t' = t ∧ i' = i then v else ftRead s t' i' := by
  simp only [ftRead, ftWrite_ft, ftWrite_powerOns, storageGet_put, ftKey_inj hi' hi]
  split <;> rfl

/-- `MemRead` after `MemWrite` on CT (R71). -/
theorem ctRead_ctWrite (s : State) (k k' : Nat) (v : Half) :
    ctRead (ctWrite k v s) k' = if k' = k then v else ctRead s k' := by
  simp only [ctRead, ctWrite_ct, ctWrite_powerOns, storageGet_put]
  split <;> rfl

/-- `MemRead` after `MemWrite` on WIN (R71). -/
theorem winRead_winWrite (s : State) (i i' : Nat) (v : Half) :
    winRead (winWrite i v s) i' = if i' = i then v else winRead s i' := by
  simp only [winRead, winWrite_win, winWrite_powerOns, storageGet_put]
  split <;> rfl

/-- `MemRead` after `MemWrite` on PBUF (R71). -/
theorem pbufRead_pbufWrite (s : State) (i i' : Nat) (v : Byte) :
    pbufRead (pbufWrite i v s) i' = if i' = i then v else pbufRead s i' := by
  simp only [pbufRead, pbufWrite_pbuf, pbufWrite_powerOns, storageGet_put]
  by_cases h : i' = i
  · simp [h, pbufByteValue]
  · simp [h]

/-- An unwritten bit of a canonical entry is 0. -/
theorem unwritten_bit_zero {v w : Byte} (h : v &&& ~~~w = 0#8) {j : Nat} (hj : j < 8)
    (hw : w.getLsbD j = false) : v.getLsbD j = false := by
  have := congrArg (fun x => x.getLsbD j) h
  simp only [BitVec.getLsbD_and, BitVec.getLsbD_not, hj, hw, BitVec.getLsbD_zero] at this
  simpa using this

/-- The mask of bit `k`, bit by bit. -/
theorem bitMask_getLsbD {k j : Nat} (hk : k < 8) (hj : j < 8) :
    (1#8 <<< k).getLsbD j = decide (j = k) := by
  have : ∀ k, k < 8 → ∀ j, j < 8 → (1#8 <<< k).getLsbD j = decide (j = k) := by decide
  exact this k hk j hj

theorem setBit_getLsbD (v : Byte) {k j : Nat} (b : Bool) (hk : k < 8) (hj : j < 8) :
    (setBit v k b).getLsbD j = if j = k then b else v.getLsbD j := by
  unfold setBit
  rw [BitVec.getLsbD_or, BitVec.getLsbD_and, BitVec.getLsbD_not, bitMask_getLsbD hk hj]
  by_cases h : j = k
  · subst h
    cases b <;> simp [hj]
  · cases b <;> simp only [hj, h, decide_true, decide_false, if_true, if_false, bitMask_getLsbD hk hj,
      Bool.not_false, Bool.and_true, Bool.or_false, BitVec.getLsbD_zero, Bool.false_eq_true]

/-- The value of an entry of PBUF, bit by bit: a written bit is the entry's, another is the free value's. -/
theorem pbufByteValue_getLsbD (e : PbufByte) (free : Byte) {j : Nat} (hj : j < 8)
    (hc : e.value &&& ~~~e.written = 0#8) :
    (pbufByteValue e free).getLsbD j = if e.written.getLsbD j then e.value.getLsbD j else free.getLsbD j := by
  unfold pbufByteValue
  split
  · rename_i h
    have hw : e.written.getLsbD j = true := by
      rw [h]
      have : ∀ k, k < 8 → (0xFF#8).getLsbD k = true := by decide
      exact this j hj
    rw [if_pos hw]
  · rw [BitVec.getLsbD_or, BitVec.getLsbD_and, BitVec.getLsbD_not]
    cases hw : e.written.getLsbD j with
    | true => simp
    | false => rw [unwritten_bit_zero hc hj hw]; simp [hj]

theorem byte_ext {a b : Byte} (h : ∀ j, j < 8 → a.getLsbD j = b.getLsbD j) : a = b :=
  BitVec.eq_of_getLsbD_eq (fun j hj => h j hj)

theorem pbufByteCanonical_value {e : PbufByte} (h : pbufByteCanonical e = true) :
    e.value &&& ~~~e.written = 0#8 := by
  simp only [pbufByteCanonical, Bool.and_eq_true, beq_iff_eq] at h
  exact h.2

/-- Writing one bit keeps an entry in canonical form, even from the entry with nothing written. -/
theorem pbufByteWithBit_canonical {e : PbufByte} {k : Nat} (b : Bool) (hk : k < 8)
    (h : e.value &&& ~~~e.written = 0#8) : pbufByteCanonical (pbufByteWithBit e k b) = true := by
  simp only [pbufByteCanonical, pbufByteWithBit, Bool.and_eq_true, bne_iff_ne, ne_eq, beq_iff_eq]
  constructor
  · intro hz
    have := congrArg (fun x => x.getLsbD k) hz
    simp only [BitVec.getLsbD_or, bitMask_getLsbD hk hk, BitVec.getLsbD_zero] at this
    simp at this
  · apply byte_ext
    intro j hj
    rw [BitVec.getLsbD_and, setBit_getLsbD _ _ hk hj, BitVec.getLsbD_not, BitVec.getLsbD_or,
      bitMask_getLsbD hk hj]
    by_cases hjk : j = k
    · simp [hjk]
    · simp only [hjk, if_false, decide_false, Bool.or_false]
      cases hw : e.written.getLsbD j with
      | true => simp
      | false => simp [unwritten_bit_zero h hj hw]

/-- `MemRead` after one bit is written: that bit is the new one, the byte's others are as they were (R76). -/
theorem pbufRead_pbufWriteBit (s : State) {i k : Nat} (i' : Nat) (b : Bool) (hk : k < 8)
    (hc : ∀ e ∈ s.pbuf, pbufByteCanonical e.2 = true) :
    pbufRead (pbufWriteBit i k b s) i' = if i' = i then setBit (pbufRead s i) k b else pbufRead s i' := by
  by_cases h : i' = i
  · subst h
    simp only [pbufRead, pbufWriteBit_pbuf, pbufWriteBit_powerOns, storageGet_put_same, if_true]
    have hcan : ∀ e, storageGet s.pbuf i' = some e → e.value &&& ~~~e.written = 0#8 := by
      intro e he
      exact pbufByteCanonical_value (hc _ (storageGet_mem _ _ he))
    cases hg : storageGet s.pbuf i' with
    | none =>
      simp only [Option.getD_none]
      apply byte_ext
      intro j hj
      have h0 : (PbufByte.mk 0#8 0#8).value &&& ~~~(PbufByte.mk 0#8 0#8).written = 0#8 := by decide
      rw [pbufByteValue_getLsbD _ _ hj (pbufByteCanonical_value (pbufByteWithBit_canonical b hk h0)),
        setBit_getLsbD _ _ hk hj]
      simp only [pbufByteWithBit, setBit_getLsbD _ _ hk hj, BitVec.getLsbD_or, bitMask_getLsbD hk hj]
      by_cases hjk : j = k <;> simp [hjk]
    | some e =>
      simp only [Option.getD_some]
      apply byte_ext
      intro j hj
      rw [pbufByteValue_getLsbD _ _ hj (pbufByteCanonical_value (pbufByteWithBit_canonical b hk (hcan e hg))),
        setBit_getLsbD _ _ hk hj, pbufByteValue_getLsbD _ _ hj (hcan e hg)]
      simp only [pbufByteWithBit, setBit_getLsbD _ _ hk hj, BitVec.getLsbD_or, bitMask_getLsbD hk hj]
      by_cases hjk : j = k <;> simp [hjk]
  · simp only [pbufRead, pbufWriteBit_pbuf, pbufWriteBit_powerOns, if_neg h,
      storageGet_put_other _ _ _ _ h]

section
variable {s : State} (h : Memory.wf s)
include h

theorem ftWrite_wf {t i : Nat} (v : Half) (ht : t < 4) (hi : i < 256) (hw : i < s.params.wmax) :
    Memory.wf (ftWrite t i v s) :=
  ⟨storagePut_wf _ _ v (ftInside_ftKey ht hi hw) h.1, h.2⟩

theorem ctWrite_wf {k : Nat} (v : Half) (hk : k < s.params.coslen) : Memory.wf (ctWrite k v s) :=
  ⟨h.1, storagePut_wf _ _ v (ctInside_iff.2 hk) h.2.1, h.2.2⟩

theorem winWrite_wf {i : Nat} (v : Half) (hi : i < s.params.wmax) : Memory.wf (winWrite i v s) :=
  ⟨h.1, h.2.1, storagePut_wf _ _ v (winInside_iff.2 hi) h.2.2.1, h.2.2.2⟩

theorem pbufWrite_wf {i : Nat} (v : Byte) (hi : i < s.params.pktMax) : Memory.wf (pbufWrite i v s) := by
  refine ⟨h.1, h.2.1, h.2.2.1, storagePut_wf _ _ _ (pbufInside_iff.2 hi) h.2.2.2.1, ?_⟩
  intro e he
  rcases mem_storagePut _ _ _ he with rfl | he
  · simp [pbufByteCanonical]
  · exact h.2.2.2.2 e he

theorem pbufWriteBit_wf {i k : Nat} (b : Bool) (hk : k < 8) (hi : i < s.params.pktMax) :
    Memory.wf (pbufWriteBit i k b s) := by
  refine ⟨h.1, h.2.1, h.2.2.1, storagePut_wf _ _ _ (pbufInside_iff.2 hi) h.2.2.2.1, ?_⟩
  intro e he
  rcases mem_storagePut _ _ _ he with rfl | he
  · refine pbufByteWithBit_canonical b hk ?_
    cases hg : storageGet s.pbuf i with
    | none => decide
    | some e => exact pbufByteCanonical_value (h.2.2.2.2 _ (storageGet_mem _ _ hg))
  · exact h.2.2.2.2 e he

theorem zeroWindow_memory_wf : Memory.wf { s with win := zeroWindow s.params.wmax } :=
  ⟨h.1, h.2.1, zeroWindow_wf s.params, h.2.2.2⟩

end

theorem reset_memory_wf (p : Params) (n : Nat) : Memory.wf (State.resetWith p n) := by
  refine ⟨⟨List.Pairwise.nil, ?_⟩, ⟨List.Pairwise.nil, ?_⟩, ⟨List.Pairwise.nil, ?_⟩, ⟨List.Pairwise.nil, ?_⟩, ?_⟩ <;>
    intro e he <;> cases he

end Sys2Proof.Machine
end

