-- ==== Sys2Proof/Laws/Framer.lean ====
section
/-! SUPPORT. What the framer's shared operations do, said once: the striping, the validation and `PushBit`
(spec/44_framer.md R221, R240, R245), and which bits of PBUF they write. -/

namespace Sys2Proof.Machine

open Sys2Proof

theorem target_le_pktMax (p : Params) (ty : Byte) : target p ty ≤ p.pktMax := by
  unfold target Params.pktMax Config.ctrlLen
  split
  · exact Nat.le_max_left _ _
  · split
    · exact Nat.le_max_right _ _
    · exact le_trans (by decide) (Nat.le_max_left _ _)

theorem two_le_target (p : Params) (ty : Byte) : 2 ≤ target p ty := by
  unfold target Params.dataLen Config.ctrlLen
  split
  · decide
  · split <;> omega

/-- What un-striping makes of a byte (R245). -/
def stripedValue (version : Byte) (i : Nat) (v : Byte) : Byte :=
  match stripeMask version i with
  | none => v
  | some m => v ^^^ m

/-- Striping a byte twice gives it back (R246). -/
theorem stripedValue_involutive (version : Byte) (i : Nat) (v : Byte) :
    stripedValue version i (stripedValue version i v) = v := by
  unfold stripedValue
  cases stripeMask version i with
  | none => rfl
  | some m => simp

/-- The striping of one byte changes PBUF only. -/
theorem stripeByte_frame (version : Byte) (i : Nat) (s : State) :
    stripeByte version i s = { s with pbuf := (stripeByte version i s).pbuf } := by
  unfold stripeByte
  cases stripeMask version i <;> rfl

theorem pbufRead_stripeByte (version : Byte) (i j : Nat) (s : State) :
    pbufRead (stripeByte version i s) j =
      if j = i then stripedValue version i (pbufRead s i) else pbufRead s j := by
  unfold stripeByte stripedValue
  cases stripeMask version i with
  | none => by_cases h : j = i <;> simp [h]
  | some m => simp only [pbufRead_pbufWrite]

/-- Two states that differ in PBUF only agree once it is replaced. -/
theorem with_pbuf_eq {s t : State} (h : t = { s with pbuf := t.pbuf }) (m : Storage PbufByte) :
    { t with pbuf := m } = { s with pbuf := m } := by
  rw [h]

/-- The striping changes PBUF only. -/
theorem stripe_frame (version : Byte) (lo n : Nat) (s : State) :
    stripe version lo n s = { s with pbuf := (stripe version lo n s).pbuf } := by
  induction n with
  | zero => rfl
  | succ n ih =>
    exact (stripeByte_frame version (lo + n) (stripe version lo n s)).trans (with_pbuf_eq ih _)

section
variable (version : Byte) (lo n : Nat) (s : State)

@[simp] theorem stripe_params : (stripe version lo n s).params = s.params := by rw [stripe_frame]
@[simp] theorem stripe_regs : (stripe version lo n s).regs = s.regs := by rw [stripe_frame]
@[simp] theorem stripe_ft : (stripe version lo n s).ft = s.ft := by rw [stripe_frame]
@[simp] theorem stripe_ct : (stripe version lo n s).ct = s.ct := by rw [stripe_frame]
@[simp] theorem stripe_win : (stripe version lo n s).win = s.win := by rw [stripe_frame]
@[simp] theorem stripe_response : (stripe version lo n s).response = s.response := by rw [stripe_frame]
@[simp] theorem stripe_inbox : (stripe version lo n s).inbox = s.inbox := by rw [stripe_frame]
@[simp] theorem stripe_powerOns : (stripe version lo n s).powerOns = s.powerOns := by rw [stripe_frame]
end

/-- What PBUF reads after `Stripe` (R245): the bytes of the span are XORed, every other byte is as it was. -/
theorem pbufRead_stripe (version : Byte) (lo n j : Nat) (s : State) :
    pbufRead (stripe version lo n s) j =
      if lo ≤ j ∧ j < lo + n then stripedValue version j (pbufRead s j) else pbufRead s j := by
  induction n with
  | zero => rw [if_neg (by omega)]; rfl
  | succ n ih =>
    unfold stripe
    rw [pbufRead_stripeByte]
    by_cases h : j = lo + n
    · subst h
      rw [if_pos rfl, ih, if_neg (by omega), if_pos (by omega)]
    · rw [if_neg h, ih]
      by_cases h2 : lo ≤ j ∧ j < lo + n
      · rw [if_pos h2, if_pos (by omega)]
      · rw [if_neg h2, if_neg (by omega)]

theorem stripeByte_wf {version : Byte} {i : Nat} {s : State} (h : Memory.wf s) (hi : i < s.params.pktMax) :
    Memory.wf (stripeByte version i s) := by
  unfold stripeByte
  cases stripeMask version i with
  | none => exact h
  | some m => exact pbufWrite_wf h _ hi

theorem stripe_wf {version : Byte} {lo n : Nat} {s : State} (h : Memory.wf s) (hi : lo + n ≤ s.params.pktMax) :
    Memory.wf (stripe version lo n s) := by
  induction n with
  | zero => exact h
  | succ n ih =>
    unfold stripe
    refine stripeByte_wf (ih (by omega)) ?_
    rw [stripe_params]
    omega

/-- The validation changes PBUF only. -/
theorem validate_frame (n : Nat) (s : State) :
    (validate n s).state = { s with pbuf := (validate n s).state.pbuf } := by
  unfold validate
  split
  · rfl
  · split
    · exact stripe_frame _ _ _ _
    · rfl

/-- What PBUF reads after the validation of a candidate of `n` bytes: only a data packet's span is changed
(R241 to R243). -/
theorem pbufRead_validate (n j : Nat) (s : State) :
    pbufRead (validate n s).state j =
      if pbufRead s 1 = Config.tagData ∧ 2 ≤ j ∧ j < 2 + (n - 4 - 2) then
        stripedValue (pbufRead s 0) j (pbufRead s j)
      else pbufRead s j := by
  unfold validate
  split
  · rename_i h
    have h2 : pbufRead s 1 ≠ Config.tagData := by rw [h]; decide
    simp [h2]
  · split
    · rename_i h
      simp [h, pbufRead_stripe]
    · rename_i h
      simp [h]

/-- A full byte leaves PBUF and the framer's position changed at most. -/
theorem byteFilled_frame (n : BitVec 16) (s : State) :
    ∃ m n' , (byteFilled n s).state =
      { s with pbuf := m, regs := { s.regs with byteOff := n', bitOff := 0#3 } } := by
  unfold byteFilled
  split
  · exact ⟨s.pbuf, n, rfl⟩
  · split
    · exact ⟨s.pbuf, n, rfl⟩
    · refine ⟨(validate (target s.params (pbufRead s 1)) s).state.pbuf, 0#16, ?_⟩
      have h := validate_frame (target s.params (pbufRead s 1)) s
      simp only [setPosition, State.setRegs]
      rw [h]

/-- `PushBit` changes PBUF and the framer's position at most (R221). -/
theorem pushBit_frame (b : Bool) (s : State) :
    ∃ m n k, (pushBit b s).state =
      { s with pbuf := m, regs := { s.regs with byteOff := n, bitOff := k } } := by
  unfold pushBit
  split
  · exact ⟨_, _, _, rfl⟩
  · obtain ⟨m, n, h⟩ := byteFilled_frame (s.regs.byteOff + 1#16)
      (pbufWriteBit s.regs.byteOff.toNat s.regs.bitOff.toNat b s)
    exact ⟨m, n, 0#3, by rw [h]; rfl⟩

section
variable (b : Bool) (s : State)

@[simp] theorem pushBit_params : (pushBit b s).state.params = s.params := by
  obtain ⟨m, n, k, h⟩ := pushBit_frame b s; rw [h]
@[simp] theorem pushBit_ft : (pushBit b s).state.ft = s.ft := by
  obtain ⟨m, n, k, h⟩ := pushBit_frame b s; rw [h]
@[simp] theorem pushBit_ct : (pushBit b s).state.ct = s.ct := by
  obtain ⟨m, n, k, h⟩ := pushBit_frame b s; rw [h]
@[simp] theorem pushBit_win : (pushBit b s).state.win = s.win := by
  obtain ⟨m, n, k, h⟩ := pushBit_frame b s; rw [h]
@[simp] theorem pushBit_response : (pushBit b s).state.response = s.response := by
  obtain ⟨m, n, k, h⟩ := pushBit_frame b s; rw [h]
@[simp] theorem pushBit_inbox : (pushBit b s).state.inbox = s.inbox := by
  obtain ⟨m, n, k, h⟩ := pushBit_frame b s; rw [h]
@[simp] theorem pushBit_powerOns : (pushBit b s).state.powerOns = s.powerOns := by
  obtain ⟨m, n, k, h⟩ := pushBit_frame b s; rw [h]
end

/-- The state with the pushed bit stored and nothing else done yet (R221). -/
abbrev bitStored (b : Bool) (s : State) : State :=
  pbufWriteBit s.regs.byteOff.toNat s.regs.bitOff.toNat b s

/-- Everything `PushBit` can do (R221): the byte is not full; it is full and the candidate is not complete; or the
candidate is complete, is validated, and the position returns to 0. -/
theorem pushBit_cases (b : Bool) (s : State) :
    (s.regs.bitOff.toNat < 7 ∧
      pushBit b s =
        { state := setPosition s.regs.byteOff (s.regs.bitOff + 1#3) (bitStored b s), result := 0#32 }) ∨
    (s.regs.bitOff.toNat = 7 ∧
      ((s.regs.byteOff + 1#16).toNat < 2 ∨
        (s.regs.byteOff + 1#16).toNat < target s.params (pbufRead (bitStored b s) 1)) ∧
      pushBit b s = { state := setPosition (s.regs.byteOff + 1#16) 0#3 (bitStored b s), result := 0#32 }) ∨
    (s.regs.bitOff.toNat = 7 ∧ 2 ≤ (s.regs.byteOff + 1#16).toNat ∧
      target s.params (pbufRead (bitStored b s) 1) ≤ (s.regs.byteOff + 1#16).toNat ∧
      pushBit b s =
        { state := setPosition 0#16 0#3
            (validate (target s.params (pbufRead (bitStored b s) 1)) (bitStored b s)).state
          result := packetResult (pbufRead (bitStored b s) 1)
            (validate (target s.params (pbufRead (bitStored b s) 1)) (bitStored b s)).valid }) := by
  have hb : s.regs.bitOff.toNat < 8 := s.regs.bitOff.isLt
  by_cases h : s.regs.bitOff.toNat + 1 < 8
  · left
    exact ⟨by omega, by simp only [pushBit, if_pos h]⟩
  · right
    have e : pushBit b s = byteFilled (s.regs.byteOff + 1#16)
        (bitStored b s) := by
      simp only [pushBit, if_neg h]
    by_cases h2 : (s.regs.byteOff + 1#16).toNat < 2
    · left
      exact ⟨by omega, Or.inl h2, by rw [e]; simp only [byteFilled, if_pos h2]⟩
    · by_cases h3 : (s.regs.byteOff + 1#16).toNat < target s.params
          (pbufRead (bitStored b s) 1)
      · left
        exact ⟨by omega, Or.inr h3, by rw [e]; simp only [byteFilled, if_neg h2]; exact if_pos h3⟩
      · right
        exact ⟨by omega, by omega, by omega,
          by rw [e]; simp only [byteFilled, if_neg h2]; exact if_neg h3⟩

/-- The validation keeps the canonical form. -/
theorem validate_wf {s : State} (ty : Byte) (h : Memory.wf s) :
    Memory.wf (validate (target s.params ty) s).state := by
  unfold validate
  split
  · exact h
  · split
    · apply stripe_wf h
      have := target_le_pktMax s.params ty
      have := two_le_target s.params ty
      have : 31 ≤ s.params.pktMax := Nat.le_max_left _ _
      omega
    · exact h

/-- Which bit of PBUF a stored bit changes (R76). -/
theorem pbufRead_bitStored {s : State} (b : Bool) (hw : Memory.wf s) {i k : Nat} (hk : k < 8) :
    (pbufRead (bitStored b s) i).getLsbD k =
      if i = s.regs.byteOff.toNat ∧ k = s.regs.bitOff.toNat then b else (pbufRead s i).getLsbD k := by
  rw [pbufRead_pbufWriteBit _ _ _ s.regs.bitOff.isLt hw.2.2.2.2]
  by_cases h : i = s.regs.byteOff.toNat
  · rw [if_pos h, setBit_getLsbD _ _ s.regs.bitOff.isLt hk, h]
    by_cases h2 : k = s.regs.bitOff.toNat <;> simp [h2]
  · rw [if_neg h, if_neg (fun hh => h hh.1)]

/-- A position inside PBUF can move to the next byte without wrapping (R61). -/
theorem byteOff_succ {s : State} (hp : s.params.Legal) (hi : s.regs.byteOff.toNat < s.params.pktMax) :
    (s.regs.byteOff + 1#16).toNat = s.regs.byteOff.toNat + 1 := by
  have hm : s.params.pktMax ≤ 65535 := hp.2.2.2.2
  rw [BitVec.toNat_add]
  simp only [BitVec.toNat_ofNat]
  omega

/-- `PushBit` keeps the canonical form. -/
theorem pushBit_wf (b : Bool) {s : State} (h : Memory.wf s) (hp : s.regs.byteOff.toNat < s.params.pktMax) :
    Memory.wf (pushBit b s).state := by
  have h1 : Memory.wf (bitStored b s) := pbufWriteBit_wf h b s.regs.bitOff.isLt hp
  rcases pushBit_cases b s with ⟨-, e⟩ | ⟨-, -, e⟩ | ⟨-, -, -, e⟩ <;> rw [e]
  · exact h1
  · exact h1
  · exact validate_wf _ h1

/-- Two states that hold the same packet buffer: the parameters, PBUF and its free contents. -/
abbrev SamePbuf (s u : State) : Prop := u.params = s.params ∧ u.pbuf = s.pbuf ∧ u.powerOns = s.powerOns

theorem pbufRead_congr {s u : State} (h : SamePbuf s u) (i : Nat) : pbufRead u i = pbufRead s i := by
  unfold pbufRead
  rw [h.2.1, h.2.2]

theorem hashMatches_congr {s u : State} (h : SamePbuf s u) (n : Nat) : hashMatches u n = hashMatches s n := by
  have hr : pbufRead u = pbufRead s := funext (pbufRead_congr h)
  unfold hashMatches pbufBytes pbufWord
  rw [hr, h.1]

theorem stripe_congr {s u : State} (h : SamePbuf s u) (version : Byte) (lo n : Nat) :
    SamePbuf (stripe version lo n s) (stripe version lo n u) := by
  induction n with
  | zero => exact h
  | succ n ih =>
    unfold stripe stripeByte
    cases stripeMask version (lo + n) with
    | none => exact ih
    | some m =>
      refine ⟨ih.1, ?_, ih.2.2⟩
      simp only [pbufWrite_pbuf]
      rw [ih.2.1, pbufRead_congr ih]

theorem validate_congr {s u : State} (h : SamePbuf s u) (n : Nat) :
    SamePbuf (validate n s).state (validate n u).state ∧ (validate n u).valid = (validate n s).valid := by
  unfold validate
  rw [pbufRead_congr h, pbufRead_congr h]
  split
  · exact ⟨h, hashMatches_congr h n⟩
  · split
    · have hs := stripe_congr h (pbufRead s 0) 2 (n - 4 - 2)
      exact ⟨hs, hashMatches_congr hs n⟩
    · exact ⟨h, rfl⟩

theorem bitStored_congr {s u : State} (b : Bool) (h : SamePbuf s u) (h1 : u.regs.byteOff = s.regs.byteOff)
    (h2 : u.regs.bitOff = s.regs.bitOff) : SamePbuf (bitStored b s) (bitStored b u) := by
  refine ⟨h.1, ?_, h.2.2⟩
  simp only [pbufWriteBit_pbuf]
  rw [h.2.1, h1, h2]

/-- `PushBit` looks at the packet buffer and the framer's position only. -/
theorem pushBit_congr {s u : State} (b : Bool) (h : SamePbuf s u) (h1 : u.regs.byteOff = s.regs.byteOff)
    (h2 : u.regs.bitOff = s.regs.bitOff) :
    (pushBit b u).result = (pushBit b s).result ∧ (pushBit b u).state.pbuf = (pushBit b s).state.pbuf ∧
      (pushBit b u).state.regs.byteOff = (pushBit b s).state.regs.byteOff ∧
      (pushBit b u).state.regs.bitOff = (pushBit b s).state.regs.bitOff := by
  have hb := bitStored_congr b h h1 h2
  have hv := validate_congr hb (target s.params (pbufRead (bitStored b s) 1))
  have hr := pbufRead_congr hb 1
  rcases pushBit_cases b s with ⟨a1, e⟩ | ⟨a1, a2, e⟩ | ⟨a1, a2, a3, e⟩ <;>
    rcases pushBit_cases b u with ⟨c1, e'⟩ | ⟨c1, c2, e'⟩ | ⟨c1, c2, c3, e'⟩ <;> rw [h2] at c1 <;>
    try rw [h1] at c2
  all_goals try rw [h.1, hr] at c2
  all_goals try rw [h1, h.1, hr] at c3
  all_goals try omega
  · rw [e, e']
    exact ⟨rfl, hb.2.1, h1, by simp only [setPosition_regs, h2]⟩
  · rw [e, e']
    exact ⟨rfl, hb.2.1, by simp only [setPosition_regs, h1], rfl⟩
  · rw [e, e', hr, h.1, hv.2]
    exact ⟨rfl, hv.1.2.1, rfl, rfl⟩

/-- Which bits are written after one bit is written. -/
theorem pbufBitWritten_pbufWriteBit (s : State) {i k : Nat} (i' k' : Nat) (b : Bool) (hk : k < 8) (hk' : k' < 8) :
    pbufBitWritten (pbufWriteBit i k b s) i' k' = ((i' == i && k' == k) || pbufBitWritten s i' k') := by
  unfold pbufBitWritten
  rw [pbufWriteBit_pbuf, storageGet_put]
  by_cases h : i' = i
  · subst h
    simp only [if_true, pbufByteWithBit, BitVec.getLsbD_or, bitMask_getLsbD hk hk', beq_self_eq_true, Bool.true_and]
    cases storageGet s.pbuf i' with
    | none => by_cases hkk : k' = k <;> simp [hkk]
    | some e => by_cases hkk : k' = k <;> simp [hkk]
  · simp [h]

/-- Which bits are written after a whole byte is written. -/
theorem pbufBitWritten_pbufWrite (s : State) (i i' k' : Nat) (v : Byte) (hk' : k' < 8) :
    pbufBitWritten (pbufWrite i v s) i' k' = ((i' == i) || pbufBitWritten s i' k') := by
  unfold pbufBitWritten
  rw [pbufWrite_pbuf, storageGet_put]
  by_cases h : i' = i
  · subst h
    have : ∀ k, k < 8 → (0xFF#8).getLsbD k = true := by decide
    simpa using this k' hk'
  · simp [h]

/-- A written bit stays written through the striping. -/
theorem pbufBitWritten_stripe {version : Byte} {lo n i k : Nat} {s : State} (hk : k < 8)
    (h : pbufBitWritten s i k = true) : pbufBitWritten (stripe version lo n s) i k = true := by
  induction n with
  | zero => exact h
  | succ n ih =>
    unfold stripe stripeByte
    cases stripeMask version (lo + n) with
    | none => exact ih
    | some m => rw [pbufBitWritten_pbufWrite _ _ _ _ _ hk, ih, Bool.or_true]

end Sys2Proof.Machine
end

