-- ==== Sys2Proof/Laws/Units.lean ====
section
/-! SUPPORT. The arithmetic of the accumulators (spec/00_scope.md R19) and what the samples of DEM and MOD leave in each
field, said once. -/

namespace Sys2Proof.Machine

open Sys2Proof

theorem sum33_toNat (a b : Word) : (sum33 a b).toNat = a.toNat + b.toNat := by
  have ha := a.isLt
  have hb := b.isLt
  simp only [sum33, BitVec.toNat_add, BitVec.toNat_setWidth]
  omega

/-- `sum33[31:0]` is the sum modulo 2^32 (R19). -/
@[simp] theorem sumLow_eq_add (a b : Word) : sumLow a b = a + b := by
  apply BitVec.eq_of_toNat_eq
  simp only [sumLow, BitVec.extractLsb'_toNat, sum33_toNat, BitVec.toNat_add, Nat.shiftRight_zero]

/-- `sum33[32]` is 1 exactly when the exact sum reaches 2^32 (R19). -/
theorem sumCarry_iff (a b : Word) : sumCarry a b = true ↔ 2 ^ 32 ≤ a.toNat + b.toNat := by
  have ha := a.isLt
  have hb := b.isLt
  simp only [sumCarry, BitVec.getLsbD, sum33_toNat, Nat.testBit_eq_decide_div_mod_eq, decide_eq_true_eq]
  omega

/-- `LOCKLOSS` is the unsigned comparison of R45. -/
theorem lockLoss_iff (r : Regs) : lockLoss r = true ↔ r.demRunmax.toNat < r.demRunlen.toNat := by
  simp only [lockLoss, BitVec.ult, decide_eq_true_eq]

/-- DEM's configuration, as numbers (R164). -/
theorem demConfigLegal_iff (p : Params) (r : Regs) : demConfigLegal p r = true ↔
    1 ≤ r.demWindow.toNat ∧ r.demWindow.toNat ≤ p.wmax ∧ r.demPllInc ≠ 0#32 ∧
      r.demPllAdj.toNat < 2 ^ 31 := by
  simp only [demConfigLegal, Bool.and_eq_true, decide_eq_true_eq, bne_iff_ne, ne_eq, BitVec.ult, and_assoc]
  simp

theorem windowInside_iff (s : State) : windowInside s = true ↔
    1 ≤ s.regs.demWindow.toNat ∧ s.regs.demWindow.toNat ≤ s.params.wmax ∧
      s.regs.wrPtr.toNat < s.params.wmax := by
  simp only [windowInside, Bool.and_eq_true, decide_eq_true_eq, and_assoc]
  rfl

theorem positionInside_iff (s : State) :
    positionInside s = true ↔ s.regs.byteOff.toNat < s.params.pktMax := by
  simp only [positionInside, decide_eq_true_eq]

/-- Everything a sample changes in the state, before an emitted bit is pushed (R170 to R177). -/
theorem demodulate_state (v : Half) (s : State) :
    (demodulate v s).state =
      { s with
        win := storagePut s.win s.regs.wrPtr.toNat v
        regs := { s.regs with
          wrPtr := BitVec.ofNat 8 ((s.regs.wrPtr.toNat + 1) % s.regs.demWindow.toNat)
          prevDec := (demodulate v s).dec
          demRunlen := nextRunLength (demodulate v s).trans s.regs.demRunlen
          demPhase := nudge (demodulate v s).trans (s.regs.demPhase + s.regs.demPllInc) s.regs.demPllAdj } } := by
  simp only [demodulate, sumLow_eq_add]
  rfl

theorem demodulate_trans (v : Half) (s : State) :
    (demodulate v s).trans = ((demodulate v s).dec != s.regs.prevDec) := rfl

theorem demodulate_wrapped (v : Half) (s : State) :
    (demodulate v s).wrapped = sumCarry s.regs.demPhase s.regs.demPllInc := rfl

/-- The sum of R172 as a sum over the numbers below `n`. -/
theorem sumBelow_eq_sum (f : Nat → Int) (n : Nat) : sumBelow f n = ∑ j ∈ Finset.range n, f j := by
  induction n with
  | zero => rfl
  | succ n ih => rw [Finset.sum_range_succ, ← ih]; rfl

theorem sumBelow_congr {f g : Nat → Int} {n : Nat} (h : ∀ j, j < n → f j = g j) :
    sumBelow f n = sumBelow g n := by
  induction n with
  | zero => rfl
  | succ n ih =>
    simp only [sumBelow]
    rw [ih (fun j hj => h j (by omega)), h n (by omega)]

/-- MOD's registers after a sample; the tone phase and the baud fraction as sums modulo 2^32 (R208, R209). -/
theorem modAdvance_eq (b : Bool) (r : Regs) :
    modAdvance b r =
      { r with
        curBit := polledBit b r
        needBit := sumCarry r.modBaud r.modBaudInc
        modPhase := r.modPhase + toneIncrement (polledBit b r) r
        modBaud := r.modBaud + r.modBaudInc } := by
  simp only [modAdvance, sumLow_eq_add]

/-- The index MOD looks up is always inside CT (R71). -/
theorem cosIndex_inside {p : Params} (h : p.cosBits ≤ 32) (phase : Word) : cosIndex p phase < p.coslen := by
  have hp := phase.isLt
  unfold cosIndex Params.coslen
  rw [Nat.div_lt_iff_lt_mul (by positivity), ← pow_add]
  have : p.cosBits + (32 - p.cosBits) = 32 := by omega
  rw [this]
  exact hp

end Sys2Proof.Machine
end

