-- ==== Sys2Proof/Laws/Words.lean ====
section
/-! SUPPORT. The words that the registers and the responses are made of, as numbers: each field at its place
(spec/10_state.md R42 to R61, spec/42_demodulator.md R179, spec/43_modulator.md R210, spec/44_framer.md R228). -/

namespace Sys2Proof.Machine

open Sys2Proof

/-- Two fields side by side, as a number. -/
theorem append_toNat {m n : Nat} (a : BitVec m) (b : BitVec n) : (a ++ b).toNat = 2 ^ n * a.toNat + b.toNat := by
  rw [BitVec.toNat_append, Nat.shiftLeft_eq, Nat.mul_comm, Nat.two_pow_add_eq_or_of_lt b.isLt]

theorem ofBool_toNat (b : Bool) : (BitVec.ofBool b).toNat = b.toNat := by cases b <;> rfl

theorem zext16_toNat (v : Half) : (zext16 v).toNat = v.toNat := by
  refine (append_toNat (0#16) v).trans ?_
  simp

theorem zext8_toNat (v : Byte) : (zext8 v).toNat = v.toNat := by
  refine (append_toNat (0#24) v).trans ?_
  simp

theorem modResponse_toNat (v : Half) (b : Bool) : (modResponse v b).toNat = v.toNat + 2 ^ 16 * b.toNat := by
  refine (append_toNat (0#15 ++ BitVec.ofBool b) v).trans ?_
  rw [append_toNat, ofBool_toNat]
  simp only [BitVec.toNat_ofNat]
  omega

theorem statusWord_toNat (r : Regs) : (statusWord r).toNat =
    r.demReady.toNat + 2 * r.modReady.toNat + 4 * (lockLoss r).toNat + 2 ^ 8 * r.sticky.toNat := by
  refine (append_toNat (0#19 ++ r.sticky ++ 0#5 ++ BitVec.ofBool (lockLoss r) ++ BitVec.ofBool r.modReady)
    (BitVec.ofBool r.demReady)).trans ?_
  simp only [append_toNat, ofBool_toNat, BitVec.toNat_ofNat]
  omega

theorem ctrlWord_toNat (r : Regs) : (ctrlWord r).toNat = r.chain.toNat := by
  refine (append_toNat (0#31) (BitVec.ofBool r.chain)).trans ?_
  simp

theorem lastErrWord_toNat (r : Regs) : (lastErrWord r).toNat = r.lastErrCode.toNat + 2 ^ 8 * r.lastErrOp.toNat := by
  refine (append_toNat (0#16 ++ r.lastErrOp) r.lastErrCode).trans ?_
  rw [append_toNat]
  simp only [BitVec.toNat_ofNat]
  omega

theorem demStateWord_toNat (r : Regs) : (demStateWord r).toNat = r.prevDec.toNat + 2 ^ 8 * r.wrPtr.toNat := by
  refine (append_toNat (0#16 ++ r.wrPtr ++ 0#7) (BitVec.ofBool r.prevDec)).trans ?_
  simp only [append_toNat, ofBool_toNat, BitVec.toNat_ofNat]
  omega

theorem modStateWord_toNat (r : Regs) : (modStateWord r).toNat = r.curBit.toNat + 2 * r.needBit.toNat := by
  refine (append_toNat (0#30 ++ BitVec.ofBool r.needBit) (BitVec.ofBool r.curBit)).trans ?_
  simp only [append_toNat, ofBool_toNat, BitVec.toNat_ofNat]
  omega

theorem frmPosWord_toNat (r : Regs) : (frmPosWord r).toNat = r.byteOff.toNat + 2 ^ 16 * r.bitOff.toNat := by
  refine (append_toNat (0#13 ++ r.bitOff) r.byteOff).trans ?_
  rw [append_toNat]
  simp only [BitVec.toNat_ofNat]
  omega

theorem param0Word_toNat {p : Params} (h : p.Legal) :
    (param0Word p).toNat = p.wmax + 2 ^ 8 * p.cosBits + 2 ^ 16 * p.pktMax := by
  obtain ⟨-, h1, -, h2, h3⟩ := h
  refine (append_toNat (BitVec.ofNat 16 p.pktMax ++ 0#4 ++ BitVec.ofNat 4 p.cosBits) (BitVec.ofNat 8 p.wmax)).trans ?_
  simp only [append_toNat, BitVec.toNat_ofNat]
  omega

theorem param1Word_toNat {p : Params} (h : p.Legal) :
    (param1Word p).toNat = 31 + 2 ^ 16 * (10 + p.payloadLen) := by
  obtain ⟨-, -, -, -, h3⟩ := h
  refine (append_toNat (BitVec.ofNat 16 p.dataLen) (BitVec.ofNat 16 Config.ctrlLen)).trans ?_
  simp only [BitVec.toNat_ofNat, Params.dataLen, Config.ctrlLen]
  have : 10 + p.payloadLen ≤ 65535 := le_trans (Nat.le_max_right _ _) h3
  omega

theorem packetResult_toNat (ty : Byte) (valid : Bool) :
    (packetResult ty valid).toNat = 2 ^ 8 + 2 ^ 9 * valid.toNat + 2 ^ 10 * ty.toNat := by
  refine (append_toNat (0#14 ++ ty ++ BitVec.ofBool valid ++ 1#1) (0#8)).trans ?_
  simp only [append_toNat, ofBool_toNat, BitVec.toNat_ofNat]
  omega

theorem demResponse_toNat (pkt : BitVec 10) (lockloss : Bool) (d : Demodulated) :
    (demResponse pkt lockloss d).toNat =
      (d.wrapped && d.dec).toNat + 2 * d.wrapped.toNat + 4 * d.trans.toNat + 8 * d.dec.toNat +
        16 * lockloss.toNat + 2 ^ 8 * pkt.toNat := by
  refine (append_toNat (0#14 ++ pkt ++ 0#3 ++ BitVec.ofBool lockloss ++ BitVec.ofBool d.dec ++
    BitVec.ofBool d.trans ++ BitVec.ofBool d.wrapped) (BitVec.ofBool (d.wrapped && d.dec))).trans ?_
  simp only [append_toNat, ofBool_toNat, BitVec.toNat_ofNat]
  omega

/-- The little-endian word of four bytes, as a number (spec/20_memory.md R72). -/
theorem le32_toNat (a b c d : Byte) :
    (le32 a b c d).toNat = a.toNat + 2 ^ 8 * b.toNat + 2 ^ 16 * c.toNat + 2 ^ 24 * d.toNat := by
  refine (append_toNat (d ++ c ++ b) a).trans ?_
  simp only [append_toNat]
  omega

/-- Its four bytes are determined by the word. -/
theorem le32_inj {a b c d a' b' c' d' : Byte} (h : le32 a b c d = le32 a' b' c' d') :
    a = a' ∧ b = b' ∧ c = c' ∧ d = d' := by
  have hn : (le32 a b c d).toNat = (le32 a' b' c' d').toNat := by rw [h]
  rw [le32_toNat, le32_toNat] at hn
  have h1 := a.isLt; have h2 := b.isLt; have h3 := c.isLt; have h4 := d.isLt
  have h5 := a'.isLt; have h6 := b'.isLt; have h7 := c'.isLt; have h8 := d'.isLt
  refine ⟨?_, ?_, ?_, ?_⟩ <;> apply BitVec.eq_of_toNat_eq <;> omega

/-- What the hash check compares, byte by byte (R251). -/
theorem hashMatches_iff (s : State) (n : Nat) : hashMatches s n = true ↔
    (hash32 ((List.range (n - 4)).map (pbufRead s)) s.params.hashSeed).toNat =
      (pbufRead s (n - 4)).toNat + 2 ^ 8 * (pbufRead s (n - 4 + 1)).toNat +
        2 ^ 16 * (pbufRead s (n - 4 + 2)).toNat + 2 ^ 24 * (pbufRead s (n - 4 + 3)).toNat := by
  unfold hashMatches pbufWord pbufBytes
  rw [← le32_toNat, beq_iff_eq]
  simp only [Nat.zero_add]
  exact BitVec.toNat_inj.symm

/-- `respond`, with the data as a number. -/
theorem respond_eq (v : Word) (s : State) : respond v s = { s with response := okWith v.toNat } := by
  simp [respond, okWith]

/-- Addition modulo 2^32 through the exact sum. -/
theorem word_add_eq (a b : Word) : a + b = BitVec.ofNat 32 (a.toNat + b.toNat) := by
  apply BitVec.eq_of_toNat_eq
  simp

end Sys2Proof.Machine
end

