-- ==== Sys2Proof/Laws/Exec.lean ====
section
/-! SUPPORT. What each command's meaning can answer, said once per meaning that checks anything: which fault, or which
state, with the conditions. Later proofs take a command apart with these and unfold no meaning. -/

namespace Sys2Proof.Machine

open Sys2Proof

theorem execCsrr_cases (idx : BitVec 16) (s : State) :
    (csrOfIndex idx = none ∧ execCsrr idx s = .next (raiseFault .errIdx 0x01#8 s)) ∨
    ∃ c, csrOfIndex idx = some c ∧ execCsrr idx s = .next (respond (csrRead c s) s) := by
  unfold execCsrr
  cases csrOfIndex idx with
  | none => exact .inl ⟨rfl, rfl⟩
  | some c => exact .inr ⟨c, rfl, rfl⟩

theorem execCsrw_cases (idx : BitVec 16) (v : Word) (s : State) :
    (csrOfIndex idx = none ∧ execCsrw idx v s = .next (raiseFault .errIdx 0x02#8 s)) ∨
    ∃ c, csrOfIndex idx = some c ∧
      ((csrAccess c = .ro ∧ execCsrw idx v s = .next (raiseFault .errAccess 0x02#8 s)) ∨
        (csrAccess c ≠ .ro ∧ locked (csrAccess c) s.regs = true ∧
          execCsrw idx v s = .next (raiseFault .errState 0x02#8 s)) ∨
        (csrAccess c ≠ .ro ∧ locked (csrAccess c) s.regs = false ∧
          execCsrw idx v s = .next (respond 0#32 (s.setRegs (csrWrite c v s.regs))))) := by
  unfold execCsrw
  cases csrOfIndex idx with
  | none => exact .inl ⟨rfl, rfl⟩
  | some c =>
    refine .inr ⟨c, rfl, ?_⟩
    by_cases ha : csrAccess c = .ro
    · exact .inl ⟨ha, by simp only [ha, if_true]; rfl⟩
    · cases hl : locked (csrAccess c) s.regs with
      | true => exact .inr (.inl ⟨ha, rfl, by simp only [ha, if_false, hl, if_true]; rfl⟩)
      | false => exact .inr (.inr ⟨ha, rfl, by simp only [ha, if_false, hl, Bool.false_eq_true]⟩)

theorem execFtWr_cases (zero : BitVec 6) (k : BitVec 2) (i : BitVec 8) (v : Half) (s : State) :
    (ftIndexLegal s.params zero i = false ∧ execFtWr zero k i v s = .next (raiseFault .errIdx 0x10#8 s)) ∨
    (ftIndexLegal s.params zero i = true ∧ s.regs.demReady = true ∧
      execFtWr zero k i v s = .next (raiseFault .errState 0x10#8 s)) ∨
    (ftIndexLegal s.params zero i = true ∧ s.regs.demReady = false ∧
      execFtWr zero k i v s = .next (respond 0#32 (ftWrite k.toNat i.toNat v s))) := by
  unfold execFtWr
  cases ftIndexLegal s.params zero i with
  | false => exact .inl ⟨rfl, rfl⟩
  | true =>
    cases s.regs.demReady with
    | true => exact .inr (.inl ⟨rfl, rfl, rfl⟩)
    | false => exact .inr (.inr ⟨rfl, rfl, rfl⟩)

theorem execFtRd_cases (zero : BitVec 6) (k : BitVec 2) (i : BitVec 8) (s : State) :
    (ftIndexLegal s.params zero i = false ∧ execFtRd zero k i s = .next (raiseFault .errIdx 0x11#8 s)) ∨
    (ftIndexLegal s.params zero i = true ∧
      execFtRd zero k i s = .next (respond (zext16 (ftRead s k.toNat i.toNat)) s)) := by
  unfold execFtRd
  cases ftIndexLegal s.params zero i with
  | false => exact .inl ⟨rfl, rfl⟩
  | true => exact .inr ⟨rfl, rfl⟩

theorem execCtWr_cases (k : BitVec 16) (v : Half) (s : State) :
    (ctIndexLegal s.params k = false ∧ execCtWr k v s = .next (raiseFault .errIdx 0x12#8 s)) ∨
    (ctIndexLegal s.params k = true ∧ s.regs.modReady = true ∧
      execCtWr k v s = .next (raiseFault .errState 0x12#8 s)) ∨
    (ctIndexLegal s.params k = true ∧ s.regs.modReady = false ∧
      execCtWr k v s = .next (respond 0#32 (ctWrite k.toNat v s))) := by
  unfold execCtWr
  cases ctIndexLegal s.params k with
  | false => exact .inl ⟨rfl, rfl⟩
  | true =>
    cases s.regs.modReady with
    | true => exact .inr (.inl ⟨rfl, rfl, rfl⟩)
    | false => exact .inr (.inr ⟨rfl, rfl, rfl⟩)

theorem execCtRd_cases (k : BitVec 16) (s : State) :
    (ctIndexLegal s.params k = false ∧ execCtRd k s = .next (raiseFault .errIdx 0x13#8 s)) ∨
    (ctIndexLegal s.params k = true ∧ execCtRd k s = .next (respond (zext16 (ctRead s k.toNat)) s)) := by
  unfold execCtRd
  cases ctIndexLegal s.params k with
  | false => exact .inl ⟨rfl, rfl⟩
  | true => exact .inr ⟨rfl, rfl⟩

/-- The state `DEM.INIT` leaves when the configuration is legal (R162). -/
def demInitState (s : State) : State :=
  { s with
    win := zeroWindow s.params.wmax
    regs := { s.regs with wrPtr := 0#8, demPhase := 0#32, prevDec := false, demRunlen := 0#32, demReady := true } }

theorem execDemInit_cases (s : State) :
    (demConfigLegal s.params s.regs = false ∧ execDemInit s = .next (raiseFault .errCfg 0x20#8 s)) ∨
    (demConfigLegal s.params s.regs = true ∧ execDemInit s = .next (respond 0#32 (demInitState s))) := by
  unfold execDemInit
  cases demConfigLegal s.params s.regs with
  | false => exact .inl ⟨rfl, rfl⟩
  | true => exact .inr ⟨rfl, rfl⟩

/-- The response data of a chained sample that pushed its bit (R180). -/
abbrev chainedData (v : Half) (s : State) : Word :=
  demResponse ((pushBit (demodulate v s).dec (demodulate v s).state).result.extractLsb' 8 10)
    (lockLoss (demodulate v s).state.regs) (demodulate v s)

/-- Everything `DEM.SAMPLE` can answer: refused in IDLE; the two stops, in states no run reaches; unchained; chained. -/
theorem execDemSample_cases (v : Half) (s : State) :
    (s.regs.demReady = false ∧ execDemSample v s = .next (raiseFault .errState 0x22#8 s)) ∨
    (s.regs.demReady = true ∧ windowInside s = false ∧ execDemSample v s = .fault .windowOutsideStorage) ∨
    (s.regs.demReady = true ∧ windowInside s = true ∧
      ((demodulate v s).wrapped = false ∨ s.regs.chain = false) ∧
      execDemSample v s = .next (respond
        (demResponse 0#10 (lockLoss (demodulate v s).state.regs) (demodulate v s)) (demodulate v s).state)) ∨
    (s.regs.demReady = true ∧ windowInside s = true ∧ (demodulate v s).wrapped = true ∧ s.regs.chain = true ∧
      ((positionInside s = false ∧ execDemSample v s = .fault .positionOutsideBuffer) ∨
        (positionInside s = true ∧
          execDemSample v s = .next (respond (chainedData v s)
            (pushBit (demodulate v s).dec (demodulate v s).state).state)))) := by
  have hp : positionInside (demodulate v s).state = positionInside s := rfl
  unfold execDemSample
  cases hr : s.regs.demReady with
  | false => exact .inl ⟨rfl, rfl⟩
  | true =>
    refine .inr ?_
    cases hw : windowInside s with
    | false => exact .inl ⟨rfl, rfl, rfl⟩
    | true =>
      refine .inr ?_
      cases hx : (demodulate v s).wrapped with
      | false => exact .inl ⟨rfl, rfl, .inl rfl, by simp only [Bool.false_and]; rfl⟩
      | true =>
        cases hc : s.regs.chain with
        | false => exact .inl ⟨rfl, rfl, .inr rfl, by simp only [Bool.and_false]; rfl⟩
        | true =>
          refine .inr ⟨rfl, rfl, rfl, rfl, ?_⟩
          simp only [Bool.and_true, if_true, emitChained, hp]
          cases positionInside s with
          | false => exact .inl ⟨rfl, rfl⟩
          | true => exact .inr ⟨rfl, rfl⟩

/-- The registers `MOD.INIT` leaves when the configuration is legal (R201). -/
def modInitRegs (r : Regs) : Regs :=
  { r with modPhase := 0#32, modBaud := 0#32, curBit := false, needBit := true, modReady := true }

theorem execModInit_cases (s : State) :
    (modConfigLegal s.regs = false ∧ execModInit s = .next (raiseFault .errCfg 0x30#8 s)) ∨
    (modConfigLegal s.regs = true ∧ execModInit s = .next (respond 0#32 (s.setRegs (modInitRegs s.regs)))) := by
  unfold execModInit
  cases modConfigLegal s.regs with
  | false => exact .inl ⟨rfl, rfl⟩
  | true => exact .inr ⟨rfl, rfl⟩

theorem execModSample_cases (b : Bool) (s : State) :
    (s.regs.modReady = false ∧ execModSample b s = .next (raiseFault .errState 0x32#8 s)) ∨
    (s.regs.modReady = true ∧ execModSample b s = .next
      (respond (modResponse (ctRead s (cosIndex s.params s.regs.modPhase)) s.regs.needBit)
        (s.setRegs (modAdvance b s.regs)))) := by
  unfold execModSample
  cases s.regs.modReady with
  | false => exact .inl ⟨rfl, rfl⟩
  | true => exact .inr ⟨rfl, rfl⟩

theorem execFrmBit_cases (b : Bool) (s : State) :
    (positionInside s = false ∧ execFrmBit b s = .fault .positionOutsideBuffer) ∨
    (positionInside s = true ∧ execFrmBit b s = .next (respond (pushBit b s).result (pushBit b s).state)) := by
  unfold execFrmBit
  cases positionInside s with
  | false => exact .inl ⟨rfl, rfl⟩
  | true => exact .inr ⟨rfl, rfl⟩

theorem execFrmRd_cases (i : BitVec 16) (s : State) :
    (pbufIndexLegal s.params i = false ∧ execFrmRd i s = .next (raiseFault .errIdx 0x42#8 s)) ∨
    (pbufIndexLegal s.params i = true ∧ execFrmRd i s = .next (respond (zext8 (pbufRead s i.toNat)) s)) := by
  unfold execFrmRd
  cases pbufIndexLegal s.params i with
  | false => exact .inl ⟨rfl, rfl⟩
  | true => exact .inr ⟨rfl, rfl⟩

/-- The check of R273 that command `i` fails in state `s` when it takes the fault `c`. -/
def failsCheck (c : FaultCode) (s : State) : Instr → Prop
  | .nop => False
  | .csrr idx => c = .errIdx ∧ csrOfIndex idx = none
  | .csrw idx _ =>
    (c = .errIdx ∧ csrOfIndex idx = none) ∨
      ∃ r, csrOfIndex idx = some r ∧
        ((c = .errAccess ∧ csrAccess r = .ro) ∨
          (c = .errState ∧ csrAccess r ≠ .ro ∧ locked (csrAccess r) s.regs = true))
  | .sysReset => False
  | .ftWr zero _ i _ =>
    (c = .errIdx ∧ ftIndexLegal s.params zero i = false) ∨
      (c = .errState ∧ ftIndexLegal s.params zero i = true ∧ s.regs.demReady = true)
  | .ftRd zero _ i => c = .errIdx ∧ ftIndexLegal s.params zero i = false
  | .ctWr k _ =>
    (c = .errIdx ∧ ctIndexLegal s.params k = false) ∨
      (c = .errState ∧ ctIndexLegal s.params k = true ∧ s.regs.modReady = true)
  | .ctRd k => c = .errIdx ∧ ctIndexLegal s.params k = false
  | .demInit => c = .errCfg ∧ demConfigLegal s.params s.regs = false
  | .demHalt => False
  | .demSample _ => c = .errState ∧ s.regs.demReady = false
  | .modInit => c = .errCfg ∧ modConfigLegal s.regs = false
  | .modHalt => False
  | .modSample _ => c = .errState ∧ s.regs.modReady = false
  | .frmClear => False
  | .frmBit _ => False
  | .frmRd i => c = .errIdx ∧ pbufIndexLegal s.params i = false

/-- Command `i` passes its checks in state `s`, answers the data `d`, and leaves `u` but for the response. -/
def completes (s : State) (d : Word) (u : State) : Instr → Prop
  | .nop => d = 0#32 ∧ u = s
  | .csrr idx => ∃ c, csrOfIndex idx = some c ∧ d = csrRead c s ∧ u = s
  | .csrw idx v => ∃ c, csrOfIndex idx = some c ∧ csrAccess c ≠ .ro ∧ locked (csrAccess c) s.regs = false ∧
      d = 0#32 ∧ u = s.setRegs (csrWrite c v s.regs)
  | .sysReset => d = 0#32 ∧ u = s.setRegs Regs.reset
  | .ftWr zero k i v => ftIndexLegal s.params zero i = true ∧ s.regs.demReady = false ∧
      d = 0#32 ∧ u = ftWrite k.toNat i.toNat v s
  | .ftRd zero k i => ftIndexLegal s.params zero i = true ∧ d = zext16 (ftRead s k.toNat i.toNat) ∧ u = s
  | .ctWr k v => ctIndexLegal s.params k = true ∧ s.regs.modReady = false ∧ d = 0#32 ∧ u = ctWrite k.toNat v s
  | .ctRd k => ctIndexLegal s.params k = true ∧ d = zext16 (ctRead s k.toNat) ∧ u = s
  | .demInit => demConfigLegal s.params s.regs = true ∧ d = 0#32 ∧ u = demInitState s
  | .demHalt => d = 0#32 ∧ u = s.setRegs { s.regs with demReady := false }
  | .demSample v => s.regs.demReady = true ∧ windowInside s = true ∧
      ((((demodulate v s).wrapped = false ∨ s.regs.chain = false) ∧
          d = demResponse 0#10 (lockLoss (demodulate v s).state.regs) (demodulate v s) ∧
          u = (demodulate v s).state) ∨
        ((demodulate v s).wrapped = true ∧ s.regs.chain = true ∧ positionInside s = true ∧ d = chainedData v s ∧
          u = (pushBit (demodulate v s).dec (demodulate v s).state).state))
  | .modInit => modConfigLegal s.regs = true ∧ d = 0#32 ∧ u = s.setRegs (modInitRegs s.regs)
  | .modHalt => d = 0#32 ∧ u = s.setRegs { s.regs with modReady := false }
  | .modSample b => s.regs.modReady = true ∧
      d = modResponse (ctRead s (cosIndex s.params s.regs.modPhase)) s.regs.needBit ∧
      u = s.setRegs (modAdvance b s.regs)
  | .frmClear => d = 0#32 ∧ u = setPosition 0#16 0#3 s
  | .frmBit b => positionInside s = true ∧ d = (pushBit b s).result ∧ u = (pushBit b s).state
  | .frmRd i => pbufIndexLegal s.params i = true ∧ d = zext8 (pbufRead s i.toNat) ∧ u = s

/-- Everything a command that answers can have done. -/
theorem exec_outcomes {i : Instr} {s t : State} (h : exec i s = .next t) :
    (∃ c, failsCheck c s i ∧ t = raiseFault c (opcode i) s) ∨ ∃ d u, completes s d u i ∧ t = respond d u := by
  cases i with
  | nop => cases h; exact .inr ⟨_, _, ⟨rfl, rfl⟩, rfl⟩
  | csrr idx =>
    rcases execCsrr_cases idx s with ⟨h1, e⟩ | ⟨c, h1, e⟩ <;> cases e.symm.trans h
    · exact .inl ⟨_, ⟨rfl, h1⟩, rfl⟩
    · exact .inr ⟨_, _, ⟨c, h1, rfl, rfl⟩, rfl⟩
  | csrw idx v =>
    rcases execCsrw_cases idx v s with ⟨h1, e⟩ | ⟨c, h1, ⟨h2, e⟩ | ⟨h2, h3, e⟩ | ⟨h2, h3, e⟩⟩ <;> cases e.symm.trans h
    · exact .inl ⟨_, .inl ⟨rfl, h1⟩, rfl⟩
    · exact .inl ⟨_, .inr ⟨c, h1, .inl ⟨rfl, h2⟩⟩, rfl⟩
    · exact .inl ⟨_, .inr ⟨c, h1, .inr ⟨rfl, h2, h3⟩⟩, rfl⟩
    · exact .inr ⟨_, _, ⟨c, h1, h2, h3, rfl, rfl⟩, rfl⟩
  | sysReset => cases h; exact .inr ⟨_, _, ⟨rfl, rfl⟩, rfl⟩
  | ftWr zero k i v =>
    rcases execFtWr_cases zero k i v s with ⟨h1, e⟩ | ⟨h1, h2, e⟩ | ⟨h1, h2, e⟩ <;> cases e.symm.trans h
    · exact .inl ⟨_, .inl ⟨rfl, h1⟩, rfl⟩
    · exact .inl ⟨_, .inr ⟨rfl, h1, h2⟩, rfl⟩
    · exact .inr ⟨_, _, ⟨h1, h2, rfl, rfl⟩, rfl⟩
  | ftRd zero k i =>
    rcases execFtRd_cases zero k i s with ⟨h1, e⟩ | ⟨h1, e⟩ <;> cases e.symm.trans h
    · exact .inl ⟨_, ⟨rfl, h1⟩, rfl⟩
    · exact .inr ⟨_, _, ⟨h1, rfl, rfl⟩, rfl⟩
  | ctWr k v =>
    rcases execCtWr_cases k v s with ⟨h1, e⟩ | ⟨h1, h2, e⟩ | ⟨h1, h2, e⟩ <;> cases e.symm.trans h
    · exact .inl ⟨_, .inl ⟨rfl, h1⟩, rfl⟩
    · exact .inl ⟨_, .inr ⟨rfl, h1, h2⟩, rfl⟩
    · exact .inr ⟨_, _, ⟨h1, h2, rfl, rfl⟩, rfl⟩
  | ctRd k =>
    rcases execCtRd_cases k s with ⟨h1, e⟩ | ⟨h1, e⟩ <;> cases e.symm.trans h
    · exact .inl ⟨_, ⟨rfl, h1⟩, rfl⟩
    · exact .inr ⟨_, _, ⟨h1, rfl, rfl⟩, rfl⟩
  | demInit =>
    rcases execDemInit_cases s with ⟨h1, e⟩ | ⟨h1, e⟩ <;> cases e.symm.trans h
    · exact .inl ⟨_, ⟨rfl, h1⟩, rfl⟩
    · exact .inr ⟨_, _, ⟨h1, rfl, rfl⟩, rfl⟩
  | demHalt => cases h; exact .inr ⟨_, _, ⟨rfl, rfl⟩, rfl⟩
  | demSample v =>
    rcases execDemSample_cases v s with ⟨h1, e⟩ | ⟨h1, h2, e⟩ | ⟨h1, h2, h3, e⟩ |
      ⟨h1, h2, h3, h4, ⟨h5, e⟩ | ⟨h5, e⟩⟩ <;> cases e.symm.trans h
    · exact .inl ⟨_, ⟨rfl, h1⟩, rfl⟩
    · exact .inr ⟨_, _, ⟨h1, h2, .inl ⟨h3, rfl, rfl⟩⟩, rfl⟩
    · exact .inr ⟨_, _, ⟨h1, h2, .inr ⟨h3, h4, h5, rfl, rfl⟩⟩, rfl⟩
  | modInit =>
    rcases execModInit_cases s with ⟨h1, e⟩ | ⟨h1, e⟩ <;> cases e.symm.trans h
    · exact .inl ⟨_, ⟨rfl, h1⟩, rfl⟩
    · exact .inr ⟨_, _, ⟨h1, rfl, rfl⟩, rfl⟩
  | modHalt => cases h; exact .inr ⟨_, _, ⟨rfl, rfl⟩, rfl⟩
  | modSample b =>
    rcases execModSample_cases b s with ⟨h1, e⟩ | ⟨h1, e⟩ <;> cases e.symm.trans h
    · exact .inl ⟨_, ⟨rfl, h1⟩, rfl⟩
    · exact .inr ⟨_, _, ⟨h1, rfl, rfl⟩, rfl⟩
  | frmClear => cases h; exact .inr ⟨_, _, ⟨rfl, rfl⟩, rfl⟩
  | frmBit b =>
    rcases execFrmBit_cases b s with ⟨h1, e⟩ | ⟨h1, e⟩ <;> cases e.symm.trans h
    exact .inr ⟨_, _, ⟨h1, rfl, rfl⟩, rfl⟩
  | frmRd i =>
    rcases execFrmRd_cases i s with ⟨h1, e⟩ | ⟨h1, e⟩ <;> cases e.symm.trans h
    · exact .inl ⟨_, ⟨rfl, h1⟩, rfl⟩
    · exact .inr ⟨_, _, ⟨h1, rfl, rfl⟩, rfl⟩

/-- A command that passes its checks never changes the parameters, the free contents or the waiting inputs. -/
theorem completes_frame {i : Instr} {s u : State} {d : Word} (h : completes s d u i) :
    u.params = s.params ∧ u.powerOns = s.powerOns ∧ u.inbox = s.inbox := by
  cases i with
  | nop => rw [h.2]; exact ⟨rfl, rfl, rfl⟩
  | csrr idx => obtain ⟨c, -, -, rfl⟩ := h; exact ⟨rfl, rfl, rfl⟩
  | csrw idx v => obtain ⟨c, -, -, -, -, rfl⟩ := h; exact ⟨rfl, rfl, rfl⟩
  | sysReset => rw [h.2]; exact ⟨rfl, rfl, rfl⟩
  | ftWr zero k i v => obtain ⟨-, -, -, rfl⟩ := h; exact ⟨rfl, rfl, rfl⟩
  | ftRd zero k i => obtain ⟨-, -, rfl⟩ := h; exact ⟨rfl, rfl, rfl⟩
  | ctWr k v => obtain ⟨-, -, -, rfl⟩ := h; exact ⟨rfl, rfl, rfl⟩
  | ctRd k => obtain ⟨-, -, rfl⟩ := h; exact ⟨rfl, rfl, rfl⟩
  | demInit => obtain ⟨-, -, rfl⟩ := h; exact ⟨rfl, rfl, rfl⟩
  | demHalt => rw [h.2]; exact ⟨rfl, rfl, rfl⟩
  | demSample v =>
    obtain ⟨-, -, ⟨-, -, rfl⟩ | ⟨-, -, -, -, rfl⟩⟩ := h
    · exact ⟨rfl, rfl, rfl⟩
    · simp only [pushBit_params, pushBit_powerOns, pushBit_inbox]
      exact ⟨rfl, rfl, rfl⟩
  | modInit => obtain ⟨-, -, rfl⟩ := h; exact ⟨rfl, rfl, rfl⟩
  | modHalt => rw [h.2]; exact ⟨rfl, rfl, rfl⟩
  | modSample b => obtain ⟨-, -, rfl⟩ := h; exact ⟨rfl, rfl, rfl⟩
  | frmClear => rw [h.2]; exact ⟨rfl, rfl, rfl⟩
  | frmBit b =>
    obtain ⟨-, -, rfl⟩ := h
    simp only [pushBit_params, pushBit_powerOns, pushBit_inbox, and_self]
  | frmRd i => obtain ⟨-, -, rfl⟩ := h; exact ⟨rfl, rfl, rfl⟩

end Sys2Proof.Machine
end

