-- ==== Sys2Proof/Laws/PerInstr.lean ====
section
/-! SUPPORT. The per-instruction family `EncodedHeader`: the header of a command's canonical word is the command's
opcode and a zero `rsv` (spec/30_encoding.md R90, R96, R98), and its operand fields are the command's. -/

namespace Sys2Proof.Laws.EncodedHeader

open Sys2Proof

/-- The four fields of the canonical word of a command. -/
def Statement (i : Instr) : Prop :=
  opField (encode i) = opcode i ∧ rsvField (encode i) = 0#8 ∧ idxField (encode i) = encodeIdx i ∧
    dataField (encode i) = encodeData i

theorem nop : Statement .nop :=
  ⟨opField_encode _, rsvField_encode _, idxField_encode _, dataField_encode _⟩

theorem csrr (idx : BitVec 16) : Statement (.csrr idx) :=
  ⟨opField_encode _, rsvField_encode _, idxField_encode _, dataField_encode _⟩

theorem csrw (idx : BitVec 16) (data : Word) : Statement (.csrw idx data) :=
  ⟨opField_encode _, rsvField_encode _, idxField_encode _, dataField_encode _⟩

theorem sysReset : Statement .sysReset :=
  ⟨opField_encode _, rsvField_encode _, idxField_encode _, dataField_encode _⟩

theorem ftWr (zero : BitVec 6) (t : BitVec 2) (e : BitVec 8) (value : Half) : Statement (.ftWr zero t e value) :=
  ⟨opField_encode _, rsvField_encode _, idxField_encode _, dataField_encode _⟩

theorem ftRd (zero : BitVec 6) (t : BitVec 2) (e : BitVec 8) : Statement (.ftRd zero t e) :=
  ⟨opField_encode _, rsvField_encode _, idxField_encode _, dataField_encode _⟩

theorem ctWr (k : BitVec 16) (value : Half) : Statement (.ctWr k value) :=
  ⟨opField_encode _, rsvField_encode _, idxField_encode _, dataField_encode _⟩

theorem ctRd (k : BitVec 16) : Statement (.ctRd k) :=
  ⟨opField_encode _, rsvField_encode _, idxField_encode _, dataField_encode _⟩

theorem demInit : Statement .demInit :=
  ⟨opField_encode _, rsvField_encode _, idxField_encode _, dataField_encode _⟩

theorem demHalt : Statement .demHalt :=
  ⟨opField_encode _, rsvField_encode _, idxField_encode _, dataField_encode _⟩

theorem demSample (v : Half) : Statement (.demSample v) :=
  ⟨opField_encode _, rsvField_encode _, idxField_encode _, dataField_encode _⟩

theorem modInit : Statement .modInit :=
  ⟨opField_encode _, rsvField_encode _, idxField_encode _, dataField_encode _⟩

theorem modHalt : Statement .modHalt :=
  ⟨opField_encode _, rsvField_encode _, idxField_encode _, dataField_encode _⟩

theorem modSample (b : Bool) : Statement (.modSample b) :=
  ⟨opField_encode _, rsvField_encode _, idxField_encode _, dataField_encode _⟩

theorem frmClear : Statement .frmClear :=
  ⟨opField_encode _, rsvField_encode _, idxField_encode _, dataField_encode _⟩

theorem frmBit (b : Bool) : Statement (.frmBit b) :=
  ⟨opField_encode _, rsvField_encode _, idxField_encode _, dataField_encode _⟩

theorem frmRd (j : BitVec 16) : Statement (.frmRd j) :=
  ⟨opField_encode _, rsvField_encode _, idxField_encode _, dataField_encode _⟩

end Sys2Proof.Laws.EncodedHeader
end

