-- ==== Sys2Proof/Laws/Sequences.lean ====
section
/-! SUPPORT. Sequences of commands, taken apart (spec/20_memory.md R80). -/

namespace Sys2Proof.Machine

open Sys2Proof

theorem runCommands_nil (s : State) : runCommands [] s = .next s := rfl

theorem runCommands_cons {i : Instr} {s t : State} (rest : List Instr) (h : exec i s = .next t) :
    runCommands (i :: rest) s = runCommands rest t := by
  simp only [runCommands, h]

theorem runCommands_append {a : List Instr} {s t : State} (b : List Instr) (h : runCommands a s = .next t) :
    runCommands (a ++ b) s = runCommands b t := by
  induction a generalizing s with
  | nil => cases h; rfl
  | cons i a ih =>
    simp only [List.cons_append, runCommands] at h ⊢
    cases he : exec i s with
    | next u => rw [he] at h; exact ih h
    | fault r => rw [he] at h; cases h
    | refused r => rw [he] at h; cases h

theorem runCommands_concat {a : List Instr} {s t u : State} {i : Instr} (h : runCommands a s = .next t)
    (hi : exec i t = .next u) : runCommands (a ++ [i]) s = .next u := by
  rw [runCommands_append _ h, runCommands_cons _ hi]
  rfl

end Sys2Proof.Machine
end

