-- ==== Sys2Proof/Tests/Slice0.lean ====
section
/-! SUPPORT. Tests: words written out from spec/30_encoding.md, one or two steps per command with the results of
spec/95_test_vectors.md, an ill-formed command for each check of WellFormed, and for every statement with hypotheses
a concrete state that meets them. -/

namespace Sys2Proof.Tests

open Sys2Proof Sys2Proof.Machine

/-! ### Decoding: words written out from R90's fields, with the bits a command ignores set -/

/-- R91: `NOP` ignores `idx` and `data`. -/
theorem test_decode_nop : decode 0x0000FFFFFFFFFFFF#64 = .ok .nop := by decide

/-- V10. -/
theorem test_decode_csrr : decode 0x0100003000000000#64 = .ok (.csrr 0x0030#16) := by decide

/-- V13. -/
theorem test_decode_csrw : decode 0x0200001412345678#64 = .ok (.csrw 0x0014#16 0x12345678#32) := by decide

/-- V15. -/
theorem test_decode_sysReset : decode 0x0300123400005678#64 = .ok .sysReset := by decide

/-- V14, third row: `idx` = 0x0305 is table 3, entry 5, and `data[31:16]` is ignored. -/
theorem test_decode_ftWr : decode 0x10000305ABCD8000#64 = .ok (.ftWr 0#6 3#2 5#8 0x8000#16) := by decide

/-- V11: `idx[10]` is the lowest of the six bits that must be 0. -/
theorem test_decode_ftRd : decode 0x1100073F00000000#64 = .ok (.ftRd 1#6 3#2 63#8) := by decide

/-- V14. -/
theorem test_decode_ctWr : decode 0x1200008000008001#64 = .ok (.ctWr 128#16 0x8001#16) := by decide

/-- V11. -/
theorem test_decode_ctRd : decode 0x130000FF00000000#64 = .ok (.ctRd 255#16) := by decide

theorem test_decode_demInit : decode 0x2000000000000001#64 = .ok .demInit := by decide

theorem test_decode_demHalt : decode 0x2100000100000000#64 = .ok .demHalt := by decide

/-- V31: `idx` and `data[31:16]` are ignored. -/
theorem test_decode_demSample : decode 0x2200BEEFDEAD0064#64 = .ok (.demSample 100#16) := by decide

theorem test_decode_modInit : decode 0x3000000000000000#64 = .ok .modInit := by decide

theorem test_decode_modHalt : decode 0x3100000000000000#64 = .ok .modHalt := by decide

/-- Only `data[0]` is the bit (R94). -/
theorem test_decode_modSample : decode 0x32000000FFFFFFFE#64 = .ok (.modSample false) := by decide

theorem test_decode_frmClear : decode 0x4000000000000000#64 = .ok .frmClear := by decide

theorem test_decode_frmBit : decode 0x4100000000000001#64 = .ok (.frmBit true) := by decide

/-- V11. -/
theorem test_decode_frmRd : decode 0x4200010A00000000#64 = .ok (.frmRd 266#16) := by decide

/-- V11, first row. -/
theorem test_decode_illegal_opcode : decode 0x0400000000000000#64 = .error (.illegalOpcode 0x04#8) := by decide

/-- V11: `NOP` with `rsv` = 1. -/
theorem test_decode_reserved : decode 0x0001000000000000#64 = .error (.reservedNotZero 1#8) := by decide

/-- The encoder writes R105's words. -/
theorem test_encode_frmRd : encode (.frmRd 265#16) = 0x4200010900000000#64 := by decide

theorem test_encode_ftWr : encode (.ftWr 0#6 3#2 5#8 0xFFFF#16) = 0x100003050000FFFF#64 := by decide

/-! ### Well-formedness: a term for each check, which the check refuses -/

/-- Check 2, a register index: 0x0007 is not in the map (V11). -/
theorem test_illformed_csrr : indexInside Config.standard (.csrr 7#16) = false := by decide

theorem test_illformed_csrw : indexInside Config.standard (.csrw 7#16 5#32) = false := by decide

/-- Check 2, an FT index with `idx[10]` set, and entry 64 (V11). -/
theorem test_illformed_ftWr_zero : indexInside Config.standard (.ftWr 1#6 0#2 0#8 1#16) = false := by decide

theorem test_illformed_ftWr_entry : indexInside Config.standard (.ftWr 0#6 0#2 64#8 1#16) = false := by decide

theorem test_illformed_ftRd : indexInside Config.standard (.ftRd 0#6 3#2 64#8) = false := by decide

/-- Check 2, CT entry 256 and PBUF byte 266 (V11). -/
theorem test_illformed_ctWr : indexInside Config.standard (.ctWr 256#16 1#16) = false := by decide

theorem test_illformed_ctRd : indexInside Config.standard (.ctRd 256#16) = false := by decide

theorem test_illformed_frmRd : indexInside Config.standard (.frmRd 266#16) = false := by decide

/-- Check 3: a write of `ID` (V11). -/
theorem test_illformed_access : accessAllowed (.csrw 0#16 5#32) = false := by decide

/-- The last legal indexes are well formed (V11). -/
theorem test_wellformed_bounds :
    wellFormed Config.standard (.ftRd 0#6 3#2 63#8) = true ∧ wellFormed Config.standard (.ctRd 255#16) = true ∧
      wellFormed Config.standard (.frmRd 265#16) = true ∧ wellFormed Config.standard (.csrw 4#16 0#32) = true := by
  decide

/-! ### Single steps -/

/-- What `f` shows of the state in which the word `w`, presented in `s`, leaves the block; none if it stops. -/
def seen {α : Type} (f : State → α) (w : CommandWord) (s : State) : Option α :=
  match step (presentCommand w s) with
  | .next t => some (f t)
  | .fault _ => none
  | .refused _ => none

/-- The response's code and data. -/
def answer (t : State) : Option (Nat × Nat) := t.response.map (fun r => (r.code.toNat, r.data.toNat))

/-- V10. -/
theorem test_csrr_param0 : seen answer 0x0100000100000000#64 State.reset = some (some (0, 0x010A0840)) := by decide

theorem test_csrr_mod_state : seen answer 0x0100002500000000#64 State.reset = some (some (0, 2)) := by decide

/-- V11: `LASTERR` after the illegal opcode 0x04 is {op 0x04, code 1}, and `STATUS` is 0x100. -/
theorem test_illegal_records :
    seen (fun t => (answer t, csrRead .lasterr t, csrRead .status t)) 0x0400000000000000#64 State.reset =
      some (some (1, 0), 0x00000401#32, 0x00000100#32) := by decide

theorem test_nop : seen answer 0x0000000000000000#64 State.reset = some (some (0, 0)) := by decide

/-- V11: with all five error bits set, write-one-to-clear of bits 8 and 9 leaves 0x1C00. -/
theorem test_csrw_status :
    seen (csrRead .status) 0x0200000400000300#64 { State.reset with regs := { Regs.reset with sticky := 0x1F#5 } } =
      some 0x00001C00#32 := by decide

/-- V11: `CSRW ID` is `ERR_ACCESS`. -/
theorem test_csrw_id : seen answer 0x0200000000000005#64 State.reset = some (some (3, 0)) := by decide

/-- V15: after `SYS.RESET` `CTRL` reads 0 and the table entry survives. -/
theorem test_sysReset :
    seen (fun t => (csrRead .ctrl t, ftRead t 3 5)) 0x0300123400005678#64
      { State.reset with regs := { Regs.reset with chain := true }, ft := [(ftKey 3 5, 0x8000#16)] } =
      some (0#32, 0x8000#16) := by decide

/-- V14: the entry is `data[15:0]`. -/
theorem test_ftWr : seen (fun t => ftRead t 3 5) 0x10000305ABCD8000#64 State.reset = some 0x8000#16 := by decide

/-- V13: the index is checked before the state. -/
theorem test_ftWr_index_first :
    seen answer 0x1000004000000001#64 { State.reset with regs := { Regs.reset with demReady := true } } =
      some (some (2, 0)) := by decide

/-- V14: reads zero-extend. -/
theorem test_ftRd :
    seen answer 0x1100030500000000#64 { State.reset with ft := [(ftKey 3 5, 0xFFFF#16)] } =
      some (some (0, 0xFFFF)) := by decide

theorem test_ctWr : seen (fun t => ctRead t 128) 0x1200008000008001#64 State.reset = some 0x8001#16 := by decide

/-- R69: `CT.WR` is refused while MOD is READY. -/
theorem test_ctWr_locked :
    seen answer 0x1200008000008001#64 { State.reset with regs := { Regs.reset with modReady := true } } =
      some (some (4, 0)) := by decide

theorem test_ctRd :
    seen answer 0x1300008000000000#64 { State.reset with ct := [(128, 0x8001#16)] } = some (some (0, 0x8001)) := by
  decide

/-- V30's registers and tables, with the window, `wr_ptr`, phase, decision and run length given. -/
def v30 (older newer : Half) (ptr : BitVec 8) (phase : Word) (prev : Bool) (run : Word) : State :=
  { State.reset with
    ft := [(0, 1#16), (1, 1#16), (256, 0#16), (257, 0#16), (512, 1#16), (513, 0xFFFF#16), (768, 0#16), (769, 0#16)]
    win := [(0, older), (1, newer)]
    regs := { Regs.reset with
      demReady := true, demWindow := 2#32, demPllInc := 0x40000000#32, demPllAdj := 0x10000000#32
      demRunmax := 2#32, demPhase := phase, prevDec := prev, demRunlen := run, wrPtr := ptr } }

/-- V30 row 4: the wrap and a transition on one sample; the wrapped phase is nudged up. -/
theorem test_demSample_row4 :
    seen (fun t => (answer t, t.regs.demPhase, t.regs.wrPtr)) 0x2200000000000064#64
      (v30 0xFF9C#16 100#16 0#8 0xF0000000#32 true 1#32) =
      some (some (0, 0x6), 0x40000000#32, 1#8) := by decide

/-- V30 row 12: a wrap without a transition emits 1. -/
theorem test_demSample_row12 :
    seen (fun t => (answer t, t.regs.demPhase, t.regs.demRunlen)) 0x2200000000000007#64
      (v30 7#16 0xFFF9#16 0#8 0xF0000000#32 true 1#32) =
      some (some (0, 0xB), 0x30000000#32, 2#32) := by decide

/-- V12: a window of 65 exceeds `WMAX`. -/
theorem test_demInit_config :
    seen answer 0x2000000000000000#64
      { State.reset with regs := { Regs.reset with demWindow := 65#32, demPllInc := 1#32 } } = some (some (5, 0)) := by
  decide

/-- R162: the session starts with `wr_ptr` and the phase at 0 and the window zero. -/
theorem test_demInit :
    seen (fun t => (t.regs.demReady, t.regs.demPhase, winRead t 1)) 0x2000000000000000#64
      { v30 7#16 9#16 1#8 5#32 true 1#32 with params := { Config.standard with wmax := 2 } } =
      some (true, 0#32, 0#16) := by decide

theorem test_demHalt :
    seen (fun t => (t.regs.demReady, t.regs.demPhase)) 0x2100000000000000#64 (v30 7#16 9#16 1#8 5#32 true 1#32) =
      some (false, 5#32) := by decide

/-- V24's rates with `MOD_BAUD_INC` = 0xC0000000. -/
def v24 (phase baud : Word) (cur need : Bool) : State :=
  { State.reset with
    ct := [(0, 0x7FFF#16), (64, 0#16), (128, 0x8001#16), (192, 0#16)]
    regs := { Regs.reset with
      modReady := true, modIncLo := 0x40000000#32, modIncHi := 0x80000000#32, modBaudInc := 0xC0000000#32
      modPhase := phase, modBaud := baud, curBit := cur, needBit := need } }

/-- V24, second table, row 3: polls bit 1 and looks up before it advances. -/
theorem test_modSample_row3 :
    seen (fun t => (answer t, t.regs.modPhase, t.regs.modBaud, csrRead .modState t)) 0x3200000000000001#64
      (v24 0x40000000#32 0x40000000#32 false true) =
      some (some (0, 0x00010000), 0xC0000000#32, 0#32, 3#32) := by decide

/-- V24, second table, row 1: the operand is not polled and the bit stays 1. -/
theorem test_modSample_row1 :
    seen (fun t => (answer t, t.regs.modPhase, t.regs.modBaud, csrRead .modState t)) 0x3200000000000000#64
      (v24 0x80000000#32 0xC0000000#32 true false) =
      some (some (0, 0x00008001), 0#32, 0x80000000#32, 3#32) := by decide

theorem test_modInit :
    seen (fun t => (t.regs.modPhase, csrRead .modState t, csrRead .status t)) 0x3000000000000000#64
      (v24 5#32 6#32 true false) = some (0#32, 2#32, 2#32) := by decide

/-- V11. -/
theorem test_modInit_config : seen answer 0x3000000000000000#64 State.reset = some (some (5, 0)) := by decide

theorem test_modHalt :
    seen (fun t => (t.regs.modReady, t.regs.modPhase)) 0x3100000000000000#64 (v24 5#32 6#32 true false) =
      some (false, 5#32) := by decide

/-- PBUF with these bytes written, from byte 0 up. -/
def pbufOf (bytes : List Byte) : Storage PbufByte := bytes.mapIdx (fun i v => (i, PbufByte.mk v 0xFF#8))

/-- A framer at a position over these bytes. -/
def framerAt (bytes : List Byte) (byteOff : BitVec 16) (bitOff : BitVec 3) : State :=
  { State.reset with pbuf := pbufOf bytes, regs := { Regs.reset with byteOff := byteOff, bitOff := bitOff } }

/-- V60's packet, with the last bit of its last byte not in yet. -/
def packetBut : List Byte :=
  [1#8, 1#8] ++ List.replicate 25 0#8 ++ [0xE6#8, 0x4E#8, 0xD9#8, 0x5A#8]

/-- V55: the 248th bit. -/
theorem test_frmBit_packet :
    seen (fun t => (answer t, csrRead .frmPos t, pbufRead t 30)) 0x4100000000000001#64 (framerAt packetBut 30#16 7#3) =
      some (some (0, 0x700), 0#32, 0xDA#8) := by decide +kernel

/-- V58: type 3 is rejected at the sixteenth bit. -/
theorem test_frmBit_unknown :
    seen (fun t => (answer t, csrRead .frmPos t)) 0x4100000000000000#64 (framerAt [1#8, 3#8] 1#16 7#3) =
      some (some (0, 0xD00), 0#32) := by decide

/-- V59: `FRM.CLEAR` keeps the byte. -/
theorem test_frmClear :
    seen (fun t => (csrRead .frmPos t, pbufRead t 0)) 0x4000000000000000#64 (framerAt [1#8, 1#8] 1#16 5#3) =
      some (0#32, 1#8) := by decide

/-- V55: byte 27 of V60. -/
theorem test_frmRd :
    seen answer 0x4200001B00000000#64 (framerAt packetBut 0#16 0#3) = some (some (0, 0xE6)) := by decide

/-- V11. -/
theorem test_frmRd_index : seen answer 0x4200010A00000000#64 State.reset = some (some (2, 0)) := by decide

/-- V50: "test" with seed 0x9747B28C, and a tail of three bytes. -/
theorem test_hash_block : hash32 [0x74#8, 0x65#8, 0x73#8, 0x74#8] 0x9747B28C#32 = 0x704B81DC#32 := by decide +kernel

theorem test_hash_tail : hash32 [0x21#8, 0x43#8, 0x65#8] 0#32 = 0x7E4A8634#32 := by decide +kernel

/-- V52: version 2 over zero bytes, packet offsets 2 to 4. -/
theorem test_stripe :
    (List.range 3).map (fun k => pbufRead (stripe 2#8 2 26 (framerAt (List.replicate 32 0#8) 0#16 0#3)) (2 + k)) =
      [0x95#8, 0x35#8, 0xAC#8] := by decide +kernel

/-- R202's and R163's own numbers, and the division that fails. -/
theorem test_rateIncrement :
    rateIncrement 1200 22050 = some 0x0DEE95C5 ∧ rateIncrement 2200 22050 = some 0x198ABD3E ∧
      rateIncrement 1200 0 = none := by decide

/-! ### Witnesses: for every statement with hypotheses, values that meet them together, clause by clause -/

/-- A small instance: two samples of window, two cosine entries, packets of 31 bytes. -/
def tiny : Params where
  wmax := 2
  cosBits := 1
  payloadLen := 21
  hashSeed := 0xDEADBEEF#32
  idValue := 0x4146534B#32

/-- A small instance with DEM READY, a window of two, and the framer at position 0. -/
def ready (phase : Word) (chain : Bool) : State :=
  { State.resetWith tiny 0 with
    ft := [(0, 1#16), (1, 1#16), (256, 0#16), (257, 0#16), (512, 1#16), (513, 0xFFFF#16), (768, 0#16), (769, 0#16)]
    win := [(0, 0#16), (1, 0#16)]
    regs := { Regs.reset with
      demReady := true, demWindow := 2#32, demPllInc := 0x40000000#32, demPllAdj := 0x7FFFFFFF#32
      demPhase := phase, chain := chain, wrPtr := 1#8 } }

/-- The small READY instance meets the invariant, whatever its phase and `CHAIN`. -/
theorem ready_invariant (phase : Word) (chain : Bool) : Invariant (ready phase chain) where
  paramsLegal := by show tiny.Legal; decide
  memoryWf := by show Memory.wf (ready 0#32 false); decide
  demLegal := by intro _; show demConfigLegal tiny (ready 0#32 false).regs = true; decide
  wrPtrInside := by intro _; show (1#8).toNat < (2#32).toNat; decide
  windowKnown := by
    intro _ i hi
    have h : ∀ i, i < 2 → (storageGet [(0, 0#16), (1, 0#16)] i).isSome = true := by decide
    exact h i hi
  modLegal := by intro h; cases h
  byteOffInside := by show (0#16).toNat < tiny.pktMax; decide
  beforeTarget := by intro h; exact absurd h (by show ¬ 2 ≤ (0#16).toNat; decide)
  candidateKnown := by intro i k _ h; exact absurd h (Nat.not_lt_zero _)
  lastErrLegal := by show (0#8).toNat ≤ 5; decide
  responseLegal := by intro r h; cases h

/-- The state after reset meets it too. -/
theorem reset_invariant : Invariant State.reset where
  paramsLegal := by decide
  memoryWf := by decide
  demLegal := by decide
  wrPtrInside := by decide
  windowKnown := by intro h; cases h
  modLegal := by decide
  byteOffInside := by decide
  beforeTarget := by intro h; exact absurd h (by decide)
  candidateKnown := by intro i k _ h; exact absurd h (Nat.not_lt_zero _)
  lastErrLegal := by decide
  responseLegal := by intro r h; cases h

/-- The bounds of the parameters, least and greatest. -/
theorem witness_params : Config.standard.Legal ∧ tiny.Legal ∧
    (Params.mk 1 1 0 0#32 0#32).Legal ∧ (Params.mk 255 15 65525 0#32 0#32).Legal := by decide

/-- The state with these words and inputs waiting. -/
def waiting (inputs : List HostInput) : State := { State.reset with inbox := inputs }

theorem witness_IgnoredBitsHaveNoEffect :
    decode 0x110003050000FFFF#64 = .ok (.ftRd 0#6 3#2 5#8) ∧
      0x11000305FFFFFFFF#64 &&& usedBits ((0x110003050000FFFF#64).extractLsb' 56 8) =
        0x110003050000FFFF#64 &&& usedBits ((0x110003050000FFFF#64).extractLsb' 56 8) := by decide

theorem witness_IllegalWordFaultsWithErrOp :
    (waiting [.command 0x0400000000000000#64]).inbox = [.command 0x0400000000000000#64] ∧
      (0x0400000000000000#64).extractLsb' 56 8 ∉ legalOpcodes ∧
      (0x0001000000000000#64).extractLsb' 48 8 ≠ 0#8 ∧
      (0x4200000000000000#64).extractLsb' 56 8 ∈ legalOpcodes ∧
      (0x4200000000000000#64).extractLsb' 48 8 = 0#8 := by decide

theorem witness_StepRunsTheDecodedCommand :
    (waiting [.command 0x4100000000000001#64]).inbox = .command 0x4100000000000001#64 :: [] ∧
      decode 0x4100000000000001#64 = .ok (.frmBit true) := by decide

theorem witness_StepWithoutInputHoldsTheState : State.reset.inbox = [] := by decide

theorem witness_PowerOnInputResetsTheBlock :
    (waiting [.powerOn, .command 0#64]).inbox = .powerOn :: [.command 0#64] := by decide

theorem witness_ResetRegistersReadTheirResetValues : Config.standard.Legal ∧ State.reset.params.Legal ∧
    (0x0000#16, 0x4146534B) ∈ csrViewAtReset Config.standard ∧ (0x0030#16, 0) ∈ csrViewAtReset Config.standard := by
  decide

theorem witness_ResetMeetsTheInvariant : tiny.Legal := by decide

theorem witness_EveryStepKeepsTheInvariant : Invariant (ready 0#32 false) ∧
    step (ready 0#32 false) = .next (ready 0#32 false) := ⟨ready_invariant _ _, rfl⟩

theorem witness_NoStepFromTheInvariantStops : Invariant (ready 0xC0000000#32 true) := ready_invariant _ _

theorem witness_EveryHostSequenceRunsToItsEnd : (Params.mk 255 15 65525 0#32 0#32).Legal := by decide

theorem witness_ConstantRegistersNeverChange :
    exec .demHalt State.reset = .next { State.reset with response := okWith 0 } := rfl

theorem witness_FaultChangesOnlyTheErrorRecord :
    runWord 0x0100000700000000#64 State.reset = .next (faultRecorded 2 0x01#8 State.reset) ∧
      runWord 0xFFFFFFFFFFFFFFFF#64 State.reset = .next (faultRecorded 1 0xFF#8 State.reset) ∧ (2#8 : Byte) ≠ 0#8 :=
  ⟨rfl, rfl, by decide⟩

/-- A word for each code: `OK` and the five faults. -/
theorem witness_FirstFailingCheckDecidesTheCode :
    expectedCode 0x0000000000000000#64 State.reset = 0 ∧ expectedCode 0x2201000000000000#64 State.reset = 1 ∧
      expectedCode 0x0200000700000005#64 State.reset = 2 ∧ expectedCode 0x0200000000000005#64 State.reset = 3 ∧
      expectedCode 0x2200000000000064#64 State.reset = 4 ∧ expectedCode 0x3000000000000000#64 State.reset = 5 := by
  decide

theorem witness_ErrorRecordChangesOnlyByFaultsAndClears :
    exec (.csrw 0x0004#16 0x300#32) State.reset = .next { State.reset with response := okWith 0 } ∧
      exec .sysReset State.reset = .next { State.reset with response := okWith 0 } ∧
      exec .nop State.reset = .next { State.reset with response := okWith 0 } ∧
      exec .modInit State.reset = .next (faultRecorded 5 0x30#8 State.reset) := ⟨rfl, rfl, rfl, rfl⟩

/-- The hypotheses of `carriedBy`: a word with its operands and with every ignored bit set. -/
theorem witness_carriedBy :
    (0x10000305ABCD8000#64).extractLsb' 56 8 = 0x10#8 ∧
      (0x10000305ABCD8000#64).extractLsb' 48 8 = 0#8 ∧ (0x10000305ABCD8000#64).extractLsb' 42 6 = 0#6 ∧
      (0x10000305ABCD8000#64).extractLsb' 40 2 = 3#2 ∧ (0x10000305ABCD8000#64).extractLsb' 32 8 = 5#8 ∧
      (0x10000305ABCD8000#64).extractLsb' 0 16 = 0x8000#16 := by decide

/-- The hypotheses of `refusesReserved`, for any of its opcodes. -/
theorem witness_refusesReserved :
    (0x0001000000000000#64).extractLsb' 56 8 = 0x00#8 ∧ (0x0001000000000000#64).extractLsb' 48 8 ≠ 0#8 ∧
      (0x42FF000000000000#64).extractLsb' 56 8 = 0x42#8 ∧ (0x42FF000000000000#64).extractLsb' 48 8 ≠ 0#8 := by
  decide

theorem witness_CsrrReadsEveryRegister : State.reset.params.Legal ∧
    (0x0001#16, 0x010A0840) ∈ csrView State.reset ∧ (0x0025#16, 2) ∈ csrView State.reset ∧
      0x0007#16 ∉ csrNumbers ∧ 0x0031#16 ∉ csrNumbers := by decide

theorem witness_CsrwWritesExactlyTheNamedRegister :
    0x0007#16 ∉ csrNumbers ∧ 0x0000#16 ∈ readOnlyNumbers ∧ 0x0030#16 ∈ readOnlyNumbers ∧
      (ready 0#32 false).regs.demReady = true ∧ 0x0012#16 ∈ demLockedNumbers ∧
      (v24 0#32 0#32 false true).regs.modReady = true ∧ 0x0020#16 ∈ modLockedNumbers ∧
      State.reset.regs.demReady = false ∧ State.reset.regs.modReady = false := by decide

theorem witness_FtWrWritesOneEntry :
    (0x20#6 : BitVec 6) ≠ 0#6 ∧ tiny.wmax ≤ (2#8).toNat ∧ (1#8).toNat < tiny.wmax ∧
      (ready 0#32 false).regs.demReady = true ∧ (State.resetWith tiny 0).regs.demReady = false := by decide

theorem witness_FtRdReadsOneEntry :
    (1#6 : BitVec 6) ≠ 0#6 ∧ State.reset.params.wmax ≤ (64#8).toNat ∧ (63#8).toNat < State.reset.params.wmax := by
  decide

theorem witness_CtWrWritesOneEntry :
    State.reset.params.coslen ≤ (256#16).toNat ∧ (255#16).toNat < State.reset.params.coslen ∧
      (v24 0#32 0#32 false true).regs.modReady = true ∧ State.reset.regs.modReady = false := by decide

theorem witness_CtRdReadsOneEntry :
    State.reset.params.coslen ≤ (0xFFFF#16).toNat ∧ (0#16).toNat < State.reset.params.coslen := by decide

/-- V12's rows: the two legal ones' bounds and the four illegal ones. -/
theorem witness_DemInitStartsASession :
    (1 ≤ (64#32).toNat ∧ (64#32).toNat ≤ State.reset.params.wmax ∧ (1#32).toNat ≠ 0 ∧
      (0x7FFFFFFF#32).toNat < 0x80000000) ∧
    (ready 0#32 false).regs.demWindow.toNat = (ready 0#32 false).params.wmax ∧
    State.reset.regs.demWindow.toNat = 0 ∧ State.reset.params.wmax < (65#32).toNat ∧
    State.reset.regs.demPllInc.toNat = 0 ∧ 0x80000000 ≤ (0x80000000#32).toNat := by decide

theorem witness_DemSampleIsOkExactlyWhenReady :
    (Invariant (ready 0#32 false) ∧ (ready 0#32 false).regs.demReady = true) ∧
      (Invariant State.reset ∧ State.reset.regs.demReady = false) :=
  ⟨⟨ready_invariant _ _, rfl⟩, reset_invariant, rfl⟩

/-- A wrapping sample with `CHAIN` = 0, and with `CHAIN` = 1 one that just does not wrap. -/
theorem witness_DemSampleFollowsTheFiveSteps :
    ((ready 0xC0000000#32 false).params.Legal ∧ (ready 0xC0000000#32 false).regs.demReady = true ∧
      1 ≤ (ready 0xC0000000#32 false).regs.demWindow.toNat ∧
      (ready 0xC0000000#32 false).regs.demWindow.toNat ≤ (ready 0xC0000000#32 false).params.wmax ∧
      (ready 0xC0000000#32 false).regs.wrPtr.toNat < (ready 0xC0000000#32 false).params.wmax ∧
      (ready 0xC0000000#32 false).regs.demPllAdj.toNat < 0x80000000 ∧
      (ready 0xC0000000#32 false).regs.chain = false) ∧
    (ready 0xBFFFFFFF#32 true).regs.demPhase.toNat + (ready 0xBFFFFFFF#32 true).regs.demPllInc.toNat < 2 ^ 32 := by
  decide

theorem witness_ChainedSamplePushesItsBit :
    Invariant (ready 0xC0000000#32 true) ∧ (ready 0xC0000000#32 true).regs.demReady = true ∧
      (ready 0xC0000000#32 true).regs.chain = true ∧
      2 ^ 32 ≤ (ready 0xC0000000#32 true).regs.demPhase.toNat + (ready 0xC0000000#32 true).regs.demPllInc.toNat ∧
      Invariant (ready 0xBFFFFFFF#32 true) ∧
      (ready 0xBFFFFFFF#32 true).regs.demPhase.toNat + (ready 0xBFFFFFFF#32 true).regs.demPllInc.toNat < 2 ^ 32 ∧
      (ready 0xC0000000#32 false).regs.chain = false :=
  ⟨ready_invariant _ _, rfl, rfl, by decide, ready_invariant _ _, by decide, rfl⟩

theorem witness_CorrelationAndDecisionAreBounded :
    (ready 0#32 false).regs.demWindow.toNat ≤ 64 ∧ (64#32).toNat ≤ 64 := by decide

theorem witness_SilenceNeverMakesATransition :
    Invariant (ready 0#32 false) ∧ (ready 0#32 false).regs.demReady = true ∧ (ready 0#32 false).regs.chain = false ∧
      (ready 0#32 false).regs.prevDec = false ∧
      ∀ i, i < (ready 0#32 false).regs.demWindow.toNat → winRead (ready 0#32 false) i = 0#16 :=
  ⟨ready_invariant _ _, rfl, rfl, rfl, by
    have h : ∀ i, i < 2 → winRead (ready 0#32 false) i = 0#16 := by decide
    exact fun i hi => h i hi⟩

theorem witness_ModInitStartsASession :
    (v24 0#32 0#32 false true).regs.modBaudInc.toNat ≠ 0 ∧ State.reset.regs.modBaudInc.toNat = 0 := by decide

theorem witness_ModSamplePollsLooksUpAndAdvances :
    State.reset.regs.modReady = false ∧ (v24 0#32 0#32 false true).regs.modReady = true := by decide

theorem witness_ModPollsOncePerBaudPeriod :
    (v24 0#32 0#32 false true).regs.modReady = true ∧ (v24 0#32 0#32 false true).regs.modBaud = 0#32 ∧
      (v24 0#32 0#32 false true).regs.needBit = true ∧ State.reset.regs.modIncLo = State.reset.regs.modIncHi := by
  decide

theorem witness_FrmRdReadsOneByte :
    State.reset.params.pktMax ≤ (266#16).toNat ∧ (265#16).toNat < State.reset.params.pktMax := by decide

/-- In the middle of a byte; the last bit of the version byte; the last bit of the last byte but one of a control
packet. -/
theorem witness_FrmBitStoresOneBit :
    (Memory.wf (framerAt [1#8, 1#8] 2#16 6#3) ∧ State.reset.params.Legal ∧
      (framerAt [1#8, 1#8] 2#16 6#3).regs.byteOff.toNat < (framerAt [1#8, 1#8] 2#16 6#3).params.pktMax ∧
      (∀ k, k < 8 → (1#8).getLsbD k =
        if (framerAt [1#8, 1#8] 2#16 6#3).regs.byteOff.toNat = 1 ∧
          k = (framerAt [1#8, 1#8] 2#16 6#3).regs.bitOff.toNat then true
        else (pbufRead (framerAt [1#8, 1#8] 2#16 6#3) 1).getLsbD k) ∧
      (framerAt [1#8, 1#8] 2#16 6#3).regs.bitOff.toNat < 7) ∧
    (framerAt [1#8] 0#16 7#3).regs.byteOff.toNat = 0 ∧
    (framerAt packetBut 29#16 7#3).regs.byteOff.toNat + 1 < target Config.standard 1#8 := by decide

theorem witness_UnknownTypeIsRejectedAtTheHeader :
    Memory.wf (framerAt [1#8, 3#8] 1#16 7#3) ∧ (framerAt [1#8, 3#8] 1#16 7#3).params.Legal ∧
      (framerAt [1#8, 3#8] 1#16 7#3).regs.byteOff = 1#16 ∧ (framerAt [1#8, 3#8] 1#16 7#3).regs.bitOff = 7#3 ∧
      3#8 ≠ 1#8 ∧ 3#8 ≠ 2#8 ∧
      ∀ k, k < 8 → (3#8).getLsbD k =
        if k = 7 then false else (pbufRead (framerAt [1#8, 3#8] 1#16 7#3) 1).getLsbD k := by decide

theorem witness_ControlPacketIsCheckedAsReceived :
    Memory.wf (framerAt packetBut 30#16 7#3) ∧ (framerAt packetBut 30#16 7#3).params.Legal ∧
      (framerAt packetBut 30#16 7#3).regs.byteOff = 30#16 ∧ (framerAt packetBut 30#16 7#3).regs.bitOff = 7#3 ∧
      pbufRead (framerAt packetBut 30#16 7#3) 1 = 1#8 := by decide

/-- A data packet of ten bytes, at its last bit, of the three kinds of version. -/
def dataAt (version : Byte) : State :=
  { framerAt ([version, 2#8] ++ List.replicate 8 0#8) 9#16 7#3 with params := { tiny with payloadLen := 0 } }

theorem witness_DataPacketIsUnstripedThenChecked :
    (Memory.wf (dataAt 1#8) ∧ (dataAt 1#8).params.Legal ∧
      (dataAt 1#8).regs.byteOff.toNat + 1 = 10 + (dataAt 1#8).params.payloadLen ∧ (dataAt 1#8).regs.bitOff = 7#3 ∧
      pbufRead (dataAt 1#8) 1 = 2#8) ∧
    pbufRead (dataAt 1#8) 0 = 1#8 ∧ pbufRead (dataAt 2#8) 0 = 2#8 ∧ pbufRead (dataAt 3#8) 0 = 3#8 := by decide

theorem witness_StripeXorsTheVersionsPattern :
    (2 ≤ 7 ∧ 7 < 2 + 26 ∧ 7 % 16 = 7) ∧ (15 < 2 + 26 ∧ 15 % 16 = 15) ∧ (27 < 2 + 26 ∧ 27 % 3 = 0) ∧
      ¬ (28 < 2 + 26) := by decide

/-- V60's packet whole, and with byte 27 flipped. -/
theorem witness_TrailingHashFlipAlwaysFails :
    (∀ i, i < 31 - 4 → pbufRead (framerAt (packetBut.set 27 0xE7#8) 0#16 0#3) i =
        pbufRead (framerAt (packetBut.set 30 0xDA#8) 0#16 0#3) i) ∧
      hashMatches (framerAt (packetBut.set 30 0xDA#8) 0#16 0#3) 31 = true ∧
      pbufRead (framerAt (packetBut.set 27 0xE7#8) 0#16 0#3) 27 ≠
        pbufRead (framerAt (packetBut.set 30 0xDA#8) 0#16 0#3) 27 := by decide +kernel

/-- Fifteen bits; and the sixteen bits of a control packet's header. -/
theorem witness_AccumulationStoresBitsInOrder :
    (Memory.wf State.reset ∧ State.reset.params.Legal ∧ State.reset.regs.byteOff = 0#16 ∧
      State.reset.regs.bitOff = 0#3 ∧
      (∀ k, k < 8 → (0#8).getLsbD k = (List.replicate 15 false).getD (8 + k) false) ∧
      (List.replicate 15 false).length < 16) ∧
    (∀ k, k < 8 → (1#8).getLsbD k = (List.replicate 8 false ++ [true] ++ List.replicate 7 false).getD (8 + k) false) ∧
    (List.replicate 8 false ++ [true] ++ List.replicate 7 false).length < 8 * target State.reset.params 1#8 := by
  decide

/-- The version byte, the type byte of each kind, and the last byte but one of a control packet. -/
theorem witness_FrmByteStoresTheByte :
    (Memory.wf State.reset ∧ State.reset.params.Legal ∧
      State.reset.regs.byteOff.toNat < State.reset.params.pktMax ∧ State.reset.regs.bitOff = 0#3 ∧
      State.reset.regs.byteOff.toNat = 0) ∧
    (framerAt [1#8] 1#16 0#3).regs.byteOff.toNat = 1 ∧
    (2 ≤ (framerAt packetBut 29#16 0#3).regs.byteOff.toNat ∧
      (framerAt packetBut 29#16 0#3).regs.byteOff.toNat + 1 <
        target Config.standard (pbufRead (framerAt packetBut 29#16 0#3) 1)) := by decide

theorem witness_EveryCandidateTerminates : Invariant (ready 0#32 false) ∧
    8 * (ready 0#32 false).params.pktMax ≤ (List.replicate 248 true).length :=
  ⟨ready_invariant _ _, by rw [List.length_replicate]; decide⟩

theorem witness_EqualBitsNeverMakeAValidPacket :
    Memory.wf State.reset ∧ State.reset.params.Legal ∧ State.reset.regs.byteOff = 0#16 ∧
      State.reset.regs.bitOff = 0#3 := by decide

theorem witness_UnitsShareNoState :
    exec .modHalt State.reset = .next { State.reset with response := okWith 0 } ∧
      opcode .modHalt ∈ [0x30#8, 0x31#8, 0x32#8] ∧
      exec .demHalt State.reset = .next { State.reset with response := okWith 0 } ∧
      opcode .demHalt ∈ [0x20#8, 0x21#8, 0x22#8] := ⟨rfl, by decide, rfl, by decide⟩

theorem witness_SessionsKeepTheirConfiguration :
    exec .nop (ready 0#32 false) = .next { ready 0#32 false with response := okWith 0 } ∧
      (ready 0#32 false).regs.demReady = true ∧ Instr.nop ≠ .sysReset ∧
      (v24 0#32 0#32 false true).regs.modReady = true := ⟨rfl, by decide, by decide, by decide⟩

theorem witness_OnlyInitHaltAndResetMoveAUnit :
    exec .demHalt (ready 0#32 false) = .next { ready 0#32 false with
      regs := { (ready 0#32 false).regs with demReady := false }, response := okWith 0 } ∧
      false ≠ (ready 0#32 false).regs.demReady ∧
      exec .modHalt (v24 0#32 0#32 false true) = .next { v24 0#32 0#32 false true with
        regs := { (v24 0#32 0#32 false true).regs with modReady := false }, response := okWith 0 } ∧
      false ≠ (v24 0#32 0#32 false true).regs.modReady := ⟨rfl, by decide, rfl, by decide⟩

theorem witness_OtherCommandsLeaveTheDemodulatorAlone :
    exec .demHalt State.reset = .next { State.reset with response := okWith 0 } ∧
      opcode .demHalt ∉ [0x20#8, 0x22#8] ∧ Instr.demHalt ≠ .sysReset ∧ ∀ v, Instr.demHalt ≠ .csrw 0x0014#16 v :=
  ⟨rfl, by decide, by decide, fun v h => by cases h⟩

theorem witness_EachStorageHasItsOwnWriters :
    seen (fun t => decide (t.ft ≠ State.reset.ft)) 0x1000000000000001#64 State.reset = some true ∧
      seen (fun t => decide (t.ct ≠ State.reset.ct)) 0x1200000000000001#64 State.reset = some true ∧
      seen (fun t => decide (t.win ≠ (ready 0#32 true).win)) 0x2200000000000001#64 (ready 0#32 true) = some true ∧
      seen (fun t => decide (t.pbuf ≠ State.reset.pbuf)) 0x4100000000000001#64 State.reset = some true := by decide

theorem witness_ReadsHaveNoSideEffect :
    opcode (.ctRd 0#16) ∈ [0x01#8, 0x11#8, 0x13#8, 0x42#8] ∧
      seen answer 0x1300008000000000#64 (v24 0#32 0#32 false true) = some (some (0, 0x8001)) ∧
      seen answer 0x4200000100000000#64 (framerAt [1#8, 3#8] 0#16 0#3) = some (some (0, 3)) := by decide

/-- A sample over tables and a window that are written whole. -/
theorem witness_UnspecifiedContentsReachOnlyTheListedReads :
    Invariant (ready 0#32 false) ∧ ¬ readsUnspecified (.demSample 1#16) (ready 0#32 false) ∧
      seen answer 0x2200000000000001#64 (ready 0#32 false) = some (some (0, 0)) := by
  refine ⟨ready_invariant _ _, ?_, by decide⟩
  rintro ⟨t, i, ht, hi, h⟩
  have key : ∀ t, t < 4 → ∀ i, i < 2 → storageGet (ready 0#32 false).ft (ftKey t i) ≠ none := by decide
  exact key t ht i hi h

theorem witness_BatchStopsAtTheFirstBit :
    Invariant (ready 0xC0000000#32 false) ∧ (ready 0xC0000000#32 false).regs.demReady = true :=
  ⟨ready_invariant _ _, rfl⟩

theorem witness_FtLoadWritesWindowAndTables :
    tiny.Legal ∧ (State.resetWith tiny 0).regs.demReady = false ∧ 2 ≤ tiny.wmax ∧
      2 ≤ (List.replicate 2 1#16).length ∧ 0 ≤ tiny.wmax ∧ 0 ≤ ([] : List Half).length := by decide

theorem witness_CtLoadWritesTheTable :
    tiny.Legal ∧ (State.resetWith tiny 0).regs.modReady = false ∧
      (List.replicate 2 1#16).length = (State.resetWith tiny 0).params.coslen := by decide

end Sys2Proof.Tests
end

section
/-! The step, said once: which of the three things it does for each kind of input (spec/00_scope.md R17, R20). -/

namespace Sys2Proof.Machine

open Sys2Proof

theorem step_of_no_input {s : State} (h : s.inbox = []) : step s = .next s := by
  simp only [step, nextInput, h, idle]

theorem step_of_powerOn {s : State} {rest : List HostInput} (h : s.inbox = .powerOn :: rest) :
    step s = powerOnReset { s with inbox := rest } := by
  simp only [step, nextInput, h]

theorem step_of_command {s : State} {w : CommandWord} {rest : List HostInput} (h : s.inbox = .command w :: rest) :
    step s = runWord w { s with inbox := rest } := by
  simp only [step, nextInput, h]

theorem runWord_of_decode {w : CommandWord} {i : Instr} (h : decode w = .ok i) (s : State) :
    runWord w s = exec i s := by
  simp only [runWord, h]

theorem runWord_of_illegal {w : CommandWord} {e : DecodeError} (h : decode w = .error e) (s : State) :
    runWord w s = .next (raiseFault .errOp (opField w) s) := by
  simp only [runWord, h, execIllegal]

/-- Settles O5: the step takes the word, which decodes to the command. -/
theorem stepRunsTheDecodedCommand : Obligations.StepRunsTheDecodedCommand := by
  intro s w rest i hinbox hdecode
  rw [step_of_command hinbox, runWord_of_decode hdecode]

end Sys2Proof.Machine
end

section
/-! The bounds of the exact sums (spec/00_scope.md R19, spec/42_demodulator.md R172, R173). -/

namespace Sys2Proof.Machine

open Sys2Proof

/-- An `s16` is at most 2^15 in magnitude, the value -2^15 being reached. -/
theorem abs_sext16_le (v : Half) : |sext16 v| ≤ 2 ^ 15 := by
  have hlow : -2 ^ 15 ≤ v.toInt := BitVec.le_toInt v
  have hhigh : v.toInt < 2 ^ 15 := BitVec.toInt_lt
  exact abs_le.2 ⟨hlow, hhigh.le⟩

/-- A sum of `n` terms of bounded magnitude is at most `n` times the bound. -/
theorem abs_sumBelow_le {f : Nat → Int} {c : Int} (h : ∀ j, |f j| ≤ c) (n : Nat) : |sumBelow f n| ≤ n * c := by
  induction n with
  | zero => simp [sumBelow]
  | succ n ih =>
    calc |sumBelow f (n + 1)| ≤ |sumBelow f n| + |f n| := abs_add_le _ _
      _ ≤ n * c + c := add_le_add ih (h n)
      _ = (n + 1 : Nat) * c := by push_cast; ring

/-- Each sample adds at most 2^30 to a correlation, so `W` of them make at most `W * 2^30`. -/
theorem abs_correlation_le (s : State) (k : Nat) : |correlation s k| ≤ s.regs.demWindow.toNat * 2 ^ 30 := by
  refine abs_sumBelow_le (fun j => ?_) _
  rw [abs_mul]
  exact mul_le_mul (abs_sext16_le _) (abs_sext16_le _) (abs_nonneg _) (by norm_num)

/-- The energy of two correlations of at most 2^36 in magnitude. -/
theorem energy_bounds {a b : Int} (ha : |a| ≤ 2 ^ 36) (hb : |b| ≤ 2 ^ 36) :
    0 ≤ a * a + b * b ∧ a * a + b * b ≤ 2 ^ 73 := by
  have hsq : ∀ {x : Int}, |x| ≤ 2 ^ 36 → x * x ≤ 2 ^ 72 := fun {x} hx =>
    calc x * x = |x| * |x| := (abs_mul_abs_self x).symm
      _ ≤ 2 ^ 36 * 2 ^ 36 := mul_le_mul hx hx (abs_nonneg _) (by norm_num)
      _ = 2 ^ 72 := by norm_num
  exact ⟨add_nonneg (mul_self_nonneg a) (mul_self_nonneg b), by linarith [hsq ha, hsq hb]⟩

/-- Settles O29: 64 products of 2^30 make 2^36, two squares of which make 2^73. -/
theorem correlationAndDecisionAreBounded : Obligations.CorrelationAndDecisionAreBounded := by
  intro s hwindow
  have hcorr : ∀ k, |correlation s k| ≤ 2 ^ 36 := fun k =>
    calc |correlation s k| ≤ s.regs.demWindow.toNat * 2 ^ 30 := abs_correlation_le s k
      _ ≤ 2 ^ 36 := by omega
  obtain ⟨hlow0, hlow⟩ : 0 ≤ energyLow s ∧ energyLow s ≤ 2 ^ 73 := energy_bounds (hcorr 0) (hcorr 1)
  obtain ⟨hhigh0, hhigh⟩ : 0 ≤ energyHigh s ∧ energyHigh s ≤ 2 ^ 73 := energy_bounds (hcorr 2) (hcorr 3)
  exact ⟨hcorr, hlow0, hlow, hhigh0, hhigh, abs_le.2 ⟨by linarith, by linarith⟩⟩

end Sys2Proof.Machine
end

section
/-! The invariant is kept by each operation on the state that a command is made of: the response, a fault, a write of
registers, of FT and of CT, the two resets. -/

namespace Sys2Proof.Machine

open Sys2Proof

theorem faultNumber_le (c : FaultCode) : (faultNumber c).toNat ≤ 5 := by cases c <;> decide

theorem pktMax_pos (p : Params) : 0 < p.pktMax := lt_of_lt_of_le (by decide) (Nat.le_max_left Config.ctrlLen _)

theorem respond_keeps_invariant {s : State} (h : Invariant s) (d : Word) : Invariant (respond d s) :=
  { h with responseLegal := fun r hr => by cases hr; exact Nat.zero_le 5 }

theorem raiseFault_keeps_invariant {s : State} (h : Invariant s) (c : FaultCode) (op : Byte) :
    Invariant (raiseFault c op s) :=
  { h with
    lastErrLegal := faultNumber_le c
    responseLegal := fun r hr => by cases hr; exact faultNumber_le c }

/-- The block with its registers at their reset values and storages in canonical form meets the invariant, whichever
reset it was (R67). -/
theorem invariant_of_regs_reset {s : State} (hp : s.params.Legal) (hm : Memory.wf s) (hr : s.regs = Regs.reset)
    (hresp : ∀ r, s.response = some r → r.code.toNat ≤ 5) : Invariant s where
  paramsLegal := hp
  memoryWf := hm
  demLegal h := by rw [hr] at h; cases h
  wrPtrInside h := by rw [hr] at h; cases h
  windowKnown h := by rw [hr] at h; cases h
  modLegal h := by rw [hr] at h; cases h
  byteOffInside := by rw [hr]; exact pktMax_pos s.params
  beforeTarget h := by rw [hr] at h; exact absurd h (by decide)
  candidateKnown i k _ h := by rw [hr] at h; exact absurd h (Nat.not_lt_zero _)
  lastErrLegal := by rw [hr]; decide
  responseLegal := hresp

/-- The base case: the block right after a power-on reset. -/
theorem resetWith_invariant {p : Params} (hp : p.Legal) (n : Nat) : Invariant (State.resetWith p n) :=
  invariant_of_regs_reset hp (reset_memory_wf p n) rfl (fun _ hr => by cases hr)

/-- The invariant does not speak of the waiting inputs. -/
theorem withInbox_keeps_invariant {s : State} (h : Invariant s) (l : List HostInput) :
    Invariant { s with inbox := l } :=
  { h with }

/-- Registers may change freely but for the framer's position, a READY unit's configuration and `wr_ptr`, and the
code in `LASTERR`. -/
theorem setRegs_keeps_invariant {s : State} {r : Regs} (h : Invariant s)
    (hpos : r.byteOff = s.regs.byteOff ∧ r.bitOff = s.regs.bitOff)
    (hdem : r.demReady = true →
      demConfigLegal s.params r = true ∧ r.wrPtr.toNat < r.demWindow.toNat ∧ windowWritten s)
    (hmod : r.modReady = true → modConfigLegal r = true) (herr : r.lastErrCode.toNat ≤ 5) :
    Invariant (s.setRegs r) where
  paramsLegal := h.paramsLegal
  memoryWf := h.memoryWf
  demLegal hr := (hdem hr).1
  wrPtrInside hr := (hdem hr).2.1
  windowKnown hr := (hdem hr).2.2
  modLegal := hmod
  byteOffInside := by rw [setRegs_regs, hpos.1]; exact h.byteOffInside
  beforeTarget := by rw [setRegs_regs, hpos.1]; exact h.beforeTarget
  candidateKnown i k hk hlt := h.candidateKnown i k hk (by rwa [setRegs_regs, hpos.1, hpos.2] at hlt)
  lastErrLegal := herr
  responseLegal := h.responseLegal

/-- What the invariant says of a READY demodulator. -/
theorem Invariant.demSession {s : State} (h : Invariant s) (hr : s.regs.demReady = true) :
    demConfigLegal s.params s.regs = true ∧ s.regs.wrPtr.toNat < s.regs.demWindow.toNat ∧ windowWritten s :=
  ⟨h.demLegal hr, h.wrPtrInside hr, h.windowKnown hr⟩

/-- The fields that no write of a register changes. -/
theorem csrWrite_frame (c : Csr) (v : Word) (r : Regs) :
    (csrWrite c v r).demReady = r.demReady ∧ (csrWrite c v r).modReady = r.modReady ∧
      (csrWrite c v r).wrPtr = r.wrPtr ∧ (csrWrite c v r).lastErrCode = r.lastErrCode ∧
      (csrWrite c v r).byteOff = r.byteOff ∧ (csrWrite c v r).bitOff = r.bitOff := by
  cases c <;> exact ⟨rfl, rfl, rfl, rfl, rfl, rfl⟩

/-- The lock keeps the configuration of a READY demodulator (R69). -/
theorem csrWrite_keeps_demConfig {c : Csr} {r : Regs} (v : Word) (hl : locked (csrAccess c) r = false)
    (hr : r.demReady = true) :
    (csrWrite c v r).demWindow = r.demWindow ∧ (csrWrite c v r).demPllInc = r.demPllInc ∧
      (csrWrite c v r).demPllAdj = r.demPllAdj := by
  cases c
  case demWindow | demPllInc | demPllAdj => exact absurd (hr.symm.trans hl) (by decide)
  all_goals exact ⟨rfl, rfl, rfl⟩

/-- The lock keeps the configuration of a READY modulator (R69). -/
theorem csrWrite_keeps_modConfig {c : Csr} {r : Regs} (v : Word) (hl : locked (csrAccess c) r = false)
    (hr : r.modReady = true) :
    (csrWrite c v r).modIncLo = r.modIncLo ∧ (csrWrite c v r).modIncHi = r.modIncHi ∧
      (csrWrite c v r).modBaudInc = r.modBaudInc := by
  cases c
  case modIncLo | modIncHi | modBaudInc => exact absurd (hr.symm.trans hl) (by decide)
  all_goals exact ⟨rfl, rfl, rfl⟩

/-- A write of a register that is not locked. -/
theorem csrWrite_keeps_invariant {s : State} {c : Csr} (h : Invariant s) (v : Word)
    (hl : locked (csrAccess c) s.regs = false) : Invariant (s.setRegs (csrWrite c v s.regs)) := by
  obtain ⟨hdem, hmod, hptr, herr, hbyte, hbit⟩ := csrWrite_frame c v s.regs
  refine setRegs_keeps_invariant h ⟨hbyte, hbit⟩ (fun hr => ?_) (fun hr => ?_) (herr ▸ h.lastErrLegal)
  · rw [hdem] at hr
    obtain ⟨hwin, hinc, hadj⟩ := csrWrite_keeps_demConfig v hl hr
    simpa only [demConfigLegal, hwin, hinc, hadj, hptr] using h.demSession hr
  · rw [hmod] at hr
    obtain ⟨-, -, hbaud⟩ := csrWrite_keeps_modConfig v hl hr
    simpa only [modConfigLegal, hbaud] using h.modLegal hr

theorem ftWrite_keeps_invariant {s : State} (h : Invariant s) {t i : Nat} (v : Half) (ht : t < 4) (hi : i < 256)
    (hw : i < s.params.wmax) : Invariant (ftWrite t i v s) :=
  { h with memoryWf := ftWrite_wf h.memoryWf v ht hi hw }

theorem ctWrite_keeps_invariant {s : State} (h : Invariant s) {k : Nat} (v : Half) (hk : k < s.params.coslen) :
    Invariant (ctWrite k v s) :=
  { h with memoryWf := ctWrite_wf h.memoryWf v hk }

theorem ftIndexLegal_iff (p : Params) (zero : BitVec 6) (i : BitVec 8) :
    ftIndexLegal p zero i = true ↔ zero = 0#6 ∧ i.toNat < p.wmax := by
  simp only [ftIndexLegal, Bool.and_eq_true, beq_iff_eq, decide_eq_true_eq]

theorem ctIndexLegal_iff (p : Params) (k : BitVec 16) : ctIndexLegal p k = true ↔ k.toNat < p.coslen := by
  simp only [ctIndexLegal, decide_eq_true_eq]

end Sys2Proof.Machine
end

section
/-! The invariant is kept by the framer's `PushBit` (spec/44_framer.md R221) and by a sample of the demodulator
(spec/42_demodulator.md R170 to R180). -/

namespace Sys2Proof.Machine

open Sys2Proof

/-- The part of `Invariant` that is about the framer. -/
structure FramerInvariant (s : State) : Prop where
  byteOffInside : s.regs.byteOff.toNat < s.params.pktMax
  beforeTarget : 2 ≤ s.regs.byteOff.toNat → s.regs.byteOff.toNat < target s.params (pbufRead s 1)
  candidateKnown : candidateWritten s

/-- A change of PBUF and of the framer's position asks for nothing but the framer's part and the canonical form. -/
theorem framerUpdate_keeps_invariant {s u : State} {m : Storage PbufByte} {n : BitVec 16} {k : BitVec 3}
    (h : Invariant s) (hu : u = { s with pbuf := m, regs := { s.regs with byteOff := n, bitOff := k } })
    (hw : Memory.wf u) (hf : FramerInvariant u) : Invariant u := by
  subst hu
  exact { h with
    memoryWf := hw
    byteOffInside := hf.byteOffInside
    beforeTarget := hf.beforeTarget
    candidateKnown := hf.candidateKnown }

/-- At position 0 nothing has been accumulated. -/
theorem framerInvariant_at_start (s : State) : FramerInvariant (setPosition 0#16 0#3 s) where
  byteOffInside := pktMax_pos s.params
  beforeTarget h := absurd h (by simp)
  candidateKnown _ _ _ h := absurd h (Nat.not_lt_zero _)

theorem frmClear_keeps_invariant {s : State} (h : Invariant s) : Invariant (setPosition 0#16 0#3 s) :=
  framerUpdate_keeps_invariant h rfl h.memoryWf (framerInvariant_at_start s)

/-- Once a bit is stored, every bit up to the position it was stored at is written. -/
theorem bitStored_written {s : State} (b : Bool) (h : candidateWritten s) {i k : Nat} (hk : k < 8)
    (hle : 8 * i + k ≤ 8 * s.regs.byteOff.toNat + s.regs.bitOff.toNat) :
    pbufBitWritten (bitStored b s) i k = true := by
  have hbit : s.regs.bitOff.toNat < 8 := s.regs.bitOff.isLt
  rw [pbufBitWritten_pbufWriteBit _ _ _ _ hbit hk, Bool.or_eq_true]
  rcases hle.lt_or_eq with hlt | heq
  · exact .inr (h i k hk hlt)
  · left
    simp only [Bool.and_eq_true, beq_iff_eq]
    omega

/-- A bit stored behind the header leaves the type byte, and so the candidate's length (R222). -/
theorem typeByte_bitStored {s : State} (b : Bool) (hw : Memory.wf s) (h : 2 ≤ s.regs.byteOff.toNat) :
    pbufRead (bitStored b s) 1 = pbufRead s 1 := by
  rw [pbufRead_pbufWriteBit _ _ _ s.regs.bitOff.isLt hw.2.2.2.2, if_neg (by omega)]

/-- `PushBit` keeps the framer's part: the byte goes on, the next one begins below the candidate's length, or the
candidate is complete and the position returns to 0 (R221). -/
theorem pushBit_framerInvariant {s : State} (h : Invariant s) (b : Bool) : FramerInvariant (pushBit b s).state := by
  have hsucc := byteOff_succ h.paramsLegal h.byteOffInside
  rcases pushBit_cases b s with ⟨hbit, e⟩ | ⟨hbit, hbelow, e⟩ | ⟨-, -, -, e⟩ <;> rw [e]
  · have hnext : (s.regs.bitOff + 1#3).toNat = s.regs.bitOff.toNat + 1 := by
      rw [BitVec.toNat_add, BitVec.toNat_ofNat]
      omega
    exact {
      byteOffInside := h.byteOffInside
      beforeTarget := fun h2 => (typeByte_bitStored b h.memoryWf h2).symm ▸ h.beforeTarget h2
      candidateKnown := fun i k hk hlt =>
        bitStored_written b h.candidateKnown hk (by simp only [setPosition_regs, hnext] at hlt; omega) }
  · have htarget := target_le_pktMax s.params (pbufRead (bitStored b s) 1)
    have htwo := two_le_target s.params (pbufRead (bitStored b s) 1)
    exact {
      byteOffInside := by
        show (s.regs.byteOff + 1#16).toNat < s.params.pktMax
        omega
      beforeTarget := fun h2 => hbelow.resolve_left (Nat.not_lt.2 h2)
      candidateKnown := fun i k hk hlt =>
        bitStored_written b h.candidateKnown hk (by
          simp only [setPosition_regs, hsucc, BitVec.toNat_ofNat] at hlt
          omega) }
  · exact framerInvariant_at_start _

theorem pushBit_keeps_invariant {s : State} (h : Invariant s) (b : Bool) : Invariant (pushBit b s).state := by
  obtain ⟨m, n, k, hframe⟩ := pushBit_frame b s
  exact framerUpdate_keeps_invariant h hframe (pushBit_wf b h.memoryWf h.byteOffInside) (pushBit_framerInvariant h b)

/-- A session begins with `wr_ptr` 0 and every entry of WIN written (R162). -/
theorem demInitState_keeps_invariant {s : State} (h : Invariant s) (hlegal : demConfigLegal s.params s.regs = true) :
    Invariant (demInitState s) :=
  { h with
    memoryWf := zeroWindow_memory_wf h.memoryWf
    demLegal := fun _ => hlegal
    wrPtrInside := fun _ => ((demConfigLegal_iff _ _).1 hlegal).1
    windowKnown := fun _ i hi => by
      show (storageGet (zeroWindow s.params.wmax) i).isSome = true
      rw [storageGet_zeroWindow, if_pos (show i < s.params.wmax from hi)]
      rfl }

/-- Writing an entry leaves every written entry of WIN written. -/
theorem storagePut_isSome {α : Type} {m : Storage α} {j : Nat} (h : (storageGet m j).isSome = true) (i : Nat) (v : α) :
    (storageGet (storagePut m i v) j).isSome = true := by
  rw [storageGet_put]
  split
  · rfl
  · exact h

/-- While DEM is READY every access of a sample is inside its storage (R71). -/
theorem windowInside_of_invariant {s : State} (h : Invariant s) (hr : s.regs.demReady = true) :
    windowInside s = true := by
  obtain ⟨hlegal, hptr, -⟩ := h.demSession hr
  obtain ⟨hpos, hmax, -⟩ := (demConfigLegal_iff _ _).1 hlegal
  exact (windowInside_iff s).2 ⟨hpos, hmax, lt_of_lt_of_le hptr hmax⟩

/-- `wr_ptr` moves on inside the window (R171); its eight bits hold every window length (R11). -/
theorem wrPtr_next_lt {w p : Nat} (hpos : 1 ≤ w) (hmax : w ≤ 255) : (BitVec.ofNat 8 ((p + 1) % w)).toNat < w := by
  have hlt : (p + 1) % w < w := Nat.mod_lt _ hpos
  rw [BitVec.toNat_ofNat, Nat.mod_eq_of_lt (by omega)]
  exact hlt

theorem demodulate_keeps_invariant {s : State} (h : Invariant s) (hr : s.regs.demReady = true) (v : Half) :
    Invariant (demodulate v s).state := by
  obtain ⟨hpos, hmax, hptr⟩ := (windowInside_iff s).1 (windowInside_of_invariant h hr)
  rw [demodulate_state]
  exact { h with
    memoryWf := winWrite_wf h.memoryWf v hptr
    wrPtrInside := fun _ => wrPtr_next_lt hpos (hmax.trans h.paramsLegal.2.1)
    windowKnown := fun _ i hi => storagePut_isSome (h.windowKnown hr i hi) _ v }

end Sys2Proof.Machine
end

section
/-! From the commands to the step and to every run: no command stops from the invariant, every one keeps it
(spec/00_scope.md R25). -/

namespace Sys2Proof.Machine

open Sys2Proof

/-- A command that passes its checks keeps the invariant. -/
theorem completes_keeps_invariant {i : Instr} {s u : State} {d : Word} (h : Invariant s) (hc : completes s d u i) :
    Invariant u := by
  cases i with
  | nop => obtain ⟨-, rfl⟩ := hc; exact h
  | csrr idx => obtain ⟨-, -, -, rfl⟩ := hc; exact h
  | csrw idx v => obtain ⟨c, -, -, hl, -, rfl⟩ := hc; exact csrWrite_keeps_invariant h v hl
  | sysReset =>
    obtain ⟨-, rfl⟩ := hc
    exact invariant_of_regs_reset h.paramsLegal h.memoryWf rfl h.responseLegal
  | ftWr zero k i v =>
    obtain ⟨hi, -, -, rfl⟩ := hc
    exact ftWrite_keeps_invariant h v k.isLt i.isLt ((ftIndexLegal_iff _ _ _).1 hi).2
  | ftRd zero k i => obtain ⟨-, -, rfl⟩ := hc; exact h
  | ctWr k v => obtain ⟨hk, -, -, rfl⟩ := hc; exact ctWrite_keeps_invariant h v ((ctIndexLegal_iff _ _).1 hk)
  | ctRd k => obtain ⟨-, -, rfl⟩ := hc; exact h
  | demInit => obtain ⟨hlegal, -, rfl⟩ := hc; exact demInitState_keeps_invariant h hlegal
  | demHalt =>
    obtain ⟨-, rfl⟩ := hc
    exact setRegs_keeps_invariant h ⟨rfl, rfl⟩ (fun hr => by cases hr) h.modLegal h.lastErrLegal
  | demSample v =>
    obtain ⟨hr, -, ⟨-, -, rfl⟩ | ⟨-, -, -, -, rfl⟩⟩ := hc
    · exact demodulate_keeps_invariant h hr v
    · exact pushBit_keeps_invariant (demodulate_keeps_invariant h hr v) _
  | modInit =>
    obtain ⟨hlegal, -, rfl⟩ := hc
    exact setRegs_keeps_invariant h ⟨rfl, rfl⟩ h.demSession (fun _ => hlegal) h.lastErrLegal
  | modHalt =>
    obtain ⟨-, rfl⟩ := hc
    exact setRegs_keeps_invariant h ⟨rfl, rfl⟩ h.demSession (fun hr => by cases hr) h.lastErrLegal
  | modSample b =>
    obtain ⟨-, -, rfl⟩ := hc
    exact setRegs_keeps_invariant h ⟨rfl, rfl⟩ h.demSession h.modLegal h.lastErrLegal
  | frmClear => obtain ⟨-, rfl⟩ := hc; exact frmClear_keeps_invariant h
  | frmBit b => obtain ⟨-, -, rfl⟩ := hc; exact pushBit_keeps_invariant h b
  | frmRd i => obtain ⟨-, -, rfl⟩ := hc; exact h

theorem exec_keeps_invariant {i : Instr} {s t : State} (h : Invariant s) (he : exec i s = .next t) : Invariant t := by
  rcases exec_outcomes he with ⟨c, -, rfl⟩ | ⟨d, u, hc, rfl⟩
  · exact raiseFault_keeps_invariant h c _
  · exact respond_keeps_invariant (completes_keeps_invariant h hc) d

/-- No command touches the waiting inputs. -/
theorem exec_inbox {i : Instr} {s t : State} (he : exec i s = .next t) : t.inbox = s.inbox := by
  rcases exec_outcomes he with ⟨c, -, rfl⟩ | ⟨d, u, hc, rfl⟩
  · rfl
  · exact (completes_frame hc).2.2

/-- No command stops from the invariant: the two stops name accesses outside a storage, which it excludes (R71). -/
theorem exec_answers {s : State} (h : Invariant s) (i : Instr) : ∃ t, exec i s = .next t := by
  have hpos : positionInside s = true := (positionInside_iff s).2 h.byteOffInside
  cases i with
  | csrr idx => rcases execCsrr_cases idx s with ⟨-, e⟩ | ⟨c, -, e⟩ <;> exact ⟨_, e⟩
  | csrw idx v =>
    rcases execCsrw_cases idx v s with ⟨-, e⟩ | ⟨c, -, ⟨-, e⟩ | ⟨-, -, e⟩ | ⟨-, -, e⟩⟩ <;> exact ⟨_, e⟩
  | ftWr zero k i v =>
    rcases execFtWr_cases zero k i v s with ⟨-, e⟩ | ⟨-, -, e⟩ | ⟨-, -, e⟩ <;> exact ⟨_, e⟩
  | ftRd zero k i => rcases execFtRd_cases zero k i s with ⟨-, e⟩ | ⟨-, e⟩ <;> exact ⟨_, e⟩
  | ctWr k v => rcases execCtWr_cases k v s with ⟨-, e⟩ | ⟨-, -, e⟩ | ⟨-, -, e⟩ <;> exact ⟨_, e⟩
  | ctRd k => rcases execCtRd_cases k s with ⟨-, e⟩ | ⟨-, e⟩ <;> exact ⟨_, e⟩
  | demInit => rcases execDemInit_cases s with ⟨-, e⟩ | ⟨-, e⟩ <;> exact ⟨_, e⟩
  | demSample v =>
    rcases execDemSample_cases v s with ⟨-, e⟩ | ⟨hr, hout, -⟩ | ⟨-, -, -, e⟩ | ⟨-, -, -, -, ⟨hout, -⟩ | ⟨-, e⟩⟩
    · exact ⟨_, e⟩
    · exact absurd ((windowInside_of_invariant h hr).symm.trans hout) (by decide)
    · exact ⟨_, e⟩
    · exact absurd (hpos.symm.trans hout) (by decide)
    · exact ⟨_, e⟩
  | modInit => rcases execModInit_cases s with ⟨-, e⟩ | ⟨-, e⟩ <;> exact ⟨_, e⟩
  | modSample b => rcases execModSample_cases b s with ⟨-, e⟩ | ⟨-, e⟩ <;> exact ⟨_, e⟩
  | frmBit b =>
    rcases execFrmBit_cases b s with ⟨hout, -⟩ | ⟨-, e⟩
    · exact absurd (hpos.symm.trans hout) (by decide)
    · exact ⟨_, e⟩
  | frmRd i => rcases execFrmRd_cases i s with ⟨-, e⟩ | ⟨-, e⟩ <;> exact ⟨_, e⟩
  | nop | sysReset | demHalt | modHalt | frmClear => exact ⟨_, rfl⟩

/-- Every word, command or not, is answered from the invariant; the waiting inputs stay as they are. -/
theorem runWord_answers {s : State} (h : Invariant s) (w : CommandWord) :
    ∃ t, runWord w s = .next t ∧ t.inbox = s.inbox ∧ Invariant t := by
  cases hd : decode w with
  | error e => exact ⟨_, runWord_of_illegal hd s, rfl, raiseFault_keeps_invariant h _ _⟩
  | ok i =>
    obtain ⟨t, he⟩ := exec_answers h i
    exact ⟨t, (runWord_of_decode hd s).trans he, exec_inbox he, exec_keeps_invariant h he⟩

/-- A step from the invariant ends in a next state of the invariant, with the first waiting input taken. -/
theorem step_answers {s : State} (h : Invariant s) :
    ∃ t, step s = .next t ∧ t.inbox = s.inbox.tail ∧ Invariant t := by
  match hin : s.inbox with
  | [] => exact ⟨s, step_of_no_input hin, hin, h⟩
  | .powerOn :: rest =>
    exact ⟨_, step_of_powerOn hin, rfl, withInbox_keeps_invariant (resetWith_invariant h.paramsLegal _) rest⟩
  | .command w :: rest =>
    obtain ⟨t, e, hinbox, ht⟩ := runWord_answers (withInbox_keeps_invariant h rest) w
    exact ⟨t, (step_of_command hin).trans e, hinbox, ht⟩

/-- One step of the machine and then the others. -/
theorem run_succ_of_step {s t : State} (n : Nat) (h : step s = .next t) :
    Host.Core.run Sys2Proof.core (n + 1) s = Host.Core.run Sys2Proof.core n t := by
  have hcore : Sys2Proof.core.step s = .next t := h
  simp only [Host.Core.run, hcore]

/-- As many steps as inputs wait take them all, from any state of the invariant. -/
theorem run_takes_every_input (inputs : List HostInput) {s : State} (h : Invariant s) (hin : s.inbox = inputs) :
    ∃ t : State, Host.Core.run Sys2Proof.core inputs.length s = .next t ∧ t.inbox = [] ∧ Invariant t := by
  induction inputs generalizing s with
  | nil => exact ⟨s, rfl, hin, h⟩
  | cons x rest ih =>
    obtain ⟨u, hstep, hinbox, hu⟩ := step_answers h
    obtain ⟨t, hrun, hdone⟩ := ih hu (by rw [hinbox, hin, List.tail_cons])
    exact ⟨t, (run_succ_of_step rest.length hstep).trans hrun, hdone⟩

/-- Settles O12: the state after a power-on reset meets the invariant, from which every input is taken. -/
theorem everyHostSequenceRunsToItsEnd : Obligations.EveryHostSequenceRunsToItsEnd := by
  intro p n inputs hp
  exact run_takes_every_input inputs (withInbox_keeps_invariant (resetWith_invariant hp n) inputs) rfl

end Sys2Proof.Machine
end

section
/-! What the commands and both resets leave of the state: the invariant, the constant registers, a session's
configuration, the READY bits (spec/10_state.md R35, R41 to R44, R69). -/

namespace Sys2Proof.Machine

open Sys2Proof

/-- Settles O10: `step_answers` names the one state a step from the invariant answers. -/
theorem everyStepKeepsTheInvariant : Obligations.EveryStepKeepsTheInvariant := by
  intro s t h hstep
  obtain ⟨u, hu, -, hinv⟩ := step_answers h
  cases hstep.symm.trans hu
  exact hinv

/-- Settles O9: nothing is READY, listed or accumulated, and no code is set. -/
theorem resetMeetsTheInvariant : Obligations.ResetMeetsTheInvariant :=
  fun _ n hp => resetWith_invariant hp n

theorem exec_frame {i : Instr} {s t : State} (he : exec i s = .next t) :
    t.params = s.params ∧ t.powerOns = s.powerOns ∧ t.inbox = s.inbox := by
  rcases exec_outcomes he with ⟨c, -, rfl⟩ | ⟨d, u, hc, rfl⟩
  · exact ⟨rfl, rfl, rfl⟩
  · obtain ⟨hparams, hpowerOns, hinbox⟩ := completes_frame hc
    exact ⟨hparams, hpowerOns, hinbox⟩

/-- The constant registers are functions of the parameters (R41 to R44). -/
theorem csrRead_constant_congr {s t : State} {c : Csr} (hp : t.params = s.params)
    (hc : c ∈ [Csr.id, Csr.param0, Csr.param1, Csr.hashseed]) : csrRead c t = csrRead c s := by
  cases c
  case id | param0 | param1 | hashseed => simp only [csrRead, hp]
  all_goals exact absurd hc (by decide)

/-- Settles O13: the parameters are in every command's frame, and the four registers are functions of them. -/
theorem constantRegistersNeverChange : Obligations.ConstantRegistersNeverChange := by
  intro i s t he
  obtain ⟨hparams, hpowerOns, hinbox⟩ := exec_frame he
  exact ⟨hparams, hpowerOns, hinbox, fun c hc => csrRead_constant_congr hparams hc⟩

/-- `PushBit` changes no register but the framer's position (R221). -/
theorem pushBit_regs (b : Bool) (s : State) :
    ∃ n k, (pushBit b s).state.regs = { s.regs with byteOff := n, bitOff := k } := by
  obtain ⟨_, n, k, h⟩ := pushBit_frame b s
  exact ⟨n, k, by rw [h]⟩

/-- What a demodulator session is configured with is the same in `u` as in `s` (R69, R82). -/
abbrev DemConfigKept (s u : State) : Prop :=
  u.regs.demWindow = s.regs.demWindow ∧ u.regs.demPllInc = s.regs.demPllInc ∧
    u.regs.demPllAdj = s.regs.demPllAdj ∧ u.ft = s.ft

/-- What a modulator session is configured with is the same in `u` as in `s` (R69, R82). -/
abbrev ModConfigKept (s u : State) : Prop :=
  u.regs.modIncLo = s.regs.modIncLo ∧ u.regs.modIncHi = s.regs.modIncHi ∧
    u.regs.modBaudInc = s.regs.modBaudInc ∧ u.ct = s.ct

theorem pushBit_keeps_config (b : Bool) (s : State) :
    DemConfigKept s (pushBit b s).state ∧ ModConfigKept s (pushBit b s).state := by
  obtain ⟨n, k, h⟩ := pushBit_regs b s
  simp only [DemConfigKept, ModConfigKept, h, pushBit_ft, pushBit_ct, and_self]

/-- The writers of a configuration are `CSRW`, `FT.WR` and `CT.WR`, which the lock stops, and `SYS.RESET`. -/
theorem completes_keeps_config {i : Instr} {s u : State} {d : Word} (h : completes s d u i) (hi : i ≠ .sysReset) :
    (s.regs.demReady = true → DemConfigKept s u) ∧ (s.regs.modReady = true → ModConfigKept s u) := by
  cases i with
  | csrw idx v =>
    obtain ⟨c, -, -, hl, -, rfl⟩ := h
    refine ⟨fun hr => ?_, fun hr => ?_⟩
    · obtain ⟨hwin, hinc, hadj⟩ := csrWrite_keeps_demConfig v hl hr
      exact ⟨hwin, hinc, hadj, rfl⟩
    · obtain ⟨hlo, hhi, hbaud⟩ := csrWrite_keeps_modConfig v hl hr
      exact ⟨hlo, hhi, hbaud, rfl⟩
  | sysReset => exact absurd rfl hi
  | ftWr zero k e v =>
    obtain ⟨-, hidle, -, rfl⟩ := h
    exact ⟨fun hr => absurd (hr.symm.trans hidle) (by decide), fun _ => ⟨rfl, rfl, rfl, rfl⟩⟩
  | ctWr k v =>
    obtain ⟨-, hidle, -, rfl⟩ := h
    exact ⟨fun _ => ⟨rfl, rfl, rfl, rfl⟩, fun hr => absurd (hr.symm.trans hidle) (by decide)⟩
  | demSample v =>
    obtain ⟨-, -, ⟨-, -, rfl⟩ | ⟨-, -, -, -, rfl⟩⟩ := h
    · exact ⟨fun _ => ⟨rfl, rfl, rfl, rfl⟩, fun _ => ⟨rfl, rfl, rfl, rfl⟩⟩
    · obtain ⟨hdem, hmod⟩ := pushBit_keeps_config (demodulate v s).dec (demodulate v s).state
      exact ⟨fun _ => hdem, fun _ => hmod⟩
  | frmBit b =>
    obtain ⟨-, -, rfl⟩ := h
    obtain ⟨hdem, hmod⟩ := pushBit_keeps_config b s
    exact ⟨fun _ => hdem, fun _ => hmod⟩
  | csrr => obtain ⟨-, -, -, rfl⟩ := h; exact ⟨fun _ => ⟨rfl, rfl, rfl, rfl⟩, fun _ => ⟨rfl, rfl, rfl, rfl⟩⟩
  | nop | demHalt | modHalt | frmClear =>
    obtain ⟨-, rfl⟩ := h; exact ⟨fun _ => ⟨rfl, rfl, rfl, rfl⟩, fun _ => ⟨rfl, rfl, rfl, rfl⟩⟩
  | ftRd | ctRd | demInit | modInit | modSample | frmRd =>
    obtain ⟨-, -, rfl⟩ := h; exact ⟨fun _ => ⟨rfl, rfl, rfl, rfl⟩, fun _ => ⟨rfl, rfl, rfl, rfl⟩⟩

/-- Settles O48: a fault touches no configuration, and a command that passes its checks has passed the lock. -/
theorem sessionsKeepTheirConfiguration : Obligations.SessionsKeepTheirConfiguration := by
  intro i s t he
  rcases exec_outcomes he with ⟨c, -, rfl⟩ | ⟨d, u, hc, rfl⟩
  · exact ⟨fun _ _ => ⟨rfl, rfl, rfl, rfl⟩, fun _ _ => ⟨rfl, rfl, rfl, rfl⟩⟩
  · exact ⟨fun hr hi => (completes_keeps_config hc hi).1 hr, fun hr hi => (completes_keeps_config hc hi).2 hr⟩

/-- A READY bit is as it was, or command `i`, answering `d`, moved it: set by `init`, or cleared by `halt` or
`SYS.RESET` (R35). -/
abbrev ReadyMove (init halt i : Instr) (d : Word) (before after : Bool) : Prop :=
  after = before ∨ (after = true ∧ i = init ∧ d = 0#32) ∨ (after = false ∧ (i = halt ∨ i = .sysReset))

/-- What a command that passes its checks does to the READY bits. -/
theorem completes_readyMove {i : Instr} {s u : State} {d : Word} (h : completes s d u i) :
    ReadyMove .demInit .demHalt i d s.regs.demReady u.regs.demReady ∧
      ReadyMove .modInit .modHalt i d s.regs.modReady u.regs.modReady := by
  cases i with
  | sysReset => obtain ⟨-, rfl⟩ := h; exact ⟨.inr (.inr ⟨rfl, .inr rfl⟩), .inr (.inr ⟨rfl, .inr rfl⟩)⟩
  | demInit => obtain ⟨-, hd, rfl⟩ := h; exact ⟨.inr (.inl ⟨rfl, rfl, hd⟩), .inl rfl⟩
  | demHalt => obtain ⟨-, rfl⟩ := h; exact ⟨.inr (.inr ⟨rfl, .inl rfl⟩), .inl rfl⟩
  | modInit => obtain ⟨-, hd, rfl⟩ := h; exact ⟨.inl rfl, .inr (.inl ⟨rfl, rfl, hd⟩)⟩
  | modHalt => obtain ⟨-, rfl⟩ := h; exact ⟨.inl rfl, .inr (.inr ⟨rfl, .inl rfl⟩)⟩
  | csrw idx v =>
    obtain ⟨c, -, -, -, -, rfl⟩ := h
    obtain ⟨hdem, hmod, -⟩ := csrWrite_frame c v s.regs
    exact ⟨.inl hdem, .inl hmod⟩
  | demSample v =>
    obtain ⟨-, -, ⟨-, -, rfl⟩ | ⟨-, -, -, -, rfl⟩⟩ := h
    · exact ⟨.inl rfl, .inl rfl⟩
    · obtain ⟨n, k, e⟩ := pushBit_regs (demodulate v s).dec (demodulate v s).state
      rw [e]
      exact ⟨.inl rfl, .inl rfl⟩
  | frmBit b =>
    obtain ⟨-, -, rfl⟩ := h
    obtain ⟨n, k, e⟩ := pushBit_regs b s
    rw [e]
    exact ⟨.inl rfl, .inl rfl⟩
  | csrr | ftWr | ctWr => obtain ⟨-, -, -, rfl⟩ := h; exact ⟨.inl rfl, .inl rfl⟩
  | nop | frmClear => obtain ⟨-, rfl⟩ := h; exact ⟨.inl rfl, .inl rfl⟩
  | ftRd | ctRd | modSample | frmRd => obtain ⟨-, -, rfl⟩ := h; exact ⟨.inl rfl, .inl rfl⟩

/-- Settles O49: a fault moves no READY bit, and an `INIT` that passes its check answers `OK` with 0. -/
theorem onlyInitHaltAndResetMoveAUnit : Obligations.OnlyInitHaltAndResetMoveAUnit := by
  intro i s t he
  rcases exec_outcomes he with ⟨c, -, rfl⟩ | ⟨d, u, hc, rfl⟩
  · exact ⟨fun hne => absurd rfl hne, fun hne => absurd rfl hne⟩
  · have hok : d = 0#32 → (respond d u).response = okWith 0 := by rintro rfl; rfl
    obtain ⟨hdem, hmod⟩ := completes_readyMove hc
    refine ⟨fun hne => (hdem.resolve_left hne).imp_left ?_, fun hne => (hmod.resolve_left hne).imp_left ?_⟩ <;>
      exact fun ⟨hset, hinit, hd⟩ => ⟨hset, hinit, hok hd⟩

end Sys2Proof.Machine
end

section
/-! The registers as a host reads them with `CSRR` (spec/10_state.md R40 to R61), their values after a reset (R67),
and which words carry a command (spec/30_encoding.md R90, R91, R98). -/

namespace Sys2Proof.Machine

open Sys2Proof

/-- The registers in the order of their numbers (R40). -/
def registers : List Csr :=
  [.id, .param0, .param1, .hashseed, .status, .ctrl, .lasterr, .demWindow, .demPllInc, .demPllAdj, .demRunmax,
    .demPhase, .demRunlen, .demState, .modIncLo, .modIncHi, .modBaudInc, .modPhase, .modBaud, .modState, .frmPos]

theorem csrOfIndex_csrIndex (c : Csr) : csrOfIndex (csrIndex c) = some c := by cases c <;> rfl

theorem exec_csrr_csrIndex (c : Csr) (s : State) :
    exec (.csrr (csrIndex c)) s = .next { s with response := okWith (csrRead c s).toNat } := by
  rcases execCsrr_cases (csrIndex c) s with ⟨hnone, -⟩ | ⟨c', hc, e⟩
  · cases (csrOfIndex_csrIndex c).symm.trans hnone
  · cases (csrOfIndex_csrIndex c).symm.trans hc
    exact e.trans (congrArg _ (respond_eq _ _))

/-- The spec's table of the registers is what `csrRead` makes of each of them. -/
theorem csrView_eq_map {s : State} (hp : s.params.Legal) :
    csrView s = registers.map (fun c => (csrIndex c, (csrRead c s).toNat)) := by
  have hloss : (if s.regs.demRunmax.toNat < s.regs.demRunlen.toNat then 4 else 0) = 4 * (lockLoss s.regs).toNat := by
    simp only [← lockLoss_iff]
    cases lockLoss s.regs <;> rfl
  simp only [csrView, registers, List.map_cons, List.map_nil, csrRead, csrIndex, param0Word_toNat hp,
    param1Word_toNat hp, statusWord_toNat, ctrlWord_toNat, lastErrWord_toNat, demStateWord_toNat, modStateWord_toNat,
    frmPosWord_toNat, hloss]

/-- `CSRR` answers each register of the spec's table with the table's value (R122). -/
theorem exec_csrr_of_mem_csrView {s : State} (hp : s.params.Legal) {e : BitVec 16 × Nat} (he : e ∈ csrView s) :
    exec (.csrr e.1) s = .next { s with response := okWith e.2 } := by
  rw [csrView_eq_map hp, List.mem_map] at he
  obtain ⟨c, -, rfl⟩ := he
  exact exec_csrr_csrIndex c s

/-- At the reset values the table of the registers is the table of R67. -/
theorem csrView_of_regs_reset {s : State} (hr : s.regs = Regs.reset) : csrView s = csrViewAtReset s.params := by
  rw [csrView, hr]
  rfl

/-- A word whose `rsv` is not 0 is no command, whatever its opcode (R98). -/
theorem refusesReserved_of_any_opcode (op : Byte) (s : State) : refusesReserved op s := by
  rintro w rfl hrsv
  have herr : ∃ e, decode w = .error e := by
    unfold decode
    cases instrOfOpcode w with
    | none => exact ⟨_, rfl⟩
    | some i => exact ⟨_, if_neg hrsv⟩
  obtain ⟨e, he⟩ := herr
  exact runWord_of_illegal he s

/-- A word with `rsv` 0 runs as the command that its opcode and its fields make (R94 to R96). -/
theorem carriedBy_of_instrOfOpcode {op : Byte} {operands : CommandWord → Prop} {i : Instr} (s : State)
    (h : ∀ w, opField w = op → operands w → instrOfOpcode w = some i) : carriedBy op operands i s := by
  intro w hop hrsv hw
  refine runWord_of_decode ?_ s
  simp only [decode, h w hop hw]
  exact if_pos hrsv

/-- Settles O8: both resets leave the registers of `Regs.reset`, whose table is R67's; a power-on reset lists nothing
in the storages, and `SYS.RESET` writes the registers only. -/
theorem resetRegistersReadTheirResetValues : Obligations.ResetRegistersReadTheirResetValues := by
  have hread : ∀ t : State, t.params.Legal → t.regs = Regs.reset → ∀ e ∈ csrViewAtReset t.params,
      exec (.csrr e.1) t = .next { t with response := okWith e.2 } := fun t hp hr e he =>
    exec_csrr_of_mem_csrView hp ((csrView_of_regs_reset hr).symm ▸ he)
  refine ⟨fun p n hp => ⟨hread (State.resetWith p n) hp rfl, ?_, ?_, ?_, ?_⟩, fun s hp => ?_⟩
  · exact fun _ _ => rfl
  · exact fun _ => rfl
  · exact fun _ => rfl
  · exact fun _ => rfl
  · have hcarried : carriedBy 0x03#8 (fun _ => True) .sysReset s :=
      carriedBy_of_instrOfOpcode s (fun w hop _ => by simp only [instrOfOpcode, hop])
    exact ⟨respond 0#32 (s.setRegs Regs.reset), rfl, rfl, hread (respond 0#32 (s.setRegs Regs.reset)) hp rfl, rfl,
      hcarried, refusesReserved_of_any_opcode _ s⟩

end Sys2Proof.Machine
end

section
/-! The storages: every access is inside, each storage has its own writers, and a read writes nothing
(spec/20_memory.md R70, R71, R77). -/

namespace Sys2Proof.Machine

open Sys2Proof

/-- Settles O11: `step_answers` names the state that a step from the invariant answers. -/
theorem noStepFromTheInvariantStops : Obligations.NoStepFromTheInvariantStops := by
  intro s h
  obtain ⟨t, hstep, -, -⟩ := step_answers h
  exact ⟨t, hstep⟩

/-- Each storage is the same in `t` as in `s`, or command `i`, issued in `s`, is one that may write it (R70). -/
abbrev OnlyWritersWrote (i : Instr) (s t : State) : Prop :=
  (t.ft = s.ft ∨ opcode i = 0x10#8) ∧ (t.ct = s.ct ∨ opcode i = 0x12#8) ∧
    (t.win = s.win ∨ opcode i = 0x20#8 ∨ opcode i = 0x22#8) ∧
    (t.pbuf = s.pbuf ∨ opcode i = 0x41#8 ∨ (opcode i = 0x22#8 ∧ s.regs.chain = true))

/-- What a command that passes its checks writes: a push leaves FT, CT and WIN, and a sample pushes its bit only when
`CHAIN` = 1. -/
theorem completes_onlyWritersWrote {i : Instr} {s u : State} {d : Word} (h : completes s d u i) :
    OnlyWritersWrote i s u := by
  cases i with
  | ftWr => obtain ⟨-, -, -, rfl⟩ := h; exact ⟨.inr rfl, .inl rfl, .inl rfl, .inl rfl⟩
  | ctWr => obtain ⟨-, -, -, rfl⟩ := h; exact ⟨.inl rfl, .inr rfl, .inl rfl, .inl rfl⟩
  | demInit => obtain ⟨-, -, rfl⟩ := h; exact ⟨.inl rfl, .inl rfl, .inr (.inl rfl), .inl rfl⟩
  | demSample v =>
    obtain ⟨-, -, ⟨-, -, rfl⟩ | ⟨-, hchain, -, -, rfl⟩⟩ := h
    · exact ⟨.inl rfl, .inl rfl, .inr (.inr rfl), .inl rfl⟩
    · exact ⟨.inl (pushBit_ft _ _), .inl (pushBit_ct _ _), .inr (.inr rfl), .inr (.inr ⟨rfl, hchain⟩)⟩
  | frmBit b =>
    obtain ⟨-, -, rfl⟩ := h
    exact ⟨.inl (pushBit_ft b s), .inl (pushBit_ct b s), .inl (pushBit_win b s), .inr (.inl rfl)⟩
  | csrw => obtain ⟨-, -, -, -, -, rfl⟩ := h; exact ⟨.inl rfl, .inl rfl, .inl rfl, .inl rfl⟩
  | csrr => obtain ⟨-, -, -, rfl⟩ := h; exact ⟨.inl rfl, .inl rfl, .inl rfl, .inl rfl⟩
  | nop | sysReset | demHalt | modHalt | frmClear =>
    obtain ⟨-, rfl⟩ := h; exact ⟨.inl rfl, .inl rfl, .inl rfl, .inl rfl⟩
  | ftRd | ctRd | modInit | modSample | frmRd =>
    obtain ⟨-, -, rfl⟩ := h; exact ⟨.inl rfl, .inl rfl, .inl rfl, .inl rfl⟩

/-- A fault writes the error record only, so the writers are among the commands that pass their checks. -/
theorem exec_onlyWritersWrote {i : Instr} {s t : State} (he : exec i s = .next t) : OnlyWritersWrote i s t := by
  rcases exec_outcomes he with ⟨c, -, rfl⟩ | ⟨d, u, hc, rfl⟩
  · exact ⟨.inl rfl, .inl rfl, .inl rfl, .inl rfl⟩
  · simpa only [OnlyWritersWrote, respond_ft, respond_ct, respond_win, respond_pbuf] using
      completes_onlyWritersWrote hc

/-- Settles O51: a storage that is not the same was written by its writer. -/
theorem eachStorageHasItsOwnWriters : Obligations.EachStorageHasItsOwnWriters := by
  intro i s t he
  obtain ⟨hft, hct, hwin, hpbuf⟩ := exec_onlyWritersWrote he
  exact ⟨hft.resolve_left, hct.resolve_left, hwin.resolve_left, hpbuf.resolve_left⟩

/-- The code of a fault is never `OK`'s (R93, R271). -/
theorem faultNumber_ne_ok (c : FaultCode) : faultNumber c ≠ 0#8 := by cases c <;> decide

/-- No register shows the last response (log entry 3). -/
@[simp] theorem csrRead_respond (c : Csr) (d : Word) (s : State) : csrRead c (respond d s) = csrRead c s := by
  cases c <;> rfl

/-- The four reads by their opcodes (R96). -/
theorem read_of_opcode {i : Instr} (h : opcode i ∈ [0x01#8, 0x11#8, 0x13#8, 0x42#8]) :
    (∃ idx, i = .csrr idx) ∨ (∃ zero k e, i = .ftRd zero k e) ∨ (∃ k, i = .ctRd k) ∨ ∃ j, i = .frmRd j := by
  cases i with
  | csrr idx => exact .inl ⟨idx, rfl⟩
  | ftRd zero k e => exact .inr (.inl ⟨zero, k, e, rfl⟩)
  | ctRd k => exact .inr (.inr (.inl ⟨k, rfl⟩))
  | frmRd j => exact .inr (.inr (.inr ⟨j, rfl⟩))
  | _ => exact absurd h (by simp [opcode])

/-- A read that passes its check leaves the state, and issued again it passes the same check and reads the same. -/
theorem read_completes {i : Instr} {s u : State} {d : Word} (hi : opcode i ∈ [0x01#8, 0x11#8, 0x13#8, 0x42#8])
    (h : completes s d u i) : u = s ∧ exec i (respond d s) = .next (respond d s) := by
  rcases read_of_opcode hi with ⟨idx, rfl⟩ | ⟨zero, k, e, rfl⟩ | ⟨k, rfl⟩ | ⟨j, rfl⟩
  · obtain ⟨c, hc, rfl, rfl⟩ := h
    refine ⟨rfl, ?_⟩
    rcases execCsrr_cases idx (respond (csrRead c u) u) with ⟨hnone, -⟩ | ⟨c', hc', again⟩
    · cases hc.symm.trans hnone
    · cases hc.symm.trans hc'
      rw [csrRead_respond] at again
      exact again
  · obtain ⟨hlegal, rfl, rfl⟩ := h
    exact ⟨rfl, ((execFtRd_cases zero k e _).resolve_left fun hout => by cases hlegal.symm.trans hout.1).2⟩
  · obtain ⟨hlegal, rfl, rfl⟩ := h
    exact ⟨rfl, ((execCtRd_cases k _).resolve_left fun hout => by cases hlegal.symm.trans hout.1).2⟩
  · obtain ⟨hlegal, rfl, rfl⟩ := h
    exact ⟨rfl, ((execFrmRd_cases j _).resolve_left fun hout => by cases hlegal.symm.trans hout.1).2⟩

/-- Settles O52: an answer with code `OK` is no fault's, and a read that passes its check leaves all but the
response. -/
theorem readsHaveNoSideEffect : Obligations.ReadsHaveNoSideEffect := by
  intro i s t hi he r hr hok
  rcases exec_outcomes he with ⟨c, -, rfl⟩ | ⟨d, u, hc, rfl⟩
  · cases hr
    exact absurd hok (faultNumber_ne_ok c)
  · obtain ⟨rfl, hagain⟩ := read_completes hi hc
    cases hr
    exact ⟨rfl, hagain⟩

end Sys2Proof.Machine
end

section
/-! Which words are commands, and what the canonical word keeps of a word (spec/30_encoding.md R90, R91, R94 to R98). -/

namespace Sys2Proof

open Sys2Proof.Machine

/-- A word decodes to what its opcode and its fields make, provided `rsv` is 0 (R97, R98). -/
theorem decode_eq_ok_iff (w : CommandWord) (i : Instr) :
    decode w = .ok i ↔ instrOfOpcode w = some i ∧ rsvField w = 0#8 := by
  unfold decode
  cases instrOfOpcode w with
  | none => simp
  | some j =>
    by_cases hrsv : rsvField w = 0#8 <;> simp [hrsv]

/-- The opcode and the operand fields of a canonical word make the command again (R94 to R96). -/
theorem instrOfOpcode_encode (i : Instr) : instrOfOpcode (encode i) = some i := by
  cases i <;>
    simp only [instrOfOpcode, opField_encode, opcode, idxField_encode, dataField_encode, ftZeroField_eq,
      ftTableField_eq, ftEntryField_eq, valueField_eq, bitField_eq, encodeIdx, encodeData, ftIndex_zeroPart,
      ftIndex_tablePart, ftIndex_entryPart, lowHalf_append, lowBit_append]

/-- Settles O1: the fields of the canonical word are the command's, and its `rsv` is 0. -/
theorem decodeOfEncodeIsTheCommand : Obligations.DecodeOfEncodeIsTheCommand :=
  fun i => (decode_eq_ok_iff _ i).2 ⟨instrOfOpcode_encode i, rsvField_encode i⟩

/-- Different commands have different canonical words. -/
theorem encode_injective : Function.Injective encode := fun i j h => by
  have e := decodeOfEncodeIsTheCommand i
  rw [h, decodeOfEncodeIsTheCommand j] at e
  cases e
  rfl

/-- The four fields of R90 make up the word. -/
theorem word_eq_of_fields {w w' : CommandWord} (hop : opField w = opField w') (hrsv : rsvField w = rsvField w')
    (hidx : idxField w = idxField w') (hdata : dataField w = dataField w') : w = w' := by
  have hsplit : ∀ v : CommandWord, v = opField v ++ rsvField v ++ idxField v ++ dataField v := by
    intro v
    unfold opField rsvField idxField dataField
    apply BitVec.eq_of_toNat_eq
    simp only [append_toNat, BitVec.extractLsb'_toNat, Nat.shiftRight_eq_div_pow]
    have := v.isLt
    omega
  rw [hsplit w, hop, hrsv, hidx, hdata, ← hsplit]

/-- Masking a word masks each of its fields. -/
theorem fields_and (w m : CommandWord) :
    opField (w &&& m) = opField w &&& opField m ∧ rsvField (w &&& m) = rsvField w &&& rsvField m ∧
      idxField (w &&& m) = idxField w &&& idxField m ∧ dataField (w &&& m) = dataField w &&& dataField m :=
  ⟨BitVec.extractLsb'_and, BitVec.extractLsb'_and, BitVec.extractLsb'_and, BitVec.extractLsb'_and⟩

/-- `idx` is the FT index of its three parts (R95). -/
theorem ftIndex_of_fields (w : CommandWord) :
    ftIndex (ftZeroField w) (ftTableField w) (ftEntryField w) = idxField w := by
  rw [ftZeroField_eq, ftTableField_eq, ftEntryField_eq]
  generalize idxField w = idx
  apply BitVec.eq_of_toNat_eq
  simp only [ftIndex, append_toNat, BitVec.extractLsb'_toNat, Nat.shiftRight_eq_div_pow]
  have := idx.isLt
  omega

/-- A 16-bit operand alone in `data` is `data` with its upper half 0 (R94, R105). -/
theorem zext_valueField (w : CommandWord) : 0#16 ++ valueField w = dataField w &&& 0xFFFF#32 := by
  rw [valueField_eq]
  generalize dataField w = d
  apply BitVec.eq_of_toNat_eq
  refine (append_toNat _ _).trans ?_
  rw [BitVec.toNat_and]
  simp [Nat.and_two_pow_sub_one_eq_mod d.toNat 16]

/-- A bit operand alone in `data` is `data` with every other bit 0 (R94, R105). -/
theorem zext_bitField (w : CommandWord) : 0#31 ++ BitVec.ofBool (bitField w) = dataField w &&& 1#32 := by
  rw [bitField_eq]
  generalize dataField w = d
  apply BitVec.eq_of_toNat_eq
  refine (append_toNat _ _).trans ?_
  rw [BitVec.toNat_and, ofBool_toNat]
  simp only [BitVec.toNat_ofNat, BitVec.getLsbD, Nat.testBit_zero]
  rcases Nat.mod_two_eq_zero_or_one d.toNat with h | h <;> simp [h]

/-- Every command uses `op` and `rsv` (R90, R98). -/
theorem header_usedBits (op : Byte) : opField (usedBits op) = 0xFF#8 ∧ rsvField (usedBits op) = 0xFF#8 := by
  unfold usedBits
  split_ifs <;> exact ⟨rfl, rfl⟩

/-- What the canonical word takes from a word: the opcode, and of `idx` and `data` the bits that the opcode uses, with 0
in the others (R91, R96). -/
theorem encode_fields_of_instrOfOpcode {w : CommandWord} {i : Instr} (h : instrOfOpcode w = some i) :
    opcode i = opField w ∧ encodeIdx i = idxField w &&& idxField (usedBits (opField w)) ∧
      encodeData i = dataField w &&& dataField (usedBits (opField w)) := by
  have hnone : ∀ {n : Nat} (x : BitVec n), 0#n = x &&& 0#n := fun x => BitVec.and_zero.symm
  have hall : ∀ {n : Nat} (x : BitVec n), x = x &&& BitVec.allOnes n := fun x => BitVec.and_allOnes.symm
  unfold instrOfOpcode at h
  split at h <;> rename_i hop
  case h_18 => cases h
  all_goals
    cases h
    rw [hop]
  -- no operand
  case h_1 | h_4 | h_9 | h_10 | h_12 | h_13 | h_15 => exact ⟨rfl, hnone _, hnone _⟩
  -- an index only: CSRR, CT.RD, FRM.RD
  case h_2 | h_8 | h_17 => exact ⟨rfl, hall _, hnone _⟩
  -- CSRW uses every bit
  case h_3 => exact ⟨rfl, hall _, hall _⟩
  -- FT.WR, FT.RD: the index in its three parts
  case h_5 => exact ⟨rfl, (ftIndex_of_fields w).trans (hall _), zext_valueField w⟩
  case h_6 => exact ⟨rfl, (ftIndex_of_fields w).trans (hall _), hnone _⟩
  -- CT.WR
  case h_7 => exact ⟨rfl, hall _, zext_valueField w⟩
  -- DEM.SAMPLE
  case h_11 => exact ⟨rfl, hnone _, zext_valueField w⟩
  -- a bit only: MOD.SAMPLE, FRM.BIT
  case h_14 | h_16 => exact ⟨rfl, hnone _, zext_bitField w⟩

theorem opcode_mem_legalOpcodes (i : Instr) : opcode i ∈ legalOpcodes := by
  cases i <;> simp only [opcode] <;> decide

/-- The decoder's table and R96's list of opcodes agree (R97). -/
theorem instrOfOpcode_eq_none_iff (w : CommandWord) : instrOfOpcode w = none ↔ opField w ∉ legalOpcodes := by
  constructor
  · intro h
    unfold instrOfOpcode at h
    split at h
    case h_18 => simp_all [legalOpcodes]
    all_goals cases h
  · intro hop
    by_contra h
    obtain ⟨i, hi⟩ := Option.ne_none_iff_exists'.1 h
    exact hop ((encode_fields_of_instrOfOpcode hi).1 ▸ opcode_mem_legalOpcodes i)

/-- The words that are commands (R97, R98). -/
theorem decode_isOk_iff (w : CommandWord) :
    (∃ i, decode w = .ok i) ↔ opField w ∈ legalOpcodes ∧ rsvField w = 0#8 := by
  simp only [decode_eq_ok_iff, exists_and_right, ← Option.ne_none_iff_exists', ne_eq, instrOfOpcode_eq_none_iff,
    not_not]

/-- The canonical word of a decoded word is that word with every ignored bit 0 (R91, R105). -/
theorem encode_of_decode {w : CommandWord} {i : Instr} (h : decode w = .ok i) :
    encode i = w &&& usedBits (opField w) := by
  obtain ⟨hi, hrsv⟩ := (decode_eq_ok_iff w i).1 h
  obtain ⟨hop, hidx, hdata⟩ := encode_fields_of_instrOfOpcode hi
  obtain ⟨hopUsed, hrsvUsed⟩ := header_usedBits (opField w)
  obtain ⟨hopAnd, hrsvAnd, hidxAnd, hdataAnd⟩ := fields_and w (usedBits (opField w))
  refine word_eq_of_fields ?_ ?_ ?_ ?_
  · rw [opField_encode, hop, hopAnd, hopUsed]
    exact BitVec.and_allOnes.symm
  · rw [rsvField_encode, hrsvAnd, hrsv, BitVec.zero_and]
  · rw [idxField_encode, hidx, hidxAnd]
  · rw [dataField_encode, hdata, hdataAnd]

/-- Words that agree in the bits some opcode uses have the same `op` and `rsv`. -/
theorem header_of_agreement {w w' : CommandWord} (op : Byte) (h : w' &&& usedBits op = w &&& usedBits op) :
    opField w' = opField w ∧ rsvField w' = rsvField w := by
  obtain ⟨hop, hrsv⟩ := header_usedBits op
  obtain ⟨hopAnd, hrsvAnd, -⟩ := fields_and w (usedBits op)
  obtain ⟨hopAnd', hrsvAnd', -⟩ := fields_and w' (usedBits op)
  have hall : ∀ x : Byte, x &&& 0xFF#8 = x := fun _ => BitVec.and_allOnes
  rw [h, hopAnd, hop, hall, hall] at hopAnd'
  rw [h, hrsvAnd, hrsv, hall, hall] at hrsvAnd'
  exact ⟨hopAnd'.symm, hrsvAnd'.symm⟩

/-- Settles O2: a word that agrees in the used bits is a command as well, and has the same canonical word. -/
theorem ignoredBitsHaveNoEffect : Obligations.IgnoredBitsHaveNoEffect := by
  intro w i h
  refine ⟨encode_of_decode h, fun w' hagree => ?_⟩
  obtain ⟨hop, hrsv⟩ := header_of_agreement (opField w) hagree
  obtain ⟨j, hj⟩ : ∃ j, decode w' = .ok j := by
    rw [decode_isOk_iff, hop, hrsv, ← decode_isOk_iff]
    exact ⟨i, h⟩
  have hij : encode j = encode i := by
    rw [encode_of_decode h, encode_of_decode hj, hop]
    exact hagree
  rw [hj, encode_injective hij]

/-- Settles O3: the words that decode are those with an opcode of the table and `rsv` 0. -/
theorem illegalWordFaultsWithErrOp : Obligations.IllegalWordFaultsWithErrOp := by
  intro w s rest hinbox
  rw [step_of_command hinbox]
  refine ⟨fun hillegal => ?_, fun hop hrsv => ?_⟩
  · cases hd : decode w with
    | error e => exact runWord_of_illegal hd _
    | ok i =>
      obtain ⟨hop, hrsv⟩ := (decode_isOk_iff w).1 ⟨i, hd⟩
      exact absurd hillegal (not_or.2 ⟨not_not.2 hop, not_not.2 hrsv⟩)
  · obtain ⟨i, hd⟩ := (decode_isOk_iff w).2 ⟨hop, hrsv⟩
    exact ⟨i, hd, runWord_of_decode hd _⟩

/-- Settles O4: the decoder run on the ten words. -/
theorem writtenOutWordsDecode : Obligations.WrittenOutWordsDecode := by
  unfold Obligations.WrittenOutWordsDecode
  decide

end Sys2Proof
end

section
/-! The pseudo-operations that issue one command per number below a bound: `FT.LOAD`, `CT.LOAD`, `FRM.BYTE`
(spec/30_encoding.md R111 to R113). -/

namespace Sys2Proof.Machine

open Sys2Proof

/-- One command per number below `n`, in order: when `P 0` holds at the start and command `k` leads from `P k` to
`P (k + 1)`, all of them run and `P n` holds at the end. -/
theorem runCommands_range {f : Nat → Instr} {P : Nat → State → Prop} {s : State} {n : Nat} (h0 : P 0 s)
    (hstep : ∀ k t, k < n → P k t → ∃ u, exec (f k) t = .next u ∧ P (k + 1) u) :
    ∃ t, runCommands ((List.range n).map f) s = .next t ∧ P n t := by
  induction n with
  | zero => exact ⟨s, rfl, h0⟩
  | succ n ih =>
    obtain ⟨t, hrun, ht⟩ := ih (fun k t hk => hstep k t (by omega))
    obtain ⟨u, hexec, hu⟩ := hstep n t (by omega) ht
    refine ⟨u, ?_, hu⟩
    rw [List.range_succ, List.map_append]
    exact runCommands_concat hrun hexec

/-- Two sequences of commands, one after the other. -/
theorem runCommands_trans {a b : List Instr} {s t u : State} (ha : runCommands a s = .next t)
    (hb : runCommands b t = .next u) : runCommands (a ++ b) s = .next u :=
  (runCommands_append b ha).trans hb

/-- A list of commands made from a list of entries and their numbers, by number. -/
theorem mapIdx_eq_map_range {α β : Type} (f : Nat → α → β) (l : List α) (d : α) :
    l.mapIdx f = (List.range l.length).map (fun i => f i (l.getD i d)) := by
  apply List.ext_getElem
  · simp
  · intro i h1 h2
    have hi : i < l.length := by simpa using h1
    simp [hi]

/-- Writing entry `n` after the entries below `n` leaves the entries below `n + 1` written. -/
theorem written_succ {α : Type} (f : Nat → α) (old : α) (n i : Nat) :
    (if i = n then f n else if i < n then f i else old) = if i < n + 1 then f i else old := by
  rcases Nat.lt_trichotomy i n with h | rfl | h
  · rw [if_neg h.ne, if_pos h, if_pos (by omega)]
  · rw [if_pos rfl, if_pos (by omega)]
  · rw [if_neg h.ne', if_neg (by omega), if_neg (by omega)]

/-! ### `FT.LOAD` -/

/-- An IDLE demodulator's window length can be written (R69, R123). -/
theorem exec_csrw_demWindow {s : State} (v : Word) (hidle : s.regs.demReady = false) :
    exec (.csrw (csrIndex .demWindow) v) s = .next (respond 0#32 (s.setRegs { s.regs with demWindow := v })) := by
  rcases execCsrw_cases (csrIndex .demWindow) v s with ⟨hnone, -⟩ | ⟨c, hc, h⟩
  · cases hnone
  · cases hc
    rcases h with ⟨hro, -⟩ | ⟨-, hlocked, -⟩ | ⟨-, -, e⟩
    · cases hro
    · cases hidle.symm.trans hlocked
    · exact e

/-- `FT.WR` of an entry by its number, which fits the eight bits of the index (R95, R140). -/
theorem exec_ftWr_entry {s : State} {n : Nat} (k : BitVec 2) (v : Half) (hp : s.params.Legal)
    (hidle : s.regs.demReady = false) (hn : n < s.params.wmax) :
    exec (.ftWr 0#6 k (BitVec.ofNat 8 n) v) s = .next (respond 0#32 (ftWrite k.toNat n v s)) := by
  obtain ⟨-, hmax, -⟩ := hp
  have hn8 : (BitVec.ofNat 8 n).toNat = n := by
    rw [BitVec.toNat_ofNat]
    omega
  have hin : ftIndexLegal s.params 0#6 (BitVec.ofNat 8 n) = true := (ftIndexLegal_iff _ _ _).2 ⟨rfl, hn8.symm ▸ hn⟩
  rcases execFtWr_cases 0#6 k (BitVec.ofNat 8 n) v s with ⟨hout, -⟩ | ⟨-, hready, -⟩ | ⟨-, -, e⟩
  · cases hin.symm.trans hout
  · cases hidle.symm.trans hready
  · rw [hn8] at e
    exact e

/-- What `FT.LOAD` needs of the block to write `w` entries of a table, all of it kept by writing them. -/
structure FtLoading (w : Nat) (s : State) : Prop where
  paramsLegal : s.params.Legal
  idle : s.regs.demReady = false
  answered : s.response = okWith 0
  fits : w ≤ s.params.wmax

/-- `t` is `s` after commands that wrote FT only and were answered `OK`. -/
abbrev OnlyFtWritten (s t : State) : Prop := t = { s with ft := t.ft, response := okWith 0 }

theorem OnlyFtWritten.trans {s t u : State} (hst : OnlyFtWritten s t) (htu : OnlyFtWritten t u) :
    OnlyFtWritten s u := by
  rw [OnlyFtWritten, hst] at htu
  exact htu

theorem OnlyFtWritten.loading {w : Nat} {s t : State} (h : OnlyFtWritten s t) (hs : FtLoading w s) :
    FtLoading w t := by
  rw [h]
  exact { hs with answered := rfl }

/-- What FT reads in `t` once entries `[0, n)` of table `k` have been written in `s`. -/
abbrev FtRowReads (k : Nat) (entries : List Half) (s : State) (n : Nat) (t : State) : Prop :=
  ∀ k' i, i < 256 → ftRead t k' i = if k' = k ∧ i < n then entries.getD i 0#16 else ftRead s k' i

theorem runCommands_ftRow {s : State} {entries : List Half} (k : BitVec 2) (hs : FtLoading entries.length s) :
    ∃ t, runCommands (ftRow k entries) s = .next t ∧ OnlyFtWritten s t ∧
      FtRowReads k.toNat entries s entries.length t := by
  rw [ftRow, mapIdx_eq_map_range _ _ 0#16]
  refine runCommands_range (P := fun n t => OnlyFtWritten s t ∧ FtRowReads k.toNat entries s n t)
    ⟨by rw [OnlyFtWritten, ← hs.answered], fun k' i _ => by simp⟩ ?_
  rintro n t hn ⟨honly, hreads⟩
  have ht : FtLoading entries.length t := honly.loading hs
  have hnmax : n < t.params.wmax := lt_of_lt_of_le hn ht.fits
  have hmax : t.params.wmax ≤ 255 := ht.paramsLegal.2.1
  refine ⟨_, exec_ftWr_entry k _ ht.paramsLegal ht.idle hnmax, honly.trans rfl, fun k' i hi => ?_⟩
  refine (ftRead_ftWrite t _ (by omega) hi).trans ?_
  rw [hreads k' i hi]
  by_cases hk : k' = k.toNat
  · simpa only [hk, true_and] using written_succ (fun j => entries.getD j 0#16) _ n i
  · simp only [hk, false_and, if_false]

/-- The first `w` entries of a table make a row whose entries are the table's. -/
theorem runCommands_ftRow_take {s : State} {entries : List Half} {w : Nat} (k : BitVec 2) (hs : FtLoading w s)
    (hlen : w ≤ entries.length) :
    ∃ t, runCommands (ftRow k (entries.take w)) s = .next t ∧ OnlyFtWritten s t ∧
      FtRowReads k.toNat entries s w t := by
  have htake : (entries.take w).length = w := List.length_take_of_le hlen
  obtain ⟨t, hrun, honly, hreads⟩ := runCommands_ftRow (entries := entries.take w) k (htake.symm ▸ hs)
  refine ⟨t, hrun, honly, fun k' i hi => (hreads k' i hi).trans ?_⟩
  rw [htake]
  by_cases h : i < w <;> simp [h]

theorem ftRow_length (k : BitVec 2) (entries : List Half) : (ftRow k entries).length = entries.length := by
  rw [ftRow, List.length_mapIdx]

/-- Settles O55: one `CSRW` and then four rows, each of which leaves the other tables' entries. -/
theorem ftLoadWritesWindowAndTables : Obligations.FtLoadWritesWindowAndTables := by
  intro s e0 e1 e2 e3 w hp hidle hw h0 h1 h2 h3
  refine ⟨?_, ?_⟩
  · simp only [ftLoad, List.length_cons, List.length_append, ftRow_length, List.length_take_of_le, h0, h1, h2, h3]
    omega
  · have hwin := exec_csrw_demWindow (BitVec.ofNat 32 w) hidle
    have l : FtLoading w (respond 0#32 (s.setRegs { s.regs with demWindow := BitVec.ofNat 32 w })) :=
      ⟨hp, hidle, rfl, hw⟩
    obtain ⟨t0, run0, only0, reads0⟩ := runCommands_ftRow_take 0#2 l h0
    obtain ⟨t1, run1, only1, reads1⟩ := runCommands_ftRow_take 1#2 (only0.loading l) h1
    have only01 := only0.trans only1
    obtain ⟨t2, run2, only2, reads2⟩ := runCommands_ftRow_take 2#2 (only01.loading l) h2
    have only012 := only01.trans only2
    obtain ⟨t3, run3, only3, reads3⟩ := runCommands_ftRow_take 3#2 (only012.loading l) h3
    refine ⟨t3, ?_, only012.trans only3, fun k i hk hi => ?_⟩
    · exact (runCommands_cons _ hwin).trans
        (runCommands_trans (runCommands_trans (runCommands_trans run0 run1) run2) run3)
    · rw [reads3 k i hi, reads2 k i hi, reads1 k i hi, reads0 k i hi]
      by_cases h : i < w
      · interval_cases k <;> simp [h]
      · simp only [h, and_false, if_false]
        rfl

/-! ### `CT.LOAD` -/

/-- `CT.WR` of an entry by its number, which fits the sixteen bits of the index (R94, R142). -/
theorem exec_ctWr_entry {s : State} {n : Nat} (v : Half) (hp : s.params.Legal) (hidle : s.regs.modReady = false)
    (hn : n < s.params.coslen) :
    exec (.ctWr (BitVec.ofNat 16 n) v) s = .next (respond 0#32 (ctWrite n v s)) := by
  obtain ⟨-, -, -, hbits, -⟩ := hp
  have hmax : s.params.coslen ≤ 2 ^ 15 := Nat.pow_le_pow_right (by decide) hbits
  have hn16 : (BitVec.ofNat 16 n).toNat = n := by
    rw [BitVec.toNat_ofNat]
    omega
  have hin : ctIndexLegal s.params (BitVec.ofNat 16 n) = true := (ctIndexLegal_iff _ _).2 (hn16.symm ▸ hn)
  rcases execCtWr_cases (BitVec.ofNat 16 n) v s with ⟨hout, -⟩ | ⟨-, hready, -⟩ | ⟨-, -, e⟩
  · cases hin.symm.trans hout
  · cases hidle.symm.trans hready
  · rw [hn16] at e
    exact e

/-- The first `n` entries of CT have been written from `s` to `t`. -/
structure CtWritten (entries : List Half) (s : State) (n : Nat) (t : State) : Prop where
  frame : t = { s with ct := t.ct, response := if n = 0 then s.response else okWith 0 }
  reads : ∀ k, ctRead t k = if k < n then entries.getD k 0#16 else ctRead s k

theorem CtWritten.succ {entries : List Half} {s t : State} {n : Nat} (h : CtWritten entries s n t) :
    CtWritten entries s (n + 1) (respond 0#32 (ctWrite n (entries.getD n 0#16) t)) where
  frame := by
    rw [h.frame]
    rfl
  reads k := by
    refine (ctRead_ctWrite t n k _).trans ?_
    rw [h.reads]
    exact written_succ (fun j => entries.getD j 0#16) _ n k

theorem runCommands_ctLoad {s : State} {entries : List Half} (hp : s.params.Legal) (hidle : s.regs.modReady = false)
    (hlen : entries.length ≤ s.params.coslen) :
    ∃ t, runCommands (ctLoad entries) s = .next t ∧ CtWritten entries s entries.length t := by
  rw [ctLoad, mapIdx_eq_map_range _ _ 0#16]
  refine runCommands_range (P := CtWritten entries s) ⟨rfl, fun k => by simp⟩ fun n t hn ht => ?_
  have hexec : exec (.ctWr (BitVec.ofNat 16 n) (entries.getD n 0#16)) t =
      .next (respond 0#32 (ctWrite n (entries.getD n 0#16) t)) := by
    apply exec_ctWr_entry <;> rw [ht.frame]
    · exact hp
    · exact hidle
    · exact lt_of_lt_of_le hn hlen
  exact ⟨_, hexec, ht.succ⟩

/-- Settles O56: CT is never empty, so the last response is that of a write. -/
theorem ctLoadWritesTheTable : Obligations.CtLoadWritesTheTable := by
  intro s entries hp hidle hlen
  have hpos : s.params.coslen ≠ 0 := (Nat.two_pow_pos s.params.cosBits).ne'
  obtain ⟨t, hrun, hframe, hreads⟩ := runCommands_ctLoad hp hidle hlen.le
  rw [hlen] at hframe hreads
  rw [if_neg hpos] at hframe
  exact ⟨by rw [ctLoad, List.length_mapIdx, hlen], t, hrun, hframe, hreads⟩

end Sys2Proof.Machine
end

section
/-! `FRM.BYTE` (spec/30_encoding.md R113, spec/44_framer.md R221). -/

namespace Sys2Proof.Machine

open Sys2Proof

/-- At a position inside PBUF, `FRM.BIT` pushes its bit (R226). -/
theorem exec_frmBit {s : State} (b : Bool) (hpos : s.regs.byteOff.toNat < s.params.pktMax) :
    exec (.frmBit b) s = .next (respond (pushBit b s).result (pushBit b s).state) :=
  ((execFrmBit_cases b s).resolve_left fun hout => by
    cases ((positionInside_iff s).2 hpos).symm.trans hout.1).2

/-- The state in which the first `n` bits of `v` have been pushed from the byte boundary of `s`. -/
structure BitsPushed (v : Byte) (s : State) (n : Nat) (t : State) : Prop where
  frame : t = { s with
    pbuf := t.pbuf
    regs := { s.regs with bitOff := BitVec.ofNat 3 n }
    response := if n = 0 then s.response else okWith 0 }
  memoryWf : Memory.wf t
  bits : ∀ i k, k < 8 → (pbufRead t i).getLsbD k =
    if i = s.regs.byteOff.toNat ∧ k < n then v.getLsbD k else (pbufRead s i).getLsbD k

/-- The next bit joins those pushed, and every other bit of PBUF is as it was (R76). -/
theorem BitsPushed.bits_stored {v : Byte} {s t : State} {n : Nat} (h : BitsPushed v s n t) (hn : n < 8) (i k : Nat)
    (hk : k < 8) : (pbufRead (bitStored (v.getLsbD n) t) i).getLsbD k =
      if i = s.regs.byteOff.toNat ∧ k < n + 1 then v.getLsbD k else (pbufRead s i).getLsbD k := by
  have hbyte : t.regs.byteOff = s.regs.byteOff := by rw [h.frame]
  have hbit : t.regs.bitOff.toNat = n := by
    rw [h.frame]
    simp only [BitVec.toNat_ofNat]
    omega
  rw [pbufRead_bitStored _ h.memoryWf hk, h.bits i k hk, hbyte, hbit]
  by_cases hi : i = s.regs.byteOff.toNat
  · simpa only [hi, true_and] using written_succ v.getLsbD _ n k
  · simp only [hi, false_and, if_false]

/-- A bit that does not fill the byte moves the position by one bit (R221). -/
theorem BitsPushed.succ {v : Byte} {s t : State} {n : Nat} (h : BitsPushed v s n t) (hn : n < 7)
    (hpos : s.regs.byteOff.toNat < s.params.pktMax) :
    ∃ u, exec (.frmBit (v.getLsbD n)) t = .next u ∧ BitsPushed v s (n + 1) u := by
  have hpos' : t.regs.byteOff.toNat < t.params.pktMax := by rwa [h.frame]
  have hbit : t.regs.bitOff = BitVec.ofNat 3 n := by rw [h.frame]
  have hlt : t.regs.bitOff.toNat < 7 := by
    rw [hbit, BitVec.toNat_ofNat]
    omega
  rcases pushBit_cases (v.getLsbD n) t with ⟨-, e⟩ | ⟨h7, -⟩ | ⟨h7, -⟩
  · refine ⟨_, exec_frmBit _ hpos', ?_, ?_, ?_⟩ <;> rw [e]
    · have hnext : t.regs.bitOff + 1#3 = BitVec.ofNat 3 (n + 1) := by rw [hbit, BitVec.ofNat_add]
      simp only [hnext]
      rw [h.frame]
      rfl
    · exact pbufWriteBit_wf h.memoryWf _ t.regs.bitOff.isLt hpos'
    · exact h.bits_stored (by omega)
  · omega
  · omega

/-- With its eighth bit stored, the byte at the position is `v` and every other byte is as it was. -/
theorem BitsPushed.byte_stored {v : Byte} {s t : State} (h : BitsPushed v s 7 t) (i : Nat) :
    pbufRead (bitStored (v.getLsbD 7) t) i = if i = s.regs.byteOff.toNat then v else pbufRead s i := by
  apply byte_ext
  intro k hk
  rw [h.bits_stored (by decide) i k hk]
  by_cases hi : i = s.regs.byteOff.toNat
  · rw [if_pos ⟨hi, hk⟩, if_pos hi]
  · rw [if_neg fun hh => hi hh.1, if_neg hi]

/-- Both kinds of packet are longer than their header (R222, R231, R232). -/
theorem two_lt_target_of_packetType {p : Params} {ty : Byte} (h : ty = 1#8 ∨ ty = 2#8) : 2 < target p ty := by
  have hdata : 2 < p.dataLen := by
    unfold Params.dataLen
    omega
  rcases h with rfl | rfl
  · exact (by decide : 2 < Config.ctrlLen)
  · exact hdata

/-- A byte pushed at `byte_off` does not complete a candidate: it is the version byte, or a packet's type byte, or the
one that follows is still below the candidate's length (R221). -/
abbrev ByteLeavesOpen (v : Byte) (s : State) : Prop :=
  s.regs.byteOff.toNat = 0 ∨ (s.regs.byteOff.toNat = 1 ∧ (v = 1#8 ∨ v = 2#8)) ∨
    (2 ≤ s.regs.byteOff.toNat ∧ s.regs.byteOff.toNat + 1 < target s.params (pbufRead s 1))

/-- The last bit of such a byte completes no candidate, whose length its type byte gives once `v` is stored. -/
theorem ByteLeavesOpen.below_target {v : Byte} {s u : State} (h : ByteLeavesOpen v s)
    (hread : ∀ i, pbufRead u i = if i = s.regs.byteOff.toNat then v else pbufRead s i) :
    s.regs.byteOff.toNat + 1 < 2 ∨ s.regs.byteOff.toNat + 1 < target s.params (pbufRead u 1) := by
  rcases h with h0 | ⟨h1, hty⟩ | ⟨h2, hlt⟩
  · left
    omega
  · right
    rw [hread 1, if_pos h1.symm, h1]
    exact two_lt_target_of_packetType hty
  · right
    rwa [hread 1, if_neg (by omega)]

/-- Settles O44: seven bits go into the byte, and the eighth fills it without completing a candidate. -/
theorem frmByteStoresTheByte : Obligations.FrmByteStoresTheByte := by
  intro s v hw hp hpos hbit hopen
  obtain ⟨t, hrun, ht⟩ := runCommands_range (f := fun k => .frmBit (v.getLsbD k)) (P := BitsPushed v s) (n := 7)
    ⟨by rw [← hbit]; rfl, hw, fun i k _ => by simp⟩ fun n t hn ht => ht.succ hn hpos
  have hread := ht.byte_stored
  have hbelow := ByteLeavesOpen.below_target hopen hread
  have hbyte : t.regs.byteOff = s.regs.byteOff := by rw [ht.frame]
  have hparams : t.params = s.params := by rw [ht.frame]
  have hbit7 : t.regs.bitOff.toNat = 7 := by rw [ht.frame]; rfl
  have hexec := exec_frmBit (s := t) (v.getLsbD 7) (by rwa [hbyte, hparams])
  have hrun8 : runCommands (frmByte v) s = _ := runCommands_concat hrun hexec
  rcases pushBit_cases (v.getLsbD 7) t with ⟨hlt, -⟩ | ⟨-, -, e⟩ | ⟨-, htwo, htarget, -⟩
  · omega
  · rw [e] at hrun8
    refine ⟨_, hrun8, ?_, hread⟩
    rw [ht.frame]
    rfl
  · rw [hbyte, byteOff_succ hp hpos] at htwo htarget
    rw [hparams] at htarget
    omega

end Sys2Proof.Machine
end

section
/-! `DEM.BATCH` into a READY demodulator (spec/30_encoding.md R110, spec/42_demodulator.md R190). -/

namespace Sys2Proof.Machine

open Sys2Proof

/-- The sample `v`, given in `s`, was answered `OK` with the data `d` and left `t`. -/
abbrev SampleAnswered (v : Half) (s : State) (d : Word) (t : State) : Prop :=
  exec (.demSample v) s = .next t ∧ t.response = some { code := 0#8, data := d }

/-- A READY demodulator answers every sample, and is READY again (R35, R170). -/
theorem demSample_answered {s : State} (h : Invariant s) (hr : s.regs.demReady = true) (v : Half) :
    ∃ d t, SampleAnswered v s d t ∧ Invariant t ∧ t.regs.demReady = true := by
  obtain ⟨t, he⟩ := exec_answers h (.demSample v)
  have hinv : Invariant t := exec_keeps_invariant h he
  rcases exec_outcomes he with ⟨c, ⟨-, hidle⟩, -⟩ | ⟨d, u, hc, rfl⟩
  · cases hr.symm.trans hidle
  · refine ⟨d, respond d u, ⟨he, rfl⟩, hinv, ?_⟩
    rcases (completes_readyMove hc).1 with hsame | ⟨-, hinit, -⟩ | ⟨-, hhalt | hreset⟩
    · exact hsame.trans hr
    · cases hinit
    · cases hhalt
    · cases hreset

/-- A batch that nothing refused: it ends with the samples, or after the first one whose answer has the emit bit. -/
inductive BatchRun : List Half → State → State → BatchResult → Prop
  | done (s : State) : BatchRun [] s s (.noBitYet 0)
  | bit {v : Half} {s t : State} {d : Word} (rest : List Half) (hv : SampleAnswered v s d t)
      (hbit : d.getLsbD 1 = true) : BatchRun (v :: rest) s t (.bit (d.getLsbD 0) rest.length)
  | more {v : Half} {s t u : State} {d : Word} {rest : List Half} {res : BatchResult} (hv : SampleAnswered v s d t)
      (hbit : d.getLsbD 1 = false) (hrest : BatchRun rest t u res) : BatchRun (v :: rest) s u res

/-- An answer `OK` ends the loop exactly when it has the emit bit (R110). -/
theorem batchVerdict_of_ok (d : Word) (left : Nat) : batchVerdict { code := 0#8, data := d } left =
    if d.getLsbD 1 then some (.bit (d.getLsbD 0) left) else none := by
  simp only [batchVerdict, ne_eq, not_true, if_false]

theorem demBatch_cons_of_bit {v : Half} {s t : State} {d : Word} (rest : List Half) (hv : SampleAnswered v s d t)
    (hbit : d.getLsbD 1 = true) : demBatch (v :: rest) s = .next (t, .bit (d.getLsbD 0) rest.length) := by
  obtain ⟨he, hresp⟩ := hv
  simp only [demBatch, he, hresp, Option.bind_some, batchVerdict_of_ok, hbit, if_true]

theorem demBatch_cons_of_noBit {v : Half} {s t : State} {d : Word} (rest : List Half) (hv : SampleAnswered v s d t)
    (hbit : d.getLsbD 1 = false) : demBatch (v :: rest) s = demBatch rest t := by
  obtain ⟨he, hresp⟩ := hv
  simp only [demBatch, he, hresp, Option.bind_some, batchVerdict_of_ok, hbit, Bool.false_eq_true, if_false]

/-- Into a READY demodulator every batch is such a run. -/
theorem demBatch_of_ready (samples : List Half) {s : State} (h : Invariant s) (hr : s.regs.demReady = true) :
    ∃ t res, demBatch samples s = .next (t, res) ∧ BatchRun samples s t res := by
  induction samples generalizing s with
  | nil => exact ⟨s, _, rfl, .done s⟩
  | cons v rest ih =>
    obtain ⟨d, t, hv, hinv, hready⟩ := demSample_answered h hr v
    cases hbit : d.getLsbD 1 with
    | true => exact ⟨t, _, demBatch_cons_of_bit rest hv hbit, .bit rest hv hbit⟩
    | false =>
      obtain ⟨u, res, hrun, hrest⟩ := ih hinv hready
      exact ⟨u, res, (demBatch_cons_of_noBit rest hv hbit).trans hrun, .more hv hbit hrest⟩

section
variable {samples : List Half} {s t : State} {res : BatchResult}

/-- What a batch reports: a bit, with samples left at most after the one that emitted it, or none and no sample left. -/
theorem BatchRun.result (h : BatchRun samples s t res) :
    (∃ b m, res = .bit b m ∧ m < samples.length) ∨ res = .noBitYet 0 := by
  induction h with
  | done => exact .inr rfl
  | bit rest => exact .inl ⟨_, _, rfl, Nat.lt_succ_self _⟩
  | more _ _ _ ih => exact ih.imp_left fun ⟨b, m, hres, hm⟩ => ⟨b, m, hres, Nat.lt_succ_of_lt hm⟩

theorem BatchRun.unconsumed_le (h : BatchRun samples s t res) : res.unconsumed ≤ samples.length := by
  rcases h.result with ⟨b, m, rfl, hm⟩ | rfl
  · exact hm.le
  · exact Nat.zero_le _

theorem runCommands_samples_cons {v : Half} {d : Word} (rest : List Half) (hv : SampleAnswered v s d t) :
    runCommands ((v :: rest).map .demSample) s = runCommands (rest.map .demSample) t :=
  runCommands_cons _ hv.1

/-- The state a batch leaves is that of the samples it consumed. -/
theorem BatchRun.runs (h : BatchRun samples s t res) :
    runCommands ((samples.take (samples.length - res.unconsumed)).map .demSample) s = .next t := by
  induction h with
  | done => rfl
  | bit rest hv =>
    rw [BatchResult.unconsumed, List.length_cons, Nat.add_sub_cancel_left, List.take_succ_cons, List.take_zero,
      runCommands_samples_cons _ hv]
    rfl
  | more hv _ hrest ih =>
    rw [List.length_cons, Nat.sub_add_comm hrest.unconsumed_le, List.take_succ_cons, runCommands_samples_cons _ hv, ih]

/-- Every consumed sample was answered `OK`; the emit bit is in the last answer when a bit is reported, and nowhere
else. -/
theorem BatchRun.answers (h : BatchRun samples s t res) {n : Nat} (hn : n < samples.length - res.unconsumed) :
    ∃ u d, runCommands ((samples.take (n + 1)).map .demSample) s = .next u ∧
      u.response = some { code := 0#8, data := d } ∧
      (n + 1 < samples.length - res.unconsumed → d.getLsbD 1 = false) ∧
      (n + 1 = samples.length - res.unconsumed → ∀ b m, res = .bit b m → d.getLsbD 1 = true ∧ d.getLsbD 0 = b) ∧
      (n + 1 = samples.length - res.unconsumed → ∀ m, res = .noBitYet m → d.getLsbD 1 = false) := by
  induction h generalizing n with
  | done => exact absurd hn (Nat.not_lt_zero n)
  | @bit v s t d rest hv hbit =>
    simp only [BatchResult.unconsumed, List.length_cons, Nat.add_sub_cancel_left, Nat.lt_one_iff] at hn ⊢
    subst hn
    exact ⟨t, d, runCommands_samples_cons [] hv, hv.2, by omega, fun _ b m hres => by cases hres; exact ⟨hbit, rfl⟩,
      fun _ m hres => by cases hres⟩
  | @more v s t u d rest res hv hbit hrest ih =>
    rw [List.length_cons, Nat.sub_add_comm hrest.unconsumed_le] at hn ⊢
    cases n with
    | zero =>
      refine ⟨t, d, runCommands_samples_cons [] hv, hv.2, fun _ => hbit, fun hlast b m hres => ?_, fun _ _ _ => hbit⟩
      rcases hrest.result with ⟨b', m', rfl, hm⟩ | rfl
      · simp only [BatchResult.unconsumed] at hlast
        omega
      · cases hres
    | succ n =>
      obtain ⟨u, d', hrun, hresp, hanswer⟩ := ih (n := n) (by omega)
      refine ⟨u, d', ?_, hresp, ?_⟩
      · rw [List.take_succ_cons, runCommands_samples_cons _ hv, hrun]
      · simpa only [Nat.add_lt_add_iff_right, Nat.add_right_cancel_iff] using hanswer

end

/-- Settles O54: every sample is answered `OK`, so the run is that of `BatchRun`, which can end in two ways only. -/
theorem batchStopsAtTheFirstBit : Obligations.BatchStopsAtTheFirstBit := by
  intro s samples h hr
  obtain ⟨t, res, hbatch, hrun⟩ := demBatch_of_ready samples h hr
  refine ⟨t, res, hbatch, hrun.unconsumed_le, hrun.runs, fun n hn => ?_, ?_⟩
  · obtain ⟨u, d, hsamples, hresp, hanswer⟩ := hrun.answers hn
    exact ⟨u, _, hsamples, hresp, rfl, hanswer⟩
  · rcases hrun.result with ⟨b, m, rfl, hm⟩ | rfl
    · exact ⟨fun _ hres => (by cases hres), fun _ _ hres => (by cases hres), fun _ _ hres => by cases hres; exact hm⟩
    · exact ⟨fun _ hres => (by cases hres; rfl), fun _ _ hres => (by cases hres), fun _ _ hres => by cases hres⟩

end Sys2Proof.Machine
end

section
/-! The system commands on the registers and `NOP`: which numbers name a register of which access class, what `CSRR`
and `CSRW` do with each of them, and which words carry them (spec/40_system.md R121 to R123, spec/10_state.md R40). -/

namespace Sys2Proof.Machine

open Sys2Proof

/-! ### The numbers of the registers -/

theorem csrIndex_of_csrOfIndex {idx : BitVec 16} {c : Csr} (h : csrOfIndex idx = some c) : csrIndex c = idx := by
  unfold csrOfIndex at h
  split at h <;> cases h <;> rfl

theorem mem_registers (c : Csr) : c ∈ registers := by cases c <;> decide

theorem csrNumbers_eq_map : csrNumbers = registers.map csrIndex := rfl

/-- A number outside the spec's list names no register. -/
theorem csrOfIndex_eq_none {idx : BitVec 16} (h : idx ∉ csrNumbers) : csrOfIndex idx = none := by
  cases hc : csrOfIndex idx with
  | none => rfl
  | some c =>
    rw [csrNumbers_eq_map] at h
    exact absurd (List.mem_map.mpr ⟨c, mem_registers c, csrIndex_of_csrOfIndex hc⟩) h

/-- The numbers of the registers of one access class. -/
def numbersOfAccess (a : Access) : List (BitVec 16) := (registers.filter (csrAccess · = a)).map csrIndex

theorem exists_of_mem_numbersOfAccess {a : Access} {idx : BitVec 16} (h : idx ∈ numbersOfAccess a) :
    ∃ c, csrAccess c = a ∧ csrIndex c = idx := by
  obtain ⟨c, hc, hidx⟩ := List.mem_map.mp h
  exact ⟨c, of_decide_eq_true (List.mem_filter.mp hc).2, hidx⟩

theorem readOnlyNumbers_eq : readOnlyNumbers = numbersOfAccess .ro := by decide

theorem demLockedNumbers_eq : demLockedNumbers = numbersOfAccess .rwLockedByDem := by decide

theorem modLockedNumbers_eq : modLockedNumbers = numbersOfAccess .rwLockedByMod := by decide

/-! ### `CSRR` and `CSRW`, by the register's number -/

theorem exec_csrr_of_unknown {idx : BitVec 16} (h : idx ∉ csrNumbers) (s : State) :
    exec (.csrr idx) s = .next (faultRecorded 2 0x01#8 s) := by
  rcases execCsrr_cases idx s with ⟨-, e⟩ | ⟨c, hc, -⟩
  · exact e
  · cases (csrOfIndex_eq_none h).symm.trans hc

theorem exec_csrw_of_unknown {idx : BitVec 16} (h : idx ∉ csrNumbers) (v : Word) (s : State) :
    exec (.csrw idx v) s = .next (faultRecorded 2 0x02#8 s) := by
  rcases execCsrw_cases idx v s with ⟨-, e⟩ | ⟨c, hc, -⟩
  · exact e
  · cases (csrOfIndex_eq_none h).symm.trans hc

/-- `CSRW` of a register: access, then the lock, then the write (R123, R273). -/
theorem exec_csrw_csrIndex (c : Csr) (v : Word) (s : State) :
    exec (.csrw (csrIndex c) v) s =
      if csrAccess c = .ro then .next (faultRecorded 3 0x02#8 s)
      else if locked (csrAccess c) s.regs then .next (faultRecorded 4 0x02#8 s)
      else .next { s with regs := csrWrite c v s.regs, response := okWith 0 } := by
  rcases execCsrw_cases (csrIndex c) v s with ⟨hnone, -⟩ | ⟨c', hc, h⟩
  · cases (csrOfIndex_csrIndex c).symm.trans hnone
  · cases (csrOfIndex_csrIndex c).symm.trans hc
    rcases h with ⟨hro, e⟩ | ⟨hrw, hlocked, e⟩ | ⟨hrw, hfree, e⟩
    · rw [if_pos hro]
      exact e
    · rw [if_neg hrw, if_pos hlocked]
      exact e
    · rw [if_neg hrw, if_neg (ne_true_of_eq_false hfree)]
      exact e

theorem exec_csrw_of_readOnly {idx : BitVec 16} (h : idx ∈ readOnlyNumbers) (v : Word) (s : State) :
    exec (.csrw idx v) s = .next (faultRecorded 3 0x02#8 s) := by
  obtain ⟨c, hro, rfl⟩ := exists_of_mem_numbersOfAccess (readOnlyNumbers_eq ▸ h)
  rw [exec_csrw_csrIndex, if_pos hro]

/-- A register whose class is locked now is refused. -/
theorem exec_csrw_of_locked {a : Access} {idx : BitVec 16} {s : State} (h : idx ∈ numbersOfAccess a)
    (hlocked : locked a s.regs = true) (v : Word) : exec (.csrw idx v) s = .next (faultRecorded 4 0x02#8 s) := by
  obtain ⟨c, rfl, rfl⟩ := exists_of_mem_numbersOfAccess h
  have hrw : csrAccess c ≠ .ro := fun hro => by
    rw [hro] at hlocked
    cases hlocked
  rw [exec_csrw_csrIndex, if_neg hrw, if_pos hlocked]

/-- A register that is neither read-only nor locked now is written, and nothing else. -/
theorem exec_csrw_of_writable (c : Csr) {s : State} (hrw : csrAccess c ≠ .ro)
    (hfree : locked (csrAccess c) s.regs = false) (v : Word) :
    exec (.csrw (csrIndex c) v) s = .next { s with regs := csrWrite c v s.regs, response := okWith 0 } := by
  rw [exec_csrw_csrIndex, if_neg hrw, if_neg (ne_true_of_eq_false hfree)]

/-- `CSRW STATUS` clears exactly the sticky bits that it names (R45). -/
theorem clearSticky_getLsbD (sticky : BitVec 5) (v : Word) {k : Nat} (hk : k < 5) :
    (clearSticky sticky v).getLsbD k = (sticky.getLsbD k && !v.getLsbD (8 + k)) := by
  simp only [clearSticky, BitVec.getLsbD_and, BitVec.getLsbD_not, BitVec.getLsbD_extractLsb', hk, decide_true,
    Bool.true_and]

/-! ### The statements -/

/-- Settles O18: the table of the spec is the list of all registers, which `CSRR` reads as `csrRead` does. -/
theorem csrrReadsEveryRegister : Obligations.CsrrReadsEveryRegister := by
  intro s hp
  refine ⟨fun e he => ⟨?_, exec_csrr_of_mem_csrView hp he⟩, fun idx h => exec_csrr_of_unknown h s, fun idx => ?_,
    refusesReserved_of_any_opcode _ s⟩
  · rw [csrView_eq_map hp, List.mem_map] at he
    obtain ⟨c, -, rfl⟩ := he
    exact (csrRead c s).isLt
  · exact carriedBy_of_instrOfOpcode s fun w hop (hidx : idxField w = idx) => by
      simp only [instrOfOpcode, hop, hidx]

/-- Settles O19: each clause is one outcome of `CSRW`, by the access class of the register that the number names. -/
theorem csrwWritesExactlyTheNamedRegister : Obligations.CsrwWritesExactlyTheNamedRegister := by
  intro s v
  refine ⟨fun idx h => exec_csrw_of_unknown h v s, fun idx h => exec_csrw_of_readOnly h v s, fun hready idx h => ?_,
    fun hready idx h => ?_, ⟨_, exec_csrw_of_writable .status (by decide) rfl v, rfl, fun k hk => ?_⟩,
    exec_csrw_of_writable .ctrl (by decide) rfl v, fun hidle => ⟨?_, ?_, ?_⟩,
    exec_csrw_of_writable .demRunmax (by decide) rfl v, exec_csrw_of_writable .demPhase (by decide) rfl v,
    fun hidle => ⟨?_, ?_, ?_⟩, fun idx => ?_, refusesReserved_of_any_opcode _ s⟩
  · exact exec_csrw_of_locked (demLockedNumbers_eq ▸ h : idx ∈ numbersOfAccess .rwLockedByDem) hready v
  · exact exec_csrw_of_locked (modLockedNumbers_eq ▸ h : idx ∈ numbersOfAccess .rwLockedByMod) hready v
  · exact clearSticky_getLsbD s.regs.sticky v hk
  · exact exec_csrw_of_writable .demWindow (by decide) hidle v
  · exact exec_csrw_of_writable .demPllInc (by decide) hidle v
  · exact exec_csrw_of_writable .demPllAdj (by decide) hidle v
  · exact exec_csrw_of_writable .modIncLo (by decide) hidle v
  · exact exec_csrw_of_writable .modIncHi (by decide) hidle v
  · exact exec_csrw_of_writable .modBaudInc (by decide) hidle v
  · refine carriedBy_of_instrOfOpcode s fun w hop hw => ?_
    obtain ⟨hidx, hdata⟩ : idxField w = idx ∧ dataField w = v := hw
    simp only [instrOfOpcode, hop, hidx, hdata]

/-- Settles O17: `NOP` only responds, and no field of its word but `op` and `rsv` is looked at. -/
theorem nopRespondsAndChangesNothing : Obligations.NopRespondsAndChangesNothing := by
  intro s
  have hexec : exec .nop s = .next (respond 0#32 s) := rfl
  have hcarried : carriedBy 0x00#8 (fun _ => True) .nop s :=
    carriedBy_of_instrOfOpcode s fun w hop _ => by simp only [instrOfOpcode, hop]
  exact ⟨hexec.trans (congrArg _ (respond_eq 0#32 s)), hcarried, refusesReserved_of_any_opcode _ s⟩

end Sys2Proof.Machine
end

section
/-! The table commands: what each of them answers, in the terms of the statements, and which words carry them
(spec/41_tables.md R140 to R143). -/

namespace Sys2Proof.Machine

open Sys2Proof

/-! ### The indexes the commands refuse -/

theorem ftIndexLegal_eq_false_iff (p : Params) (zero : BitVec 6) (i : BitVec 8) :
    ftIndexLegal p zero i = false ↔ zero ≠ 0#6 ∨ p.wmax ≤ i.toNat := by
  rw [Bool.eq_false_iff, ne_eq, ftIndexLegal_iff, not_and_or, not_lt]

theorem ctIndexLegal_eq_false_iff (p : Params) (k : BitVec 16) : ctIndexLegal p k = false ↔ p.coslen ≤ k.toNat := by
  rw [Bool.eq_false_iff, ne_eq, ctIndexLegal_iff, not_lt]

/-! ### What the commands answer -/

/-- `FT.WR`: the index, then the lock, then the write (R140, R273). -/
theorem exec_ftWr_eq (zero : BitVec 6) (k : BitVec 2) (i : BitVec 8) (v : Half) (s : State) :
    exec (.ftWr zero k i v) s =
      if zero ≠ 0#6 ∨ s.params.wmax ≤ i.toNat then .next (faultRecorded 2 0x10#8 s)
      else if s.regs.demReady then .next (faultRecorded 4 0x10#8 s)
      else .next (respond 0#32 (ftWrite k.toNat i.toNat v s)) := by
  simp only [← ftIndexLegal_eq_false_iff]
  rcases execFtWr_cases zero k i v s with ⟨hout, e⟩ | ⟨hin, hready, e⟩ | ⟨hin, hidle, e⟩
  · rw [if_pos hout]
    exact e
  · rw [if_neg (ne_false_of_eq_true hin), if_pos hready]
    exact e
  · rw [if_neg (ne_false_of_eq_true hin), if_neg (ne_true_of_eq_false hidle)]
    exact e

/-- `FT.RD`: the index, then the read (R141, R273). -/
theorem exec_ftRd_eq (zero : BitVec 6) (k : BitVec 2) (i : BitVec 8) (s : State) :
    exec (.ftRd zero k i) s =
      if zero ≠ 0#6 ∨ s.params.wmax ≤ i.toNat then .next (faultRecorded 2 0x11#8 s)
      else .next (respond (zext16 (ftRead s k.toNat i.toNat)) s) := by
  simp only [← ftIndexLegal_eq_false_iff]
  rcases execFtRd_cases zero k i s with ⟨hout, e⟩ | ⟨hin, e⟩
  · rw [if_pos hout]
    exact e
  · rw [if_neg (ne_false_of_eq_true hin)]
    exact e

/-- `CT.WR`: the index, then the lock, then the write (R142, R273). -/
theorem exec_ctWr_eq (k : BitVec 16) (v : Half) (s : State) :
    exec (.ctWr k v) s =
      if s.params.coslen ≤ k.toNat then .next (faultRecorded 2 0x12#8 s)
      else if s.regs.modReady then .next (faultRecorded 4 0x12#8 s)
      else .next (respond 0#32 (ctWrite k.toNat v s)) := by
  simp only [← ctIndexLegal_eq_false_iff]
  rcases execCtWr_cases k v s with ⟨hout, e⟩ | ⟨hin, hready, e⟩ | ⟨hin, hidle, e⟩
  · rw [if_pos hout]
    exact e
  · rw [if_neg (ne_false_of_eq_true hin), if_pos hready]
    exact e
  · rw [if_neg (ne_false_of_eq_true hin), if_neg (ne_true_of_eq_false hidle)]
    exact e

/-- `CT.RD`: the index, then the read (R143, R273). -/
theorem exec_ctRd_eq (k : BitVec 16) (s : State) :
    exec (.ctRd k) s =
      if s.params.coslen ≤ k.toNat then .next (faultRecorded 2 0x13#8 s)
      else .next (respond (zext16 (ctRead s k.toNat)) s) := by
  simp only [← ctIndexLegal_eq_false_iff]
  rcases execCtRd_cases k s with ⟨hout, e⟩ | ⟨hin, e⟩
  · rw [if_pos hout]
    exact e
  · rw [if_neg (ne_false_of_eq_true hin)]
    exact e

/-- An entry as response data is the entry's number (R94). -/
theorem respond_zext16 (v : Half) (s : State) : respond (zext16 v) s = { s with response := okWith v.toNat } := by
  rw [respond_eq, zext16_toNat]

/-! ### The statements -/

/-- Settles O20: the written entry is the only one with its table and number, both being fields of the index. -/
theorem ftWrWritesOneEntry : Obligations.FtWrWritesOneEntry := by
  intro s zero k i v
  refine ⟨fun hbad => ?_, fun hz hi hready => ?_, fun hz hi hidle => ⟨respond 0#32 (ftWrite k.toNat i.toNat v s), ?_,
    rfl, fun k' i' hi' => ftRead_ftWrite s v i.isLt hi'⟩, ?_, refusesReserved_of_any_opcode _ s⟩
  · rw [exec_ftWr_eq, if_pos hbad]
  · rw [exec_ftWr_eq, if_neg (by simp [hz, hi]), if_pos hready]
  · rw [exec_ftWr_eq, if_neg (by simp [hz, hi]), if_neg (ne_true_of_eq_false hidle)]
  · refine carriedBy_of_instrOfOpcode s fun w hop hw => ?_
    obtain ⟨hzero, htable, hentry, hvalue⟩ :
      ftZeroField w = zero ∧ ftTableField w = k ∧ ftEntryField w = i ∧ valueField w = v := hw
    simp only [instrOfOpcode, hop, hzero, htable, hentry, hvalue]

/-- Settles O21: the only check of `FT.RD` is that of the index, and the read changes the response only. -/
theorem ftRdReadsOneEntry : Obligations.FtRdReadsOneEntry := by
  intro s zero k i
  refine ⟨fun hbad => ?_, fun hz hi => ?_, ?_, refusesReserved_of_any_opcode _ s⟩
  · rw [exec_ftRd_eq, if_pos hbad]
  · rw [exec_ftRd_eq, if_neg (by simp [hz, hi]), respond_zext16]
  · refine carriedBy_of_instrOfOpcode s fun w hop hw => ?_
    obtain ⟨hzero, htable, hentry⟩ : ftZeroField w = zero ∧ ftTableField w = k ∧ ftEntryField w = i := hw
    simp only [instrOfOpcode, hop, hzero, htable, hentry]

/-- Settles O22: the index is checked before the lock, and the write reaches its own entry only. -/
theorem ctWrWritesOneEntry : Obligations.CtWrWritesOneEntry := by
  intro s k v
  refine ⟨fun hbad => ?_, fun hk hready => ?_, fun hk hidle => ⟨respond 0#32 (ctWrite k.toNat v s), ?_,
    rfl, fun k' => ctRead_ctWrite s k.toNat k' v⟩, ?_, refusesReserved_of_any_opcode _ s⟩
  · rw [exec_ctWr_eq, if_pos hbad]
  · rw [exec_ctWr_eq, if_neg hk.not_ge, if_pos hready]
  · rw [exec_ctWr_eq, if_neg hk.not_ge, if_neg (ne_true_of_eq_false hidle)]
  · refine carriedBy_of_instrOfOpcode s fun w hop hw => ?_
    obtain ⟨hindex, hvalue⟩ : idxField w = k ∧ valueField w = v := hw
    simp only [instrOfOpcode, hop, hindex, hvalue]

/-- Settles O23: the only check of `CT.RD` is that of the index, and the read changes the response only. -/
theorem ctRdReadsOneEntry : Obligations.CtRdReadsOneEntry := by
  intro s k
  refine ⟨fun hbad => ?_, fun hk => ?_, ?_, refusesReserved_of_any_opcode _ s⟩
  · rw [exec_ctRd_eq, if_pos hbad]
  · rw [exec_ctRd_eq, if_neg hk.not_ge, respond_zext16]
  · refine carriedBy_of_instrOfOpcode s fun w hop (hindex : idxField w = k) => ?_
    simp only [instrOfOpcode, hop, hindex]

end Sys2Proof.Machine
end

section
/-! The demodulator's session: `DEM.INIT` starts it, `DEM.HALT` leaves all of it but the READY bit, and no command
but `DEM.INIT`, `DEM.SAMPLE`, `SYS.RESET` and a write of `DEM_PHASE` changes it (spec/42_demodulator.md R162, R165,
R186, spec/43_modulator.md R203). -/

namespace Sys2Proof.Machine

open Sys2Proof

/-- A command without operands is carried by every word of its opcode (R91). -/
theorem carriedBy_of_opcode {op : Byte} {i : Instr} (s : State)
    (h : ∀ w, opField w = op → instrOfOpcode w = some i) : carriedBy op (fun _ => True) i s :=
  carriedBy_of_instrOfOpcode s fun w hop _ => h w hop

/-! ### `DEM.INIT` -/

/-- The configurations that `DEM.INIT` refuses, as numbers (R164). -/
theorem demConfigLegal_eq_false_iff (p : Params) (r : Regs) : demConfigLegal p r = false ↔
    r.demWindow.toNat = 0 ∨ p.wmax < r.demWindow.toNat ∨ r.demPllInc.toNat = 0 ∨ 0x80000000 ≤ r.demPllAdj.toNat := by
  have hinc : r.demPllInc ≠ 0#32 ↔ r.demPllInc.toNat ≠ 0 := BitVec.toNat_ne
  rw [Bool.eq_false_iff, ne_eq, demConfigLegal_iff, hinc]
  omega

/-- `DEM.INIT`: the check of the configuration, then the session (R162). -/
theorem exec_demInit_eq (s : State) : exec .demInit s =
    if s.regs.demWindow.toNat = 0 ∨ s.params.wmax < s.regs.demWindow.toNat ∨ s.regs.demPllInc.toNat = 0 ∨
        0x80000000 ≤ s.regs.demPllAdj.toNat then
      .next (faultRecorded 5 0x20#8 s)
    else .next (respond 0#32 (demInitState s)) := by
  simp only [← demConfigLegal_eq_false_iff]
  rcases execDemInit_cases s with ⟨hbad, e⟩ | ⟨hlegal, e⟩
  · rw [if_pos hbad]
    exact e
  · rw [if_neg (ne_false_of_eq_true hlegal)]
    exact e

/-- A session begins with a cleared window (R162). -/
theorem winRead_demInitState (s : State) {i : Nat} (hi : i < s.params.wmax) : winRead (demInitState s) i = 0#16 := by
  have hget : storageGet (demInitState s).win i = some 0#16 := (storageGet_zeroWindow _ i).trans (if_pos hi)
  simp only [winRead, hget, Option.getD_some]

/-- Settles O24: the check is of the configuration only, so both clauses hold in either state of the unit. -/
theorem demInitStartsASession : Obligations.DemInitStartsASession := by
  intro s
  refine ⟨fun hpos hmax hinc hadj => ⟨respond 0#32 (demInitState s), ?_, rfl, fun i hi => winRead_demInitState s hi⟩,
    fun hbad => ?_, carriedBy_of_opcode s fun w hop => ?_, refusesReserved_of_any_opcode _ s⟩
  · rw [exec_demInit_eq, if_neg (by omega)]
  · rw [exec_demInit_eq, if_pos hbad]
  · simp only [instrOfOpcode, hop]

/-! ### `DEM.HALT` and `MOD.HALT` -/

/-- Settles O25: neither `HALT` checks anything. -/
theorem haltOnlyClearsReady : Obligations.HaltOnlyClearsReady := by
  intro s
  have hdem : exec .demHalt s = .next (respond 0#32 (s.setRegs { s.regs with demReady := false })) := rfl
  have hmod : exec .modHalt s = .next (respond 0#32 (s.setRegs { s.regs with modReady := false })) := rfl
  refine ⟨hdem.trans (congrArg _ (respond_eq _ _)), hmod.trans (congrArg _ (respond_eq _ _)),
    carriedBy_of_opcode s fun w hop => ?_, refusesReserved_of_any_opcode _ s,
    carriedBy_of_opcode s fun w hop => ?_, refusesReserved_of_any_opcode _ s⟩ <;>
  simp only [instrOfOpcode, hop]

/-! ### The session under the other commands -/

/-- The demodulator's session state is the same in `u` as in `s` (R186). -/
abbrev DemSessionKept (s u : State) : Prop :=
  u.win = s.win ∧ u.regs.demPhase = s.regs.demPhase ∧ u.regs.prevDec = s.regs.prevDec ∧
    u.regs.demRunlen = s.regs.demRunlen ∧ u.regs.wrPtr = s.regs.wrPtr

/-- `DEM_PHASE` is the one register of the session that `CSRW` can write (R40, R52 to R54). -/
theorem csrWrite_keeps_demSession {c : Csr} (hc : c ≠ .demPhase) (v : Word) (s : State) :
    DemSessionKept s (s.setRegs (csrWrite c v s.regs)) := by
  cases c
  case demPhase => exact absurd rfl hc
  all_goals exact ⟨rfl, rfl, rfl, rfl, rfl⟩

theorem pushBit_keeps_demSession (b : Bool) (s : State) : DemSessionKept s (pushBit b s).state := by
  obtain ⟨n, k, hregs⟩ := pushBit_regs b s
  simp only [DemSessionKept, pushBit_win, hregs, and_self]

/-- A command that passes its checks and is not one of the session's four writers keeps the session. -/
theorem completes_keeps_demSession {i : Instr} {s u : State} {d : Word} (h : completes s d u i)
    (hdem : opcode i ∉ [0x20#8, 0x22#8]) (hreset : i ≠ .sysReset) (hphase : ∀ v, i ≠ .csrw 0x0014#16 v) :
    DemSessionKept s u := by
  cases i with
  | demInit | demSample => exact absurd (by simp [opcode]) hdem
  | sysReset => exact absurd rfl hreset
  | csrw idx v =>
    obtain ⟨c, hc, -, -, -, rfl⟩ := h
    refine csrWrite_keeps_demSession (fun hcp => ?_) v s
    subst hcp
    exact hphase v (csrIndex_of_csrOfIndex hc ▸ rfl)
  | frmBit b => obtain ⟨-, -, rfl⟩ := h; exact pushBit_keeps_demSession b s
  | csrr | ftWr | ctWr => obtain ⟨-, -, -, rfl⟩ := h; exact ⟨rfl, rfl, rfl, rfl, rfl⟩
  | nop | demHalt | modHalt | frmClear => obtain ⟨-, rfl⟩ := h; exact ⟨rfl, rfl, rfl, rfl, rfl⟩
  | ftRd | ctRd | modInit | modSample | frmRd => obtain ⟨-, -, rfl⟩ := h; exact ⟨rfl, rfl, rfl, rfl, rfl⟩

/-- Settles O50: a fault writes the error record only. -/
theorem otherCommandsLeaveTheDemodulatorAlone : Obligations.OtherCommandsLeaveTheDemodulatorAlone := by
  intro i s t he hdem hreset hphase
  rcases exec_outcomes he with ⟨c, -, rfl⟩ | ⟨d, u, hc, rfl⟩
  · exact ⟨rfl, rfl, rfl, rfl, rfl⟩
  · simpa only [DemSessionKept, respond_win, respond_regs] using completes_keeps_demSession hc hdem hreset hphase

end Sys2Proof.Machine
end

section
/-! `DEM.SAMPLE`: when it is answered, the numbers of its five steps, and the bit it pushes when chained
(spec/42_demodulator.md R170 to R183). -/

namespace Sys2Proof.Machine

open Sys2Proof

/-! ### What the command answers -/

/-- In IDLE a sample is refused (R170). -/
theorem exec_demSample_of_idle {s : State} (hidle : s.regs.demReady = false) (v : Half) :
    exec (.demSample v) s = .next (faultRecorded 4 0x22#8 s) := by
  rcases execDemSample_cases v s with ⟨-, e⟩ | ⟨hready, -⟩ | ⟨hready, -⟩ | ⟨hready, -⟩
  · exact e
  all_goals cases hidle.symm.trans hready

/-- The phase wraps exactly when the exact sum reaches 2^32 (R176). -/
theorem demodulate_wrapped_iff (v : Half) (s : State) :
    (demodulate v s).wrapped = true ↔ 2 ^ 32 ≤ s.regs.demPhase.toNat + s.regs.demPllInc.toNat :=
  sumCarry_iff _ _

/-- The response data of a sample that pushes nothing (R179). -/
abbrev unpushedData (v : Half) (s : State) : Word :=
  demResponse 0#10 (lockLoss (demodulate v s).state.regs) (demodulate v s)

/-- A sample with nothing to push: `CHAIN` = 0, or the phase does not wrap (R178, R180). -/
theorem exec_demSample_unpushed {s : State} (hready : s.regs.demReady = true) (hin : windowInside s = true)
    (hpush : s.regs.chain = false ∨ s.regs.demPhase.toNat + s.regs.demPllInc.toNat < 2 ^ 32) (v : Half) :
    exec (.demSample v) s = .next (respond (unpushedData v s) (demodulate v s).state) := by
  rcases execDemSample_cases v s with ⟨hidle, -⟩ | ⟨-, hout, -⟩ | ⟨-, -, -, e⟩ | ⟨-, -, hwrap, hchain, -⟩
  · cases hready.symm.trans hidle
  · cases hin.symm.trans hout
  · exact e
  · rw [demodulate_wrapped_iff] at hwrap
    rcases hpush with hfree | hlow
    · cases hchain.symm.trans hfree
    · omega

/-- A chained sample whose phase wraps pushes its decision into FRM (R180). -/
theorem exec_demSample_pushed {s : State} (hready : s.regs.demReady = true) (hin : windowInside s = true)
    (hpos : positionInside s = true) (hchain : s.regs.chain = true)
    (hwrap : 2 ^ 32 ≤ s.regs.demPhase.toNat + s.regs.demPllInc.toNat) (v : Half) :
    exec (.demSample v) s =
      .next (respond (chainedData v s) (pushBit (demodulate v s).dec (demodulate v s).state).state) := by
  rw [← demodulate_wrapped_iff v] at hwrap
  rcases execDemSample_cases v s with ⟨hidle, -⟩ | ⟨-, hout, -⟩ | ⟨-, -, hlow | hfree, -⟩ |
    ⟨-, -, -, -, ⟨hout, -⟩ | ⟨-, e⟩⟩
  · cases hready.symm.trans hidle
  · cases hin.symm.trans hout
  · cases hwrap.symm.trans hlow
  · cases hchain.symm.trans hfree
  · cases hpos.symm.trans hout
  · exact e

/-- Settles O26: while DEM is READY the invariant keeps every access inside, so nothing is left to refuse. -/
theorem demSampleIsOkExactlyWhenReady : Obligations.DemSampleIsOkExactlyWhenReady := by
  intro s v h
  refine ⟨carriedBy_of_instrOfOpcode s fun w hop (hv : valueField w = v) => ?_, refusesReserved_of_any_opcode _ s,
    fun hready => ?_, fun hidle => exec_demSample_of_idle hidle v⟩
  · simp only [instrOfOpcode, hop, hv]
  · obtain ⟨d, t, ⟨he, hresp⟩, -, -⟩ := demSample_answered h hready v
    exact ⟨t, _, he, hresp, rfl⟩

/-! ### The five steps, as numbers -/

/-- WIN after a sample: the entry at `wr_ptr` is the sample, every other one is as it was (R171). -/
theorem winRead_demodulate (v : Half) (s : State) (i : Nat) :
    winRead (demodulate v s).state i = if i = s.regs.wrPtr.toNat then v else winRead s i :=
  winRead_winWrite s s.regs.wrPtr.toNat i v

/-- Entry `i` of WIN with the sample `v` in, as a number (R171). -/
abbrev windowWith (v : Half) (s : State) (i : Nat) : Int :=
  if i = s.regs.wrPtr.toNat then v.toInt else (winRead s i).toInt

/-- The window once the sample is in, oldest sample first (R171, R172). -/
theorem windowSample_shiftWindow {s : State} (v : Half) (hpos : 1 ≤ s.regs.demWindow.toNat)
    (hmax : s.regs.demWindow.toNat ≤ 255) (j : Nat) :
    windowSample (shiftWindow v s) j =
      windowWith v s (((s.regs.wrPtr.toNat + 1) % s.regs.demWindow.toNat + j) % s.regs.demWindow.toNat) := by
  have hptr : (shiftWindow v s).regs.wrPtr.toNat = (s.regs.wrPtr.toNat + 1) % s.regs.demWindow.toNat := by
    have hlt : (s.regs.wrPtr.toNat + 1) % s.regs.demWindow.toNat < s.regs.demWindow.toNat := Nat.mod_lt _ hpos
    show (BitVec.ofNat 8 ((s.regs.wrPtr.toNat + 1) % s.regs.demWindow.toNat)).toNat = _
    rw [BitVec.toNat_ofNat, Nat.mod_eq_of_lt (by omega)]
  have hread : ∀ i, winRead (shiftWindow v s) i = if i = s.regs.wrPtr.toNat then v else winRead s i :=
    winRead_demodulate v s
  have hlen : windowLength (shiftWindow v s) = s.regs.demWindow.toNat := rfl
  simp only [windowSample, hptr, hread, hlen, sext16, apply_ite BitVec.toInt]

/-- The correlation of the new window with table `k` (R172). -/
theorem correlation_shiftWindow {s : State} (v : Half) (hpos : 1 ≤ s.regs.demWindow.toNat)
    (hmax : s.regs.demWindow.toNat ≤ 255) (k : Nat) :
    correlation (shiftWindow v s) k = ∑ j ∈ Finset.range s.regs.demWindow.toNat,
      windowWith v s (((s.regs.wrPtr.toNat + 1) % s.regs.demWindow.toNat + j) % s.regs.demWindow.toNat) *
        (ftRead s k j).toInt := by
  rw [correlation, sumBelow_eq_sum]
  exact Finset.sum_congr rfl fun j _ => by rw [windowSample_shiftWindow v hpos hmax]; rfl

/-- The decision compares the energies of the two tones (R173). -/
theorem toneDecision_eq (s : State) : toneDecision s =
    decide (correlation s 0 ^ 2 + correlation s 1 ^ 2 < correlation s 2 ^ 2 + correlation s 3 ^ 2) := by
  simp only [toneDecision, energyHigh, energyLow, sub_pos, pow_two]

/-- The run length as a number (R175). -/
theorem nextRunLength_toNat (trans : Bool) (n : Word) :
    (nextRunLength trans n).toNat = if trans then 0 else min (n.toNat + 1) 0xFFFFFFFF := by
  have hn := n.isLt
  cases trans with
  | true => rfl
  | false =>
    by_cases hfull : n = 0xFFFFFFFF#32
    · subst hfull
      rfl
    · have hlt : n.toNat ≠ 0xFFFFFFFF := fun h => hfull (BitVec.eq_of_toNat_eq h)
      simp only [nextRunLength, Bool.false_eq_true, if_false, hfull, BitVec.toNat_add, BitVec.toNat_ofNat]
      omega

/-- The nudged phase as a number: below 2^31 there is room for an adjustment below 2^31, and from 2^31 on there is
enough to take it from (R177). -/
theorem nudge_toNat (trans : Bool) (phase : Word) {adj : Word} (hadj : adj.toNat < 0x80000000) :
    (nudge trans phase adj).toNat =
      if trans then if phase.toNat < 0x80000000 then phase.toNat + adj.toNat else phase.toNat - adj.toNat
      else phase.toNat := by
  have hphase := phase.isLt
  cases trans with
  | false => rfl
  | true =>
    have hult : phase.ult 0x80000000#32 = decide (phase.toNat < 0x80000000) := rfl
    by_cases hlow : phase.toNat < 0x80000000
    · simp only [nudge, if_true, hult, hlow, decide_true, BitVec.toNat_add]
      omega
    · simp only [nudge, if_true, hult, hlow, decide_false, Bool.false_eq_true, if_false, BitVec.toNat_sub]
      omega

/-- Settles O27: the sample pushes nothing, and each field it leaves is the number of its step. -/
theorem demSampleFollowsTheFiveSteps : Obligations.DemSampleFollowsTheFiveSteps := by
  intro s v hp hready hpos hmax hptr hadj hpush w wr window acc dec trans total wrapped advanced phase run
  obtain ⟨-, hwmax, -⟩ := hp
  have hacc : ∀ k, correlation (shiftWindow v s) k = acc k := correlation_shiftWindow v hpos (hmax.trans hwmax)
  have hdec : (demodulate v s).dec = dec := by
    refine (toneDecision_eq (shiftWindow v s)).trans ?_
    simp only [hacc, dec]
  have htrans : (demodulate v s).trans = trans := by rw [demodulate_trans, hdec]
  have hwrapped : (demodulate v s).wrapped = wrapped :=
    Bool.eq_iff_iff.2 ((demodulate_wrapped_iff v s).trans decide_eq_true_iff.symm)
  have hphase : (nudge trans (s.regs.demPhase + s.regs.demPllInc) s.regs.demPllAdj).toNat = phase := by
    rw [nudge_toNat trans _ hadj, BitVec.toNat_add]
  have hrun : (nextRunLength trans s.regs.demRunlen).toNat = run := nextRunLength_toNat trans _
  have hloss : 16 * (lockLoss (demodulate v s).state.regs).toNat = if s.regs.demRunmax.toNat < run then 16 else 0 := by
    have hiff := lockLoss_iff (demodulate v s).state.regs
    simp only [demodulate_state, htrans, hrun] at hiff ⊢
    simp only [← hiff]
    cases lockLoss _ <;> rfl
  refine ⟨_, exec_demSample_unpushed hready ((windowInside_iff s).2 ⟨hpos, hmax, hptr⟩) hpush v, ?_,
    hphase ▸ BitVec.isLt _, winRead_demodulate v s⟩
  rw [respond_eq, demResponse_toNat, hloss, demodulate_state, hdec, htrans, hwrapped, ← hphase, ← hrun,
    BitVec.ofNat_toNat, BitVec.ofNat_toNat, BitVec.setWidth_eq, BitVec.setWidth_eq]
  rfl

/-! ### The pushed bit -/

/-- The low bits of a sample's response: the bit, whether there is one, the transition, the decision (R179). -/
theorem demResponse_lowBits (pkt : BitVec 10) (lockloss : Bool) (d : Demodulated) :
    (demResponse pkt lockloss d).getLsbD 0 = (d.wrapped && d.dec) ∧
      (demResponse pkt lockloss d).getLsbD 1 = d.wrapped ∧ (demResponse pkt lockloss d).getLsbD 2 = d.trans ∧
      (demResponse pkt lockloss d).getLsbD 3 = d.dec := by
  have hfields : ∀ k, (demResponse pkt lockloss d).getLsbD k =
      (0#14 ++ pkt ++ 0#3 ++ BitVec.ofBool lockloss ++ BitVec.ofBool d.dec ++ BitVec.ofBool d.trans ++
        BitVec.ofBool d.wrapped ++ BitVec.ofBool (d.wrapped && d.dec)).getLsbD k := fun _ => rfl
  simp only [hfields, BitVec.getLsbD_append]
  simp

/-- Without a push the low eight bits are all there is of the response (R179, R180). -/
theorem demResponse_unpushed_lt (lockloss : Bool) (d : Demodulated) : (demResponse 0#10 lockloss d).toNat < 2 ^ 8 := by
  rw [demResponse_toNat]
  have := (d.wrapped && d.dec).toNat_lt
  have := d.wrapped.toNat_lt
  have := d.trans.toNat_lt
  have := d.dec.toNat_lt
  have := lockloss.toNat_lt
  simp only [BitVec.toNat_ofNat]
  omega

theorem demResponse_unpushed_packetField (lockloss : Bool) (d : Demodulated) :
    (demResponse 0#10 lockloss d).extractLsb' 8 10 = 0#10 := by
  have hlt := demResponse_unpushed_lt lockloss d
  apply BitVec.eq_of_toNat_eq
  rw [BitVec.extractLsb'_toNat, Nat.shiftRight_eq_div_pow, Nat.div_eq_of_lt hlt]
  rfl

/-- The result of a push lies in bits [17:8] (R228). -/
theorem pushBit_result_toNat (b : Bool) (s : State) :
    (pushBit b s).result.toNat = 2 ^ 8 * ((pushBit b s).result.extractLsb' 8 10).toNat := by
  rw [BitVec.extractLsb'_toNat, Nat.shiftRight_eq_div_pow]
  rcases pushBit_cases b s with ⟨-, e⟩ | ⟨-, -, e⟩ | ⟨-, -, -, e⟩ <;> rw [e]
  · rw [BitVec.toNat_ofNat]
    rfl
  · rw [BitVec.toNat_ofNat]
    rfl
  · rw [packetResult_toNat]
    have := (pbufRead (bitStored b s) 1).isLt
    have := (validate (target s.params (pbufRead (bitStored b s) 1)) (bitStored b s)).valid.toNat_lt
    omega

/-- The response of a chained sample is that of the sample without a push, united with the push's result (R180). -/
theorem demResponse_pushed (b : Bool) (s : State) (lockloss : Bool) (d : Demodulated) :
    demResponse ((pushBit b s).result.extractLsb' 8 10) lockloss d =
      demResponse 0#10 lockloss d ||| (pushBit b s).result := by
  apply BitVec.eq_of_toNat_eq
  rw [BitVec.toNat_or, pushBit_result_toNat, Nat.or_comm,
    ← Nat.two_pow_add_eq_or_of_lt (demResponse_unpushed_lt lockloss d), demResponse_toNat, demResponse_toNat]
  simp only [BitVec.toNat_ofNat]
  omega

/-- `PushBit` leaves everything but PBUF and the framer's position (R221). -/
theorem pushBit_state_eq (b : Bool) (s : State) : (pushBit b s).state =
    { s with
      pbuf := (pushBit b s).state.pbuf
      regs := { s.regs with
        byteOff := (pushBit b s).state.regs.byteOff, bitOff := (pushBit b s).state.regs.bitOff } } := by
  obtain ⟨m, n, k, h⟩ := pushBit_frame b s
  rw [h]

/-- The state with another `CHAIN` bit (R46). -/
abbrev withChain (chain : Bool) (s : State) : State := { s with regs := { s.regs with chain := chain } }

/-- `PushBit` does the same to FRM whatever `CHAIN` and the last response are (R180, R226). -/
theorem pushBit_respond_withChain (b chain : Bool) (d : Word) (s : State) :
    (pushBit b (respond d (withChain chain s))).result = (pushBit b s).result ∧
      (pushBit b (respond d (withChain chain s))).state = respond d (withChain chain (pushBit b s).state) := by
  obtain ⟨hresult, hpbuf, hbyte, hbit⟩ :=
    pushBit_congr (s := s) (u := respond d (withChain chain s)) b ⟨rfl, rfl, rfl⟩ rfl rfl
  refine ⟨hresult, ?_⟩
  rw [pushBit_state_eq b (respond d (withChain chain s)), hpbuf, hbyte, hbit, pushBit_state_eq b s]
  rfl

theorem withChain_self {s : State} {chain : Bool} (h : s.regs.chain = chain) : withChain chain s = s := by
  subst h
  rfl

/-- Settles O28: the five steps do not look at `CHAIN`, so a chained sample's push is that of `FRM.BIT` in the state
the unchained sample leaves. -/
theorem chainedSamplePushesItsBit : Obligations.ChainedSamplePushesItsBit := by
  intro s v h hready
  have hin := windowInside_of_invariant h hready
  refine ⟨fun hchain hwrap => ?_, fun hpush => ?_⟩
  · have hunchained : exec (.demSample v) (withChain false s) =
        .next (respond (unpushedData v s) (withChain false (demodulate v s).state)) :=
      exec_demSample_unpushed (s := withChain false s) hready hin (.inl rfl) v
    obtain ⟨hbit, hemit, -, -⟩ :=
      demResponse_lowBits 0#10 (lockLoss (demodulate v s).state.regs) (demodulate v s)
    have hwrapped : (demodulate v s).wrapped = true := (demodulate_wrapped_iff v s).2 hwrap
    rw [hwrapped, Bool.true_and] at hbit
    obtain ⟨hresult, hstate⟩ := pushBit_respond_withChain (demodulate v s).dec false (unpushedData v s)
      (demodulate v s).state
    have hkept : (pushBit (demodulate v s).dec (demodulate v s).state).state.regs.chain = true := by
      rw [pushBit_state_eq]
      exact hchain
    refine ⟨_, _, _, _, _, _,
      exec_demSample_pushed hready hin ((positionInside_iff s).2 h.byteOffInside) hchain hwrap v,
      hunchained, rfl, rfl, hemit.trans hwrapped, exec_frmBit _ h.byteOffInside, rfl, rfl, rfl, rfl, ?_, ?_⟩
    · dsimp only
      rw [hbit, hresult]
      exact demResponse_pushed _ _ _ _
    · dsimp only
      rw [hbit, hstate]
      exact congrArg (respond (chainedData v s)) (withChain_self hkept).symm
  · exact ⟨_, _, exec_demSample_unpushed hready hin hpush v, rfl, rfl, rfl, rfl, rfl,
      demResponse_unpushed_packetField _ _⟩

end Sys2Proof.Machine
end

section
/-! A session that is fed only zero samples (spec/42_demodulator.md R182). -/

namespace Sys2Proof.Machine

open Sys2Proof

/-- A window of zeros correlates to 0 with every table (R172). -/
theorem correlation_of_zero_window {s : State} (hpos : 1 ≤ s.regs.demWindow.toNat)
    (hzero : ∀ i, i < s.regs.demWindow.toNat → winRead s i = 0#16) (k : Nat) : correlation s k = 0 := by
  rw [correlation, sumBelow_eq_sum]
  refine Finset.sum_eq_zero fun j _ => ?_
  have hsample : windowSample s j = 0 := congrArg sext16 (hzero _ (Nat.mod_lt _ hpos))
  rw [hsample, zero_mul]

/-- Equal energies decide for 0 (R173). -/
theorem toneDecision_of_zero_window {s : State} (hpos : 1 ≤ s.regs.demWindow.toNat)
    (hzero : ∀ i, i < s.regs.demWindow.toNat → winRead s i = 0#16) : toneDecision s = false := by
  simp only [toneDecision_eq, correlation_of_zero_window hpos hzero, lt_self_iff_false, decide_false]

/-- A READY, unchained demodulator with the decision 0 and a window of zeros. -/
structure Silent (s : State) : Prop where
  invariant : Invariant s
  ready : s.regs.demReady = true
  unchained : s.regs.chain = false
  decision : s.regs.prevDec = false
  window : ∀ i, i < s.regs.demWindow.toNat → winRead s i = 0#16

section
variable {s : State}

theorem Silent.window_after (h : Silent s) (i : Nat) (hi : i < s.regs.demWindow.toNat) :
    winRead (demodulate 0#16 s).state i = 0#16 := by
  rw [winRead_demodulate]
  split
  · rfl
  · exact h.window i hi

/-- A zero sample decides for 0 again, so there is no transition (R173, R174). -/
theorem Silent.no_transition (h : Silent s) :
    (demodulate 0#16 s).dec = false ∧ (demodulate 0#16 s).trans = false := by
  obtain ⟨hpos, -, -⟩ := (windowInside_iff s).1 (windowInside_of_invariant h.invariant h.ready)
  have hdec : (demodulate 0#16 s).dec = false :=
    toneDecision_of_zero_window (s := shiftWindow 0#16 s) hpos h.window_after
  exact ⟨hdec, by rw [demodulate_trans, hdec, h.decision]; rfl⟩

/-- Without a transition the phase runs free and the run goes on (R175 to R177). -/
theorem Silent.phase_and_run_after (h : Silent s) :
    (demodulate 0#16 s).state.regs.demPhase = s.regs.demPhase + s.regs.demPllInc ∧
      (demodulate 0#16 s).state.regs.demRunlen.toNat = min (s.regs.demRunlen.toNat + 1) 0xFFFFFFFF := by
  obtain ⟨-, htrans⟩ := h.no_transition
  rw [demodulate_state, htrans]
  exact ⟨rfl, nextRunLength_toNat false _⟩

theorem Silent.after (h : Silent s) (d : Word) : Silent (respond d (demodulate 0#16 s).state) where
  invariant := respond_keeps_invariant (demodulate_keeps_invariant h.invariant h.ready 0#16) d
  ready := h.ready
  unchained := h.unchained
  decision := h.no_transition.1
  window := h.window_after

end

/-- `n` zero samples have led from `s` to `t`. -/
structure SilentRun (s : State) (n : Nat) (t : State) : Prop where
  silent : Silent t
  window : t.regs.demWindow = s.regs.demWindow
  increment : t.regs.demPllInc = s.regs.demPllInc
  phase : t.regs.demPhase = BitVec.ofNat 32 (s.regs.demPhase.toNat + n * s.regs.demPllInc.toNat)
  runLength : t.regs.demRunlen.toNat = min (s.regs.demRunlen.toNat + n) 0xFFFFFFFF
  answer : 0 < n → ∃ r, t.response = some r ∧ r.code = 0#8 ∧ r.data.getLsbD 0 = false ∧
    r.data.getLsbD 2 = false ∧ r.data.getLsbD 3 = false

theorem SilentRun.start {s : State} (h : Silent s) : SilentRun s 0 s where
  silent := h
  window := rfl
  increment := rfl
  phase := by rw [Nat.zero_mul, Nat.add_zero, BitVec.ofNat_toNat, BitVec.setWidth_eq]
  runLength := by
    have := s.regs.demRunlen.isLt
    omega
  answer hn := absurd hn (Nat.lt_irrefl 0)

/-- One more zero sample. -/
theorem SilentRun.succ {s t : State} {n : Nat} (h : SilentRun s n t) :
    ∃ u, exec (.demSample 0#16) t = .next u ∧ SilentRun s (n + 1) u := by
  have hin := windowInside_of_invariant h.silent.invariant h.silent.ready
  obtain ⟨hphase, hrun⟩ := h.silent.phase_and_run_after
  obtain ⟨hdec, htrans⟩ := h.silent.no_transition
  obtain ⟨hbit, -, hbit2, hbit3⟩ :=
    demResponse_lowBits 0#10 (lockLoss (demodulate 0#16 t).state.regs) (demodulate 0#16 t)
  refine ⟨_, exec_demSample_unpushed h.silent.ready hin (.inl h.silent.unchained) 0#16, ?_⟩
  exact {
    silent := h.silent.after _
    window := h.window
    increment := h.increment
    phase := by
      rw [respond_regs, hphase, h.phase, h.increment, Nat.succ_mul, ← Nat.add_assoc,
        BitVec.ofNat_add _ (BitVec.toNat _), BitVec.ofNat_toNat, BitVec.setWidth_eq]
    runLength := by
      rw [respond_regs, hrun, h.runLength]
      omega
    answer := fun _ =>
      ⟨_, rfl, rfl, hbit.trans (by rw [hdec, Bool.and_false]), hbit2.trans htrans, hbit3.trans hdec⟩ }

/-- Settles O30: each zero sample leaves a silent demodulator, by induction on their number. -/
theorem silenceNeverMakesATransition : Obligations.SilenceNeverMakesATransition := by
  intro n s h hready hchain hdec hzero
  obtain ⟨t, hrun, ht⟩ := runCommands_range (f := fun _ => .demSample 0#16) (P := SilentRun s) (n := n)
    (.start ⟨h, hready, hchain, hdec, hzero⟩) (fun _ _ _ hk => hk.succ)
  rw [List.map_const', List.length_range] at hrun
  exact ⟨t, hrun, ht.silent.decision, ht.phase, ht.runLength, ht.window ▸ ht.silent.window, ht.answer⟩

end Sys2Proof.Machine
end

section
/-! The modulator: what `MOD.INIT` and `MOD.SAMPLE` answer, when the samples of a session poll, and how little it
shares with the demodulator (spec/43_modulator.md R200 to R211). -/

namespace Sys2Proof.Machine

open Sys2Proof

/-! ### `MOD.INIT` -/

/-- The one configuration that `MOD.INIT` refuses, as a number (R201). -/
theorem modConfigLegal_eq_false_iff (r : Regs) : modConfigLegal r = false ↔ r.modBaudInc.toNat = 0 := by
  have hzero : r.modBaudInc = 0#32 ↔ r.modBaudInc.toNat = 0 := BitVec.toNat_inj.symm
  rw [modConfigLegal, bne_eq_false_iff_eq, hzero]

/-- `MOD.INIT`: the check of the configuration, then the session (R201). -/
theorem exec_modInit_eq (s : State) : exec .modInit s =
    if s.regs.modBaudInc.toNat = 0 then .next (faultRecorded 5 0x30#8 s)
    else .next (respond 0#32 (s.setRegs (modInitRegs s.regs))) := by
  simp only [← modConfigLegal_eq_false_iff]
  rcases execModInit_cases s with ⟨hbad, e⟩ | ⟨hlegal, e⟩
  · rw [if_pos hbad]
    exact e
  · rw [if_neg (ne_false_of_eq_true hlegal)]
    exact e

/-- Settles O31: the check is of the configuration only, so both clauses hold in either state of the unit. -/
theorem modInitStartsASession : Obligations.ModInitStartsASession := by
  intro s
  refine ⟨fun hlegal => ?_, fun hbad => ?_, carriedBy_of_opcode s fun w hop => ?_, refusesReserved_of_any_opcode _ s⟩
  · rw [exec_modInit_eq, if_neg hlegal, respond_eq]
    rfl
  · rw [exec_modInit_eq, if_pos hbad]
  · simp only [instrOfOpcode, hop]

/-! ### `MOD.SAMPLE` -/

/-- In IDLE a sample is refused (R205). -/
theorem exec_modSample_of_idle {s : State} (hidle : s.regs.modReady = false) (b : Bool) :
    exec (.modSample b) s = .next (faultRecorded 4 0x32#8 s) := by
  rcases execModSample_cases b s with ⟨-, e⟩ | ⟨hready, -⟩
  · exact e
  · cases hidle.symm.trans hready

/-- In READY a sample looks up the phase as it is and then advances MOD's registers (R205, R207). -/
theorem exec_modSample_of_ready {s : State} (hready : s.regs.modReady = true) (b : Bool) :
    exec (.modSample b) s =
      .next (respond (modResponse (ctRead s (cosIndex s.params s.regs.modPhase)) s.regs.needBit)
        (s.setRegs (modAdvance b s.regs))) := by
  rcases execModSample_cases b s with ⟨hidle, -⟩ | ⟨-, e⟩
  · cases hready.symm.trans hidle
  · exact e

/-- The carry as the comparison of R19. -/
theorem sumCarry_eq_decide (a b : Word) : sumCarry a b = decide (2 ^ 32 ≤ a.toNat + b.toNat) := by
  rw [Bool.eq_iff_iff, sumCarry_iff, decide_eq_true_iff]

/-- Both accumulators after a sample, by their exact sums (R208, R209). -/
theorem modAdvance_eq_ofNat (b : Bool) (r : Regs) :
    modAdvance b r =
      { r with
        curBit := polledBit b r
        needBit := decide (2 ^ 32 ≤ r.modBaud.toNat + r.modBaudInc.toNat)
        modPhase := BitVec.ofNat 32 (r.modPhase.toNat + (toneIncrement (polledBit b r) r).toNat)
        modBaud := BitVec.ofNat 32 (r.modBaud.toNat + r.modBaudInc.toNat) } := by
  simp only [modAdvance_eq, sumCarry_eq_decide, word_add_eq]

/-- Settles O32: the response and both accumulators, as numbers. -/
theorem modSamplePollsLooksUpAndAdvances : Obligations.ModSamplePollsLooksUpAndAdvances := by
  intro s b
  refine ⟨fun hidle => exec_modSample_of_idle hidle b, fun hready => ?_,
    carriedBy_of_instrOfOpcode s fun w hop (hbit : bitField w = b) => ?_, refusesReserved_of_any_opcode _ s⟩
  · rw [exec_modSample_of_ready hready, respond_eq, modResponse_toNat, modAdvance_eq_ofNat]
    rfl
  · simp only [instrOfOpcode, hop, hbit]

/-! ### The samples of a session -/

/-- One more increment modulo 2^32. -/
theorem ofNat_increments_succ (x n : Nat) (a : Word) :
    BitVec.ofNat 32 (x + n * a.toNat) + a = BitVec.ofNat 32 (x + (n + 1) * a.toNat) := by
  rw [Nat.succ_mul, ← Nat.add_assoc, BitVec.ofNat_add _ (BitVec.toNat _), BitVec.ofNat_toNat, BitVec.setWidth_eq]

/-- An increment carries out of the sum modulo 2^32 exactly when the exact sum reaches a new multiple of 2^32. -/
theorem sumCarry_ofNat_iff (x : Nat) (a : Word) :
    sumCarry (BitVec.ofNat 32 x) a = true ↔ x / 2 ^ 32 < (x + a.toNat) / 2 ^ 32 := by
  have ha := a.isLt
  rw [sumCarry_iff, BitVec.toNat_ofNat]
  omega

/-- With equal tone increments the bit sent does not matter (R208). -/
theorem toneIncrement_of_equal {r : Regs} (h : r.modIncLo = r.modIncHi) (bit : Bool) :
    toneIncrement bit r = r.modIncLo := by
  rw [toneIncrement, ← h, ite_self]

/-- `n` samples of a session have led from its start `s` to `t`. -/
structure ModRun (s : State) (n : Nat) (t : State) : Prop where
  ready : t.regs.modReady = true
  config : ModConfigKept s t
  baud : t.regs.modBaud = BitVec.ofNat 32 (n * s.regs.modBaudInc.toNat)
  polls : t.regs.needBit = true ↔
    n = 0 ∨ (n - 1) * s.regs.modBaudInc.toNat / 2 ^ 32 < n * s.regs.modBaudInc.toNat / 2 ^ 32
  phase : s.regs.modIncLo = s.regs.modIncHi →
    t.regs.modPhase = BitVec.ofNat 32 (s.regs.modPhase.toNat + n * s.regs.modIncLo.toNat)

theorem ModRun.start {s : State} (hready : s.regs.modReady = true) (hbaud : s.regs.modBaud = 0#32)
    (hneed : s.regs.needBit = true) : ModRun s 0 s where
  ready := hready
  config := ⟨rfl, rfl, rfl, rfl⟩
  baud := by rw [hbaud, Nat.zero_mul]
  polls := iff_of_true hneed (.inl rfl)
  phase _ := by rw [Nat.zero_mul, Nat.add_zero, BitVec.ofNat_toNat, BitVec.setWidth_eq]

/-- One more sample, whatever its bit. -/
theorem ModRun.succ {s t : State} {n : Nat} (h : ModRun s n t) (b : Bool) :
    ∃ u, exec (.modSample b) t = .next u ∧ ModRun s (n + 1) u := by
  obtain ⟨hlo, hhi, hinc, hct⟩ := h.config
  refine ⟨_, exec_modSample_of_ready h.ready b, ?_⟩
  rw [modAdvance_eq]
  exact {
    ready := h.ready
    config := h.config
    baud := by
      simpa only [respond_regs, setRegs_regs, h.baud, hinc, Nat.zero_add] using
        ofNat_increments_succ 0 n s.regs.modBaudInc
    polls := by
      simp only [respond_regs, setRegs_regs, h.baud, hinc, sumCarry_ofNat_iff, ← Nat.succ_mul, Nat.add_sub_cancel,
        Nat.add_eq_zero_iff, one_ne_zero, and_false, false_or]
    phase := fun heq => by
      have htone : t.regs.modIncLo = t.regs.modIncHi := by rw [hlo, hhi, heq]
      simp only [respond_regs, setRegs_regs, toneIncrement_of_equal htone, h.phase heq, hlo, ofNat_increments_succ] }

/-- The samples of a session are all answered. -/
theorem runCommands_modSamples {s : State} (h : ModRun s 0 s) (bits : List Bool) :
    ∃ t, runCommands (bits.map .modSample) s = .next t ∧ ModRun s bits.length t := by
  induction bits using List.reverseRecOn with
  | nil => exact ⟨s, rfl, h⟩
  | append_singleton bits b ih =>
    obtain ⟨t, hrun, ht⟩ := ih
    obtain ⟨u, hexec, hu⟩ := ht.succ b
    refine ⟨u, ?_, by rwa [List.length_append]⟩
    rw [List.map_append]
    exact runCommands_concat hrun hexec

/-- Settles O33: after `n` samples the baud fraction is `n` increments, so the `n`-th carried exactly when their exact
sum reached a new multiple of 2^32. -/
theorem modPollsOncePerBaudPeriod : Obligations.ModPollsOncePerBaudPeriod := by
  intro s bits hready hbaud hneed
  obtain ⟨t, hrun, ht⟩ := runCommands_modSamples (.start hready hbaud hneed) bits
  exact ⟨t, hrun, ht.baud, ht.polls, ht.phase⟩

/-! ### What the units share -/

/-- `t` is `s` but for MOD's own registers, the error record and the response (R200). -/
abbrev OnlyModChanged (s t : State) : Prop :=
  t = { s with
    regs := { s.regs with
      sticky := t.regs.sticky, lastErrCode := t.regs.lastErrCode, lastErrOp := t.regs.lastErrOp
      modReady := t.regs.modReady, modPhase := t.regs.modPhase, modBaud := t.regs.modBaud
      curBit := t.regs.curBit, needBit := t.regs.needBit }
    response := t.response }

/-- CT and every register of MOD are the same in `u` as in `s` (R200). -/
abbrev ModUntouched (s u : State) : Prop :=
  u.ct = s.ct ∧ u.regs.modReady = s.regs.modReady ∧ u.regs.modIncLo = s.regs.modIncLo ∧
    u.regs.modIncHi = s.regs.modIncHi ∧ u.regs.modBaudInc = s.regs.modBaudInc ∧
    u.regs.modPhase = s.regs.modPhase ∧ u.regs.modBaud = s.regs.modBaud ∧ u.regs.curBit = s.regs.curBit ∧
    u.regs.needBit = s.regs.needBit

theorem pushBit_leaves_mod (b : Bool) (s : State) : ModUntouched s (pushBit b s).state := by
  obtain ⟨n, k, hregs⟩ := pushBit_regs b s
  simp only [ModUntouched, pushBit_ct, hregs, and_self]

/-- What a command to MOD that passes its check changes. -/
theorem completes_onlyModChanged {i : Instr} {s u : State} {d : Word} (h : completes s d u i)
    (hi : opcode i ∈ [0x30#8, 0x31#8, 0x32#8]) : OnlyModChanged s (respond d u) := by
  cases i with
  | modInit => obtain ⟨-, -, rfl⟩ := h; rfl
  | modHalt => obtain ⟨-, rfl⟩ := h; rfl
  | modSample b => obtain ⟨-, -, rfl⟩ := h; rfl
  | _ => exact absurd hi (by simp [opcode])

/-- A command to DEM that passes its check, a chained sample's push included, leaves MOD. -/
theorem completes_dem_leaves_mod {i : Instr} {s u : State} {d : Word} (h : completes s d u i)
    (hi : opcode i ∈ [0x20#8, 0x21#8, 0x22#8]) : ModUntouched s u := by
  cases i with
  | demInit => obtain ⟨-, -, rfl⟩ := h; exact ⟨rfl, rfl, rfl, rfl, rfl, rfl, rfl, rfl, rfl⟩
  | demHalt => obtain ⟨-, rfl⟩ := h; exact ⟨rfl, rfl, rfl, rfl, rfl, rfl, rfl, rfl, rfl⟩
  | demSample v =>
    obtain ⟨-, -, ⟨-, -, rfl⟩ | ⟨-, -, -, -, rfl⟩⟩ := h
    · exact ⟨rfl, rfl, rfl, rfl, rfl, rfl, rfl, rfl, rfl⟩
    · exact pushBit_leaves_mod (demodulate v s).dec (demodulate v s).state
  | _ => exact absurd hi (by simp [opcode])

/-- Settles O47: a fault writes the error record only. -/
theorem unitsShareNoState : Obligations.UnitsShareNoState := by
  intro i s t he
  rcases exec_outcomes he with ⟨c, -, rfl⟩ | ⟨d, u, hc, rfl⟩
  · exact ⟨fun _ => rfl, fun _ => ⟨rfl, rfl, rfl, rfl, rfl, rfl, rfl, rfl, rfl⟩⟩
  · refine ⟨completes_onlyModChanged hc, fun hi => ?_⟩
    simpa only [ModUntouched, respond_ct, respond_regs] using completes_dem_leaves_mod hc hi

end Sys2Proof.Machine
end

section
/-! The framer apart from `FRM.BIT`: the commands `FRM.CLEAR` and `FRM.RD`, the striping and the hash check
(spec/44_framer.md R225, R227, R240, R245, R246, R252). -/

namespace Sys2Proof.Machine

open Sys2Proof

/-! ### `FRM.CLEAR` and `FRM.RD` -/

theorem pbufIndexLegal_eq_false_iff (p : Params) (i : BitVec 16) :
    pbufIndexLegal p i = false ↔ p.pktMax ≤ i.toNat := by
  simp only [pbufIndexLegal, decide_eq_false_iff_not, not_lt]

/-- `FRM.RD`: the index, then the read (R227, R273). -/
theorem exec_frmRd_eq (i : BitVec 16) (s : State) :
    exec (.frmRd i) s =
      if s.params.pktMax ≤ i.toNat then .next (faultRecorded 2 0x42#8 s)
      else .next (respond (zext8 (pbufRead s i.toNat)) s) := by
  simp only [← pbufIndexLegal_eq_false_iff]
  rcases execFrmRd_cases i s with ⟨hout, e⟩ | ⟨hin, e⟩
  · rw [if_pos hout]
    exact e
  · rw [if_neg (ne_false_of_eq_true hin)]
    exact e

/-- Settles O34: `FRM.CLEAR` checks nothing and looks at no field of its word but `op` and `rsv`. -/
theorem frmClearDropsThePartialPacket : Obligations.FrmClearDropsThePartialPacket := by
  intro s
  have hexec : exec .frmClear s = .next (respond 0#32 (setPosition 0#16 0#3 s)) := rfl
  refine ⟨hexec.trans (congrArg _ (respond_eq _ _)), carriedBy_of_opcode s fun w hop => ?_,
    refusesReserved_of_any_opcode _ s⟩
  simp only [instrOfOpcode, hop]

/-- Settles O35: the only check of `FRM.RD` is that of the index, and the read changes the response only. -/
theorem frmRdReadsOneByte : Obligations.FrmRdReadsOneByte := by
  intro s i
  refine ⟨fun hout => ?_, fun hin => ?_, ?_, refusesReserved_of_any_opcode _ s⟩
  · rw [exec_frmRd_eq, if_pos hout]
  · rw [exec_frmRd_eq, if_neg hin.not_ge, respond_eq, zext8_toNat]
  · refine carriedBy_of_instrOfOpcode s fun w hop (hindex : idxField w = i) => ?_
    simp only [instrOfOpcode, hop, hindex]

/-! ### The striping -/

/-- The pattern of a version, byte by byte (R245). -/
theorem stripedValue_eq (version : Byte) (i : Nat) (v : Byte) :
    stripedValue version i v =
      if version = 1#8 then
        if i % 16 = 7 then v ^^^ 0x55#8 else if i % 16 = 15 then v ^^^ 0xAA#8 else v
      else if version = 2#8 then
        if i % 3 = 0 then v ^^^ 0x35#8 else if i % 3 = 1 then v ^^^ 0xAC#8 else v ^^^ 0x95#8
      else v := by
  unfold stripedValue stripeMask
  split_ifs <;> rfl

/-- Settles O40: the striping changes PBUF only, and in it the bytes of its span by the version's pattern. -/
theorem stripeXorsTheVersionsPattern : Obligations.StripeXorsTheVersionsPattern := by
  intro s version lo n
  refine ⟨stripe_frame version lo n s, fun i => ?_⟩
  rw [pbufRead_stripe, stripedValue_eq]

/-- Settles O41: a byte of the span is XORed twice with one mask, every other byte is never touched. -/
theorem stripeTwiceYieldsTheOriginal : Obligations.StripeTwiceYieldsTheOriginal := by
  intro s version lo n i
  rw [pbufRead_stripe, pbufRead_stripe]
  by_cases hspan : lo ≤ i ∧ i < lo + n
  · rw [if_pos hspan, if_pos hspan, stripedValue_involutive]
  · rw [if_neg hspan, if_neg hspan]

/-! ### The trailing hash field -/

/-- Two states with the same seed and the same first `n` bytes hash those bytes alike. -/
theorem hash32_congr {s u : State} {n : Nat} (hseed : u.params.hashSeed = s.params.hashSeed)
    (hbody : ∀ i, i < n → pbufRead u i = pbufRead s i) :
    hash32 (pbufBytes u 0 n) u.params.hashSeed = hash32 (pbufBytes s 0 n) s.params.hashSeed := by
  have hbytes : pbufBytes u 0 n = pbufBytes s 0 n :=
    List.map_congr_left fun k hk => hbody (0 + k) (by rw [Nat.zero_add]; exact List.mem_range.1 hk)
  rw [hseed, hbytes]

/-- Settles O42: equal bytes before the field give equal hashes, and the four bytes of the field that equals the hash
are determined by it. -/
theorem trailingHashFlipAlwaysFails : Obligations.TrailingHashFlipAlwaysFails := by
  intro s u n hn hseed hbody hvalid ⟨i, hlo, hhi, hflip⟩
  rw [Bool.eq_false_iff]
  intro hvalid'
  have hword : pbufWord u (n - 4) = pbufWord s (n - 4) := by
    have hu := beq_iff_eq.1 hvalid'
    have hs := beq_iff_eq.1 hvalid
    rw [← hu, ← hs, hash32_congr hseed hbody]
  obtain ⟨h0, h1, h2, h3⟩ := le32_inj hword
  have hi : i = n - 4 ∨ i = n - 4 + 1 ∨ i = n - 4 + 2 ∨ i = n - 4 + 3 := by omega
  rcases hi with rfl | rfl | rfl | rfl
  · exact hflip h0
  · exact hflip h1
  · exact hflip h2
  · exact hflip h3

end Sys2Proof.Machine
end

section
/-! `FRM.BIT`: the bit that is only stored, and the bit that completes a candidate of each type
(spec/44_framer.md R221, R226, R240 to R247). -/

namespace Sys2Proof.Machine

open Sys2Proof

/-! ### Whether a bit completes a candidate -/

/-- The framer's position, counted in bits from the start of PBUF (R61). -/
abbrev bitPosition (s : State) : Nat := 8 * s.regs.byteOff.toNat + s.regs.bitOff.toNat

/-- The bit fills a byte behind which the candidate, its header being in, has its length (R221). -/
abbrev BitCompletes (b : Bool) (s : State) : Prop :=
  s.regs.bitOff.toNat = 7 ∧ 1 ≤ s.regs.byteOff.toNat ∧
    target s.params (pbufRead (bitStored b s) 1) ≤ s.regs.byteOff.toNat + 1

/-- `t` is `s` with the bit stored at the position, the position one bit further, and the answer `OK` 0. -/
structure BitAccepted (b : Bool) (s t : State) : Prop where
  frame : t = { s with
    pbuf := t.pbuf
    regs := { s.regs with byteOff := t.regs.byteOff, bitOff := t.regs.bitOff }
    response := okWith 0 }
  position : bitPosition t = bitPosition s + 1
  memoryWf : Memory.wf t
  bits : ∀ i k, k < 8 → (pbufRead t i).getLsbD k =
    if i = s.regs.byteOff.toNat ∧ k = s.regs.bitOff.toNat then b else (pbufRead s i).getLsbD k

/-- The state with the bit stored and the position one bit further. -/
theorem bitAccepted_of_position {s : State} {n : BitVec 16} {k : BitVec 3} (b : Bool) (hw : Memory.wf s)
    (hpos : s.regs.byteOff.toNat < s.params.pktMax) (h : 8 * n.toNat + k.toNat = bitPosition s + 1) :
    BitAccepted b s (respond 0#32 (setPosition n k (bitStored b s))) where
  frame := rfl
  position := h
  memoryWf := pbufWriteBit_wf hw b s.regs.bitOff.isLt hpos
  bits _ _ hk := pbufRead_bitStored b hw hk

/-- `t` is `s` after the bit that completes a candidate of type `ty`, which was validated with the outcome `v`: the
position is 0 and the answer is the result (R228). -/
structure CandidateCompleted (ty : Byte) (v : Validated) (s t : State) : Prop where
  frame : t = { s with
    pbuf := t.pbuf
    regs := { s.regs with byteOff := 0#16, bitOff := 0#3 }
    response := okWith (2 ^ 8 + 2 ^ 9 * v.valid.toNat + 2 ^ 10 * ty.toNat) }
  memoryWf : Memory.wf t
  samePbuf : SamePbuf v.state t

/-- The return to position 0 and the answer, after a validation that changed PBUF only. -/
theorem candidateCompleted_of_validated {s : State} {v : Validated} (ty : Byte)
    (hframe : v.state = { s with pbuf := v.state.pbuf }) (hw : Memory.wf v.state) :
    CandidateCompleted ty v s (respond (packetResult ty v.valid) (setPosition 0#16 0#3 v.state)) where
  frame := by
    rw [respond_eq, packetResult_toNat]
    simp only [setPosition, State.setRegs]
    rw [hframe]
  memoryWf := hw
  samePbuf := ⟨rfl, rfl, rfl⟩

section
variable {s : State} {b : Bool} (hw : Memory.wf s) (hp : s.params.Legal)
  (hpos : s.regs.byteOff.toNat < s.params.pktMax)
include hw hp hpos

/-- A bit that completes no candidate is stored, and nothing else happens (R221). -/
theorem exec_frmBit_of_not_completes (h : ¬ BitCompletes b s) :
    ∃ t, exec (.frmBit b) s = .next t ∧ BitAccepted b s t := by
  have haccepted (n k) := bitAccepted_of_position (n := n) (k := k) b hw hpos
  have hsucc := byteOff_succ hp hpos
  refine ⟨_, exec_frmBit b hpos, ?_⟩
  rcases pushBit_cases b s with ⟨hlt, e⟩ | ⟨h7, -, e⟩ | ⟨h7, htwo, htarget, -⟩
  · rw [e]
    refine haccepted _ _ ?_
    rw [BitVec.toNat_add, BitVec.toNat_ofNat]
    simp only [bitPosition]
    omega
  · rw [e]
    refine haccepted _ _ ?_
    rw [hsucc, BitVec.toNat_ofNat]
    simp only [bitPosition]
    omega
  · exact absurd ⟨h7, by omega, by omega⟩ h

/-- A bit that completes a candidate is answered with the result of its validation (R221, R228). -/
theorem exec_frmBit_of_completes {ty : Byte} (hty : pbufRead (bitStored b s) 1 = ty) (h : BitCompletes b s) :
    ∃ t, exec (.frmBit b) s = .next t ∧
      CandidateCompleted ty (validate (target s.params ty) (bitStored b s)) s t := by
  subst hty
  obtain ⟨h7, hone, htarget⟩ := h
  have hsucc := byteOff_succ hp hpos
  rcases pushBit_cases b s with ⟨hlt, -⟩ | ⟨-, hbelow, -⟩ | ⟨-, -, -, e⟩
  · omega
  · omega
  · refine ⟨_, exec_frmBit b hpos, ?_⟩
    rw [e]
    exact candidateCompleted_of_validated _ (validate_frame _ (bitStored b s))
      (validate_wf _ (pbufWriteBit_wf hw b s.regs.bitOff.isLt hpos))

end

/-- Settles O36: with its type byte known, such a bit completes no candidate. -/
theorem frmBitStoresOneBit : Obligations.FrmBitStoresOneBit := by
  refine ⟨fun s b => ⟨carriedBy_of_instrOfOpcode s fun w hop (hbit : bitField w = b) => ?_,
    refusesReserved_of_any_opcode _ s⟩, fun s b ty hw hp hpos hty hopen => ?_⟩
  · simp only [instrOfOpcode, hop, hbit]
  · have htype : pbufRead (bitStored b s) 1 = ty := byte_ext fun k hk => by
      rw [pbufRead_bitStored b hw hk, hty k hk]
      simp only [eq_comm]
    obtain ⟨t, hexec, ht⟩ := exec_frmBit_of_not_completes (b := b) hw hp hpos (by
      rintro ⟨h7, hone, htarget⟩
      rw [htype] at htarget
      omega)
    exact ⟨t, hexec, ht.frame, ht.position, ht.bits⟩

/-! ### A candidate of each type -/

theorem target_of_control (p : Params) : target p 1#8 = 31 := rfl

theorem target_of_data (p : Params) : target p 2#8 = 10 + p.payloadLen := rfl

theorem target_of_unknown (p : Params) {ty : Byte} (h1 : ty ≠ 1#8) (h2 : ty ≠ 2#8) : target p ty = 2 := by
  rw [target, if_neg (show ty ≠ Config.tagCtrl from h1), if_neg (show ty ≠ Config.tagData from h2)]

/-- PBUF holds a header. -/
theorem two_le_pktMax (p : Params) : 2 ≤ p.pktMax := (two_le_target p 0#8).trans (target_le_pktMax p 0#8)

/-- A control packet is checked as received (R242). -/
theorem validate_of_control {s : State} (n : Nat) (h : pbufRead s 1 = 1#8) :
    validate n s = { state := s, valid := hashMatches s n } := if_pos h

/-- A data packet is un-striped and then checked (R243). -/
theorem validate_of_data {s : State} (n : Nat) (h : pbufRead s 1 = 2#8) :
    validate n s =
      { state := stripe (pbufRead s 0) 2 (n - 4 - 2) s
        valid := hashMatches (stripe (pbufRead s 0) 2 (n - 4 - 2) s) n } := by
  have h1 : pbufRead s 1 ≠ Config.tagCtrl := by rw [h]; decide
  exact (if_neg h1).trans (if_pos h)

/-- A candidate of an unknown type is invalid as it stands (R241). -/
theorem validate_of_unknown {s : State} (n : Nat) (h1 : pbufRead s 1 ≠ 1#8) (h2 : pbufRead s 1 ≠ 2#8) :
    validate n s = { state := s, valid := false } := (if_neg h1).trans (if_neg h2)

/-- A bit stored outside a byte leaves the byte. -/
theorem pbufRead_bitStored_other {s : State} (b : Bool) (hw : Memory.wf s) {i : Nat} (h : i ≠ s.regs.byteOff.toNat) :
    pbufRead (bitStored b s) i = pbufRead s i := by
  rw [pbufRead_pbufWriteBit _ _ _ s.regs.bitOff.isLt hw.2.2.2.2, if_neg h]

/-- The bit that completes a header of unknown type completes an invalid candidate (R241). -/
theorem exec_frmBit_of_unknown {s : State} {b : Bool} (hw : Memory.wf s) (hp : s.params.Legal)
    (hbyte : s.regs.byteOff = 1#16) (hbit : s.regs.bitOff = 7#3) (h1 : pbufRead (bitStored b s) 1 ≠ 1#8)
    (h2 : pbufRead (bitStored b s) 1 ≠ 2#8) :
    ∃ t, exec (.frmBit b) s = .next t ∧
      t = { s with
        pbuf := t.pbuf
        regs := { s.regs with byteOff := 0#16, bitOff := 0#3 }
        response := okWith (2 ^ 8 + 2 ^ 10 * (pbufRead (bitStored b s) 1).toNat) } ∧
      Memory.wf t ∧ ∀ i, pbufRead t i = pbufRead (bitStored b s) i := by
  have hpos : s.regs.byteOff.toNat < s.params.pktMax := by
    rw [hbyte]
    exact two_le_pktMax s.params
  obtain ⟨t, hexec, ht⟩ := exec_frmBit_of_completes (b := b) hw hp hpos rfl
    ⟨by rw [hbit]; rfl, by rw [hbyte]; decide, by rw [target_of_unknown _ h1 h2, hbyte]; decide⟩
  rw [validate_of_unknown _ h1 h2] at ht
  exact ⟨t, hexec, ht.frame, ht.memoryWf, pbufRead_congr ht.samePbuf⟩

/-- Settles O37: the pushed bit is the type byte's last. -/
theorem unknownTypeIsRejectedAtTheHeader : Obligations.UnknownTypeIsRejectedAtTheHeader := by
  intro s b ty hw hp hbyte hbit h1 h2 hty
  have htype : pbufRead (bitStored b s) 1 = ty := byte_ext fun k hk => by
    rw [pbufRead_bitStored b hw hk, hty k hk, hbyte, hbit]
    simp
  obtain ⟨t, hexec, hframe, -, hread⟩ :=
    exec_frmBit_of_unknown (b := b) hw hp hbyte hbit (by rwa [htype]) (by rwa [htype])
  rw [htype] at hframe
  refine ⟨t, hexec, hframe, fun i => ?_⟩
  rw [hread i]
  split
  next hi => rw [hi]; exact htype
  next hi => exact pbufRead_bitStored_other b hw (by rw [hbyte]; exact hi)

/-- The answer for a candidate of `n` bytes whose hash was checked, by the comparison of R251 on PBUF as it is left. -/
theorem CandidateCompleted.checked {ty : Byte} {s t u : State} {n : Nat} (hn : 4 ≤ n)
    (h : CandidateCompleted ty { state := u, valid := hashMatches u n } s t) :
    t = { s with
      pbuf := t.pbuf
      regs := { s.regs with byteOff := 0#16, bitOff := 0#3 }
      response := okWith (2 ^ 8 +
        (if (hash32 ((List.range (n - 4)).map (pbufRead t)) s.params.hashSeed).toNat =
            (pbufRead t (n - 4)).toNat + 2 ^ 8 * (pbufRead t (n - 3)).toNat + 2 ^ 16 * (pbufRead t (n - 2)).toNat +
              2 ^ 24 * (pbufRead t (n - 1)).toNat
          then 2 ^ 9 else 0) + 2 ^ 10 * ty.toNat) } := by
  have hparams : t.params = s.params := by rw [h.frame]
  have hiff := hashMatches_iff t n
  rw [hparams, hashMatches_congr h.samePbuf, show n - 4 + 1 = n - 3 by omega, show n - 4 + 2 = n - 2 by omega,
    show n - 4 + 3 = n - 1 by omega] at hiff
  have hbit : 2 ^ 9 * (hashMatches u n).toNat = if hashMatches u n = true then 2 ^ 9 else 0 := by
    cases hashMatches u n <;> rfl
  simp only [← hiff, ← hbit]
  exact h.frame

/-- Settles O38: the length of a control packet is reached, and the check reads PBUF as the bit leaves it. -/
theorem controlPacketIsCheckedAsReceived : Obligations.ControlPacketIsCheckedAsReceived := by
  intro s b hw hp hbyte hbit hty
  have hoff : s.regs.byteOff.toNat = 30 := by rw [hbyte]; rfl
  have hbit7 : s.regs.bitOff.toNat = 7 := by rw [hbit]; rfl
  have htype : pbufRead (bitStored b s) 1 = 1#8 := (pbufRead_bitStored_other b hw (by omega)).trans hty
  have htarget := target_of_control s.params
  have hmax := target_le_pktMax s.params 1#8
  obtain ⟨t, hexec, ht⟩ := exec_frmBit_of_completes hw hp (by omega) htype ⟨hbit7, by omega, by rw [htype]; omega⟩
  rw [htarget, validate_of_control 31 htype] at ht
  refine ⟨t, hexec, fun i k hk => ?_, ?_⟩
  · rw [pbufRead_congr ht.samePbuf, pbufRead_bitStored b hw hk, hoff, hbit7]
  · have hchecked := ht.checked (by decide)
    rw [show 2 ^ 10 * (1#8).toNat = 2 ^ 10 from rfl] at hchecked
    exact hchecked

/-- The striping of a byte, bit by bit (R245). -/
theorem stripedValue_getLsbD (version : Byte) (i k : Nat) (v : Byte) :
    (stripedValue version i v).getLsbD k = (v.getLsbD k ^^ ((stripeMask version i).getD 0#8).getLsbD k) := by
  unfold stripedValue
  cases stripeMask version i <;> simp

/-- Settles O39: the length of a data packet is reached, its version and type bytes lie before the last bit, and the
check reads PBUF as the un-striping leaves it. -/
theorem dataPacketIsUnstripedThenChecked : Obligations.DataPacketIsUnstripedThenChecked := by
  intro s b hw hp hoff hbit hty n mask
  have hbit7 : s.regs.bitOff.toNat = 7 := by rw [hbit]; rfl
  have htype : pbufRead (bitStored b s) 1 = 2#8 := (pbufRead_bitStored_other b hw (by omega)).trans hty
  have hversion : pbufRead (bitStored b s) 0 = pbufRead s 0 := pbufRead_bitStored_other b hw (by omega)
  have htarget : target s.params 2#8 = n := target_of_data s.params
  have hmax := target_le_pktMax s.params 2#8
  obtain ⟨t, hexec, ht⟩ := exec_frmBit_of_completes hw hp (by omega) htype ⟨hbit7, by omega, by rw [htype]; omega⟩
  rw [htarget, validate_of_data n htype, hversion] at ht
  refine ⟨t, hexec, fun i k hk => ?_, ?_⟩
  · have hmask : mask i = (stripeMask (pbufRead s 0) i).getD 0#8 := by
      simp only [mask, stripeMask]
      split_ifs <;> rfl
    have hspan : 2 ≤ i ∧ i < 2 + (n - 4 - 2) ↔ 2 ≤ i ∧ i < n - 4 := by omega
    rw [pbufRead_congr ht.samePbuf, pbufRead_stripe, hmask, ← hbit7, ← pbufRead_bitStored b hw hk]
    simp only [hspan]
    split
    · exact stripedValue_getLsbD _ _ _ _
    · rw [Bool.xor_false]
  · have hchecked := ht.checked (by omega)
    rw [show 2 ^ 10 * (2#8).toNat = 2 ^ 11 from rfl] at hchecked
    exact hchecked

end Sys2Proof.Machine
end

section
/-! Sequences of `FRM.BIT`: the accumulation from position 0, the end of every candidate, the stream of equal bits
(spec/44_framer.md R221, R257, R258). -/

namespace Sys2Proof.Machine

open Sys2Proof

/-- A bit that completes a candidate is the last of a byte behind the first, so at position 15 or later (R221). -/
theorem BitCompletes.position {b : Bool} {s : State} (h : BitCompletes b s) :
    15 ≤ bitPosition s ∧ bitPosition s % 8 = 7 := by
  obtain ⟨h7, hone, -⟩ := h
  simp only [bitPosition]
  omega

/-- Byte and bit are the framer's position exactly when they count as many bits. -/
theorem at_position_iff (s : State) {i k : Nat} (hk : k < 8) :
    i = s.regs.byteOff.toNat ∧ k = s.regs.bitOff.toNat ↔ 8 * i + k = bitPosition s := by
  have := s.regs.bitOff.isLt
  simp only [bitPosition]
  omega

/-- At position 0 both parts of the position are 0. -/
theorem bitPosition_eq_zero {s : State} (hbyte : s.regs.byteOff = 0#16) (hbit : s.regs.bitOff = 0#3) :
    bitPosition s = 0 := by
  simp only [bitPosition, hbyte, hbit]
  rfl

/-! ### The accumulation from position 0 -/

/-- `t` is `s`, which is at position 0, with `bits` accumulated. -/
structure Accumulated (s : State) (bits : List Bool) (t : State) : Prop where
  params : t.params = s.params
  memoryWf : Memory.wf t
  position : bitPosition t = bits.length
  stored : ∀ i k, k < 8 → (pbufRead t i).getLsbD k =
    if 8 * i + k < bits.length then bits.getD (8 * i + k) false else (pbufRead s i).getLsbD k
  answer : 0 < bits.length → t.response = okWith 0

/-- The next bit joins those accumulated. -/
theorem Accumulated.stored_concat {s t : State} {bits : List Bool} (h : Accumulated s bits t) (b : Bool) {i k : Nat}
    (hk : k < 8) : (pbufRead (bitStored b t) i).getLsbD k =
      if 8 * i + k < (bits ++ [b]).length then (bits ++ [b]).getD (8 * i + k) false
      else (pbufRead s i).getLsbD k := by
  rw [pbufRead_bitStored b h.memoryWf hk, h.stored i k hk, List.length_append, List.length_singleton]
  simp only [at_position_iff t hk, h.position]
  rcases Nat.lt_trichotomy (8 * i + k) bits.length with hlt | heq | hgt
  · rw [if_neg hlt.ne, if_pos hlt, if_pos (by omega), List.getD_append _ _ _ _ hlt]
  · rw [if_pos heq, if_pos (by omega), heq, List.getD_append_right _ _ _ _ le_rfl, Nat.sub_self]
    rfl
  · rw [if_neg hgt.ne', if_neg (by omega), if_neg (by omega)]

/-- One more bit that completes no candidate. -/
theorem Accumulated.concat {s t : State} {bits : List Bool} {b : Bool} (h : Accumulated s bits t)
    (hp : s.params.Legal) (hpos : t.regs.byteOff.toNat < t.params.pktMax) (hopen : ¬ BitCompletes b t) :
    ∃ u, exec (.frmBit b) t = .next u ∧ Accumulated s (bits ++ [b]) u := by
  obtain ⟨u, hexec, hu⟩ := exec_frmBit_of_not_completes h.memoryWf (h.params ▸ hp) hpos hopen
  refine ⟨u, hexec, ?_⟩
  exact {
    params := by rw [hu.frame, ← h.params]
    memoryWf := hu.memoryWf
    position := by rw [hu.position, h.position, List.length_append, List.length_singleton]
    stored := fun i k hk => by rw [hu.bits i k hk, ← pbufRead_bitStored b h.memoryWf hk, h.stored_concat b hk]
    answer := fun _ => by rw [hu.frame] }

/-- `bits` from position 0 complete no candidate: the header is not in, or the length it gives is not reached. -/
abbrev StaysOpen (p : Params) (bits : List Bool) : Prop :=
  bits.length < 16 ∨ ∃ ty : Byte, (∀ k, k < 8 → ty.getLsbD k = bits.getD (8 + k) false) ∧ bits.length < 8 * target p ty

/-- What stays open with one more bit was open without it. -/
theorem StaysOpen.of_concat {p : Params} {bits : List Bool} {b : Bool} (h : StaysOpen p (bits ++ [b])) :
    StaysOpen p bits := by
  simp only [StaysOpen, List.length_append, List.length_singleton] at h ⊢
  rcases h with hshort | ⟨ty, hty, hlt⟩
  · left
    omega
  · by_cases hheader : bits.length < 16
    · exact .inl hheader
    · refine .inr ⟨ty, fun k hk => ?_, by omega⟩
      rw [hty k hk, List.getD_append _ _ _ _ (by omega)]

/-- The last bit of bits that stay open completes no candidate. -/
theorem StaysOpen.not_completes {s t : State} {bits : List Bool} {b : Bool} (h : StaysOpen s.params (bits ++ [b]))
    (ht : Accumulated s bits t) : ¬ BitCompletes b t := by
  intro hcompletes
  obtain ⟨hfifteen, -⟩ := hcompletes.position
  rw [ht.position] at hfifteen
  rcases h with hshort | ⟨ty, hty, hlt⟩
  · rw [List.length_append, List.length_singleton] at hshort
    omega
  · have htype : pbufRead (bitStored b t) 1 = ty := byte_ext fun k hk => by
      rw [ht.stored_concat b hk, if_pos (by rw [List.length_append, List.length_singleton]; omega), hty k hk]
    obtain ⟨h7, -, htarget⟩ := hcompletes
    have hposition := ht.position
    rw [htype, ht.params] at htarget
    rw [List.length_append, List.length_singleton] at hlt
    simp only [bitPosition] at hposition
    omega

/-- Bits that stay open are inside PBUF. -/
theorem StaysOpen.inside {p : Params} {bits : List Bool} (h : StaysOpen p bits) : bits.length < 8 * p.pktMax := by
  have := two_le_pktMax p
  rcases h with hshort | ⟨ty, -, hlt⟩
  · omega
  · have := target_le_pktMax p ty
    omega

/-- Bits that stay open are all accumulated. -/
theorem runCommands_frmBits {s : State} (bits : List Bool) (h : Accumulated s [] s) (hp : s.params.Legal)
    (hopen : StaysOpen s.params bits) :
    ∃ t, runCommands (bits.map .frmBit) s = .next t ∧ Accumulated s bits t := by
  induction bits using List.reverseRecOn with
  | nil => exact ⟨s, rfl, h⟩
  | append_singleton bits b ih =>
    obtain ⟨t, hrun, ht⟩ := ih hopen.of_concat
    have hinside := hopen.of_concat.inside
    rw [← ht.position, ← ht.params, bitPosition] at hinside
    obtain ⟨u, hexec, hu⟩ := ht.concat hp (by omega) (hopen.not_completes ht)
    refine ⟨u, ?_, hu⟩
    rw [List.map_append]
    exact runCommands_concat hrun hexec

/-- Settles O43: by induction on the bits, none of which completes a candidate. -/
theorem accumulationStoresBitsInOrder : Obligations.AccumulationStoresBitsInOrder := by
  intro s bits ty hw hp hbyte hbit hty hopen
  have hstart : Accumulated s [] s := {
    params := rfl
    memoryWf := hw
    position := bitPosition_eq_zero hbyte hbit
    stored := fun i k _ => by simp
    answer := fun h => absurd h (Nat.lt_irrefl 0) }
  obtain ⟨t, hrun, ht⟩ := runCommands_frmBits bits hstart hp (hopen.imp_right fun hlt => ⟨ty, hty, hlt⟩)
  exact ⟨t, hrun, ht.position, ht.stored, ht.answer⟩

/-! ### The end of every candidate -/

/-- The answer for a completed candidate is `OK` with the result of the validation (R228). -/
theorem CandidateCompleted.response_eq {ty : Byte} {v : Validated} {s t : State} (h : CandidateCompleted ty v s t) :
    t.response = some { code := 0#8, data := packetResult ty v.valid } := by
  rw [h.frame, okWith, ← packetResult_toNat, BitVec.ofNat_toNat, BitVec.setWidth_eq]

/-- The result of a completed candidate has `pkt_done` set (R228). -/
theorem packetResult_pktDone (ty : Byte) (valid : Bool) : (packetResult ty valid).getLsbD 8 = true := by
  have hfields : packetResult ty valid = (0#14 ++ ty ++ BitVec.ofBool valid ++ 1#1) ++ 0#8 := rfl
  simp only [hfields, BitVec.getLsbD_append]
  simp

/-- Bits that would reach the end of PBUF contain one that completes a candidate: each bit before it moves the position
by one, and the position stays inside (R257). -/
theorem some_bit_completes (bits : List Bool) {s : State} (h : Invariant s)
    (hlong : 8 * s.params.pktMax ≤ bitPosition s + bits.length) :
    ∃ n u t ty v, n < bits.length ∧ runCommands ((bits.take (n + 1)).map .frmBit) s = .next t ∧
      CandidateCompleted ty v u t := by
  induction bits generalizing s with
  | nil =>
    have hbyte := h.byteOffInside
    have hbit := s.regs.bitOff.isLt
    simp only [bitPosition, List.length_nil] at hlong
    omega
  | cons b bits ih =>
    by_cases hcompletes : BitCompletes b s
    · obtain ⟨t, hexec, ht⟩ :=
        exec_frmBit_of_completes h.memoryWf h.paramsLegal h.byteOffInside rfl hcompletes
      refine ⟨0, s, t, _, _, Nat.zero_lt_succ _, ?_, ht⟩
      exact runCommands_cons [] hexec
    · obtain ⟨s', hexec, hs'⟩ := exec_frmBit_of_not_completes h.memoryWf h.paramsLegal h.byteOffInside hcompletes
      have hparams : s'.params = s.params := by rw [hs'.frame]
      rw [List.length_cons] at hlong
      obtain ⟨n, u, t, ty, v, hn, hrun, ht⟩ := ih (exec_keeps_invariant h hexec) (by
        rw [hparams, hs'.position]
        omega)
      refine ⟨n + 1, u, t, ty, v, Nat.succ_lt_succ hn, ?_, ht⟩
      rw [List.take_succ_cons, List.map_cons, runCommands_cons _ hexec]
      exact hrun

/-- Settles O45: the bit that completes a candidate is answered with `pkt_done` and returns the position to 0. -/
theorem everyCandidateTerminates : Obligations.EveryCandidateTerminates := by
  intro s bits h hlong
  obtain ⟨n, u, t, ty, v, hn, hrun, ht⟩ := some_bit_completes bits h (le_trans hlong (Nat.le_add_left _ _))
  refine ⟨n + 1, t, _, Nat.le_add_left _ _, hn, hrun, ht.response_eq, rfl, packetResult_pktDone ty v.valid, ?_, ?_⟩ <;>
    rw [ht.frame]

/-! ### A stream of equal bits -/

/-- The byte of eight equal bits. -/
def equalBits (b : Bool) : Byte := if b then 0xFF#8 else 0x00#8

theorem equalBits_getLsbD (b : Bool) {k : Nat} (hk : k < 8) : (equalBits b).getLsbD k = b := by
  have hall : ∀ b, ∀ k, k < 8 → (equalBits b).getLsbD k = b := by decide
  exact hall b k hk

theorem equalBits_unknown (b : Bool) : equalBits b ≠ 1#8 ∧ equalBits b ≠ 2#8 := by
  cases b <;> decide

/-- `n` equal bits have led to `t`: those since the last sixteenth stand at the start of PBUF. -/
structure EqualBitsPushed (b : Bool) (n : Nat) (t : State) : Prop where
  paramsLegal : t.params.Legal
  memoryWf : Memory.wf t
  position : bitPosition t = n % 16
  stored : ∀ i k, k < 8 → 8 * i + k < n % 16 → (pbufRead t i).getLsbD k = b
  answer : 0 < n → t.response = okWith (if n % 16 = 0 then (if b then 0x3FD00 else 0x100) else 0)

/-- A bit that is not a sixteenth one joins the header. -/
theorem EqualBitsPushed.succ_open {b : Bool} {n : Nat} {t : State} (h : EqualBitsPushed b n t) (hn : n % 16 < 15) :
    ∃ u, exec (.frmBit b) t = .next u ∧ EqualBitsPushed b (n + 1) u := by
  have hposition := h.position
  have htwo := two_le_pktMax t.params
  simp only [bitPosition] at hposition
  obtain ⟨u, hexec, hu⟩ := exec_frmBit_of_not_completes (b := b) h.memoryWf h.paramsLegal (by omega)
    fun hcompletes => by
      have := hcompletes.position.1
      rw [h.position] at this
      omega
  refine ⟨u, hexec, ?_⟩
  exact {
    paramsLegal := by rw [hu.frame]; exact h.paramsLegal
    memoryWf := hu.memoryWf
    position := by rw [hu.position, h.position]; omega
    stored := fun i k hk hlt => by
      rw [hu.bits i k hk]
      simp only [at_position_iff t hk, h.position]
      split
      · rfl
      · exact h.stored i k hk (by omega)
    answer := fun _ => by
      rw [hu.frame, if_neg (by omega)] }

/-- A sixteenth equal bit completes a header of type 0 or 0xFF. -/
theorem EqualBitsPushed.succ_header {b : Bool} {n : Nat} {t : State} (h : EqualBitsPushed b n t) (hn : n % 16 = 15) :
    ∃ u, exec (.frmBit b) t = .next u ∧ EqualBitsPushed b (n + 1) u := by
  have hposition := h.position
  have hlt := t.regs.bitOff.isLt
  simp only [bitPosition] at hposition
  have hbyte : t.regs.byteOff = 1#16 := BitVec.eq_of_toNat_eq (by rw [BitVec.toNat_ofNat]; omega)
  have hbit : t.regs.bitOff = 7#3 := BitVec.eq_of_toNat_eq (by rw [BitVec.toNat_ofNat]; omega)
  have htype : pbufRead (bitStored b t) 1 = equalBits b := byte_ext fun k hk => by
    rw [pbufRead_bitStored b h.memoryWf hk, equalBits_getLsbD b hk]
    simp only [at_position_iff t hk, h.position]
    split
    · rfl
    · exact h.stored 1 k hk (by omega)
  obtain ⟨hcontrol, hdata⟩ := htype ▸ equalBits_unknown b
  obtain ⟨u, hexec, hframe, hwf, -⟩ :=
    exec_frmBit_of_unknown h.memoryWf h.paramsLegal hbyte hbit hcontrol hdata
  have hzero : (n + 1) % 16 = 0 := by omega
  refine ⟨u, hexec, ?_⟩
  exact {
    paramsLegal := by rw [hframe]; exact h.paramsLegal
    memoryWf := hwf
    position := by
      rw [hzero]
      exact bitPosition_eq_zero (by rw [hframe]) (by rw [hframe])
    stored := fun i k _ hlt => absurd hlt (by omega)
    answer := fun _ => by
      rw [hframe, htype, if_pos hzero]
      cases b <;> rfl }

/-- Settles O46: by induction on the number of bits, which completes an invalid candidate at each sixteenth. -/
theorem equalBitsNeverMakeAValidPacket : Obligations.EqualBitsNeverMakeAValidPacket := by
  intro s b m hw hp hbyte hbit
  have hstart : EqualBitsPushed b 0 s := {
    paramsLegal := hp
    memoryWf := hw
    position := bitPosition_eq_zero hbyte hbit
    stored := fun i k _ hlt => absurd hlt (Nat.not_lt_zero _)
    answer := fun h => absurd h (Nat.lt_irrefl 0) }
  obtain ⟨t, hrun, ht⟩ := runCommands_range (f := fun _ => .frmBit b) (P := EqualBitsPushed b) (n := m + 1) hstart
    fun n t _ ht => by
      rcases Nat.lt_or_ge (n % 16) 15 with hopen | hheader
      · exact ht.succ_open hopen
      · exact ht.succ_header (by omega)
  rw [List.map_const', List.length_range] at hrun
  exact ⟨t, hrun, ht.answer (Nat.succ_pos m), ht.position⟩

end Sys2Proof.Machine
end

section
/-! The response codes and the error record: a fault leaves the record and nothing else, the first failing check
decides the code, and besides the faults only `CSRW STATUS` and `SYS.RESET` write the record (spec/60_exceptions.md
R271 to R276). -/

namespace Sys2Proof.Machine

open Sys2Proof

/-! ### What a fault leaves -/

/-- The model's fault entry is the spec's `raise Fault(code)` (R272). -/
theorem raiseFault_eq_faultRecorded (c : FaultCode) (op : Byte) (s : State) :
    raiseFault c op s = faultRecorded (faultNumber c).toNat op s := by
  cases c <;> rfl

theorem faultNumber_ne_zero (c : FaultCode) : faultNumber c ≠ 0#8 := by cases c <;> decide

/-- Everything a word that is answered can have done: a fault, under the word's own opcode byte, or an `OK`. -/
theorem runWord_outcomes {w : CommandWord} {s t : State} (h : runWord w s = .next t) :
    (∃ c, t = raiseFault c (opField w) s) ∨ ∃ d u, t = respond d u := by
  cases hd : decode w with
  | error e =>
    cases (runWord_of_illegal hd s).symm.trans h
    exact .inl ⟨_, rfl⟩
  | ok i =>
    obtain ⟨hi, -⟩ := (decode_eq_ok_iff w i).1 hd
    obtain ⟨hop, -⟩ := encode_fields_of_instrOfOpcode hi
    rcases exec_outcomes ((runWord_of_decode hd s).symm.trans h) with ⟨c, -, rfl⟩ | ⟨d, u, -, rfl⟩
    · exact .inl ⟨c, by rw [hop]⟩
    · exact .inr ⟨d, u, rfl⟩

/-- `LASTERR` reads as the code and the opcode byte that it holds (R47). -/
theorem exec_csrr_lasterr (s : State) : exec (.csrr 0x0006#16) s =
    .next { s with response := okWith (s.regs.lastErrCode.toNat + 2 ^ 8 * s.regs.lastErrOp.toNat) } := by
  rw [← lastErrWord_toNat]
  exact exec_csrr_csrIndex .lasterr s

/-- Settles O14: an answer is a fault, which leaves `faultRecorded`, or has the code 0. -/
theorem faultChangesOnlyTheErrorRecord : Obligations.FaultChangesOnlyTheErrorRecord := by
  intro w s t h
  rcases runWord_outcomes h with ⟨c, rfl⟩ | ⟨d, u, rfl⟩
  · exact ⟨_, rfl, faultNumber_le c, fun _ => ⟨rfl, raiseFault_eq_faultRecorded c _ s, exec_csrr_lasterr _⟩⟩
  · exact ⟨_, rfl, Nat.zero_le _, fun hcode => absurd rfl hcode⟩

/-! ### The order of the checks -/

theorem csrOfIndex_eq_none_iff (idx : BitVec 16) : csrOfIndex idx = none ↔ idx ∉ csrNumbers := by
  refine ⟨fun hnone hmem => ?_, csrOfIndex_eq_none⟩
  rw [csrNumbers_eq_map] at hmem
  obtain ⟨c, -, rfl⟩ := List.mem_map.mp hmem
  cases (csrOfIndex_csrIndex c).symm.trans hnone

/-- A register is in the list of its own access class and in no other. -/
theorem csrIndex_mem_numbersOfAccess_iff (c : Csr) (a : Access) : csrIndex c ∈ numbersOfAccess a ↔ csrAccess c = a := by
  refine ⟨fun h => ?_, fun h => List.mem_map.mpr ⟨c, List.mem_filter.mpr ⟨mem_registers c, decide_eq_true h⟩, rfl⟩⟩
  obtain ⟨c', hc', hidx⟩ := exists_of_mem_numbersOfAccess h
  have hsame : some c' = some c := by rw [← csrOfIndex_csrIndex c', hidx, csrOfIndex_csrIndex]
  cases hsame
  exact hc'

/-- The two locks (R69). -/
theorem locked_iff (a : Access) (r : Regs) : locked a r = true ↔
    (a = .rwLockedByDem ∧ r.demReady = true) ∨ (a = .rwLockedByMod ∧ r.modReady = true) := by
  cases a <;> simp [locked]

/-- The code of the first check that fails, written per command: each command has at most three of R273's checks. -/
def firstFailingCode (s : State) : Instr → Nat
  | .csrr idx => if csrOfIndex idx = none then 2 else 0
  | .csrw idx _ => (csrOfIndex idx).elim 2 fun c =>
      if csrAccess c = .ro then 3 else if locked (csrAccess c) s.regs then 4 else 0
  | .ftWr zero _ i _ => if ftIndexLegal s.params zero i = false then 2 else if s.regs.demReady then 4 else 0
  | .ftRd zero _ i => if ftIndexLegal s.params zero i = false then 2 else 0
  | .ctWr k _ => if ctIndexLegal s.params k = false then 2 else if s.regs.modReady then 4 else 0
  | .ctRd k => if ctIndexLegal s.params k = false then 2 else 0
  | .demInit => if demConfigLegal s.params s.regs = false then 5 else 0
  | .demSample _ => if s.regs.demReady = false then 4 else 0
  | .modInit => if modConfigLegal s.regs = false then 5 else 0
  | .modSample _ => if s.regs.modReady = false then 4 else 0
  | .frmRd i => if pbufIndexLegal s.params i = false then 2 else 0
  | .nop | .sysReset | .demHalt | .modHalt | .frmClear | .frmBit _ => 0

/-- The checks that are left for a word that is a command (R273, checks 2 to 5). -/
def codeOfChecks (op : Byte) (idx : BitVec 16) (s : State) : Nat :=
  if indexOutOfRange op idx s.params then 2
  else if op = 0x02#8 ∧ idx ∈ readOnlyNumbers then 3
  else if stateWrong op idx s.regs then 4
  else if configIllegal op s.params s.regs then 5
  else 0

theorem expectedCode_of_error {w : CommandWord} {e : DecodeError} (h : decode w = .error e) (s : State) :
    expectedCode w s = 1 := by
  refine if_pos ?_
  by_contra hlegal
  obtain ⟨hop, hrsv⟩ := not_or.1 hlegal
  obtain ⟨i, hi⟩ := (decode_isOk_iff w).2 ⟨not_not.1 hop, not_not.1 hrsv⟩
  cases hi.symm.trans h

theorem expectedCode_of_ok {w : CommandWord} {i : Instr} (h : decode w = .ok i) (s : State) :
    expectedCode w s = codeOfChecks (opField w) (idxField w) s := by
  obtain ⟨hop, hrsv⟩ := (decode_isOk_iff w).1 ⟨i, h⟩
  exact if_neg (not_or.2 ⟨not_not.2 hop, not_not.2 hrsv⟩)

/-- `CSRW`: index, access, lock (R123). -/
theorem codeOfChecks_csrw (idx : BitVec 16) (v : Word) (s : State) :
    codeOfChecks 0x02#8 idx s = firstFailingCode s (.csrw idx v) := by
  simp only [firstFailingCode]
  cases hc : csrOfIndex idx with
  | none => exact if_pos (.inl ⟨by decide, (csrOfIndex_eq_none_iff idx).1 hc⟩)
  | some c =>
    have hin : idx ∈ csrNumbers := by
      by_contra hout
      cases hc.symm.trans (csrOfIndex_eq_none hout)
    obtain rfl := csrIndex_of_csrOfIndex hc
    simp [codeOfChecks, indexOutOfRange, stateWrong, configIllegal, hin, readOnlyNumbers_eq, demLockedNumbers_eq,
      modLockedNumbers_eq, csrIndex_mem_numbersOfAccess_iff, locked_iff]

/-- The spec's table of checks, read for the word of one command, is that command's own checks. -/
theorem codeOfChecks_of_instrOfOpcode {w : CommandWord} {i : Instr} (h : instrOfOpcode w = some i) (s : State) :
    codeOfChecks (opField w) (idxField w) s = firstFailingCode s i := by
  unfold instrOfOpcode at h
  split at h <;> rename_i hop
  case h_18 => cases h
  all_goals
    cases h
    rw [hop]
  case h_3 => exact codeOfChecks_csrw _ _ s
  all_goals simp only [codeOfChecks, indexOutOfRange, stateWrong, configIllegal, firstFailingCode]
  -- no check, or the unit's state only: the two `SAMPLE` commands
  case h_1 | h_4 | h_10 | h_13 | h_15 | h_16 | h_11 | h_14 => simp
  -- CSRR
  case h_2 => simp [csrOfIndex_eq_none_iff]
  -- the tables: the index, and for a write the lock
  case h_5 | h_6 => simp [ftIndexLegal_eq_false_iff, ftZeroField_eq, ftEntryField_eq]
  case h_7 | h_8 => simp [ctIndexLegal_eq_false_iff]
  -- DEM.INIT, MOD.INIT: the configuration
  case h_9 => simp [demConfigLegal_eq_false_iff]
  case h_12 => simp [modConfigLegal_eq_false_iff]
  -- FRM.RD
  case h_17 => simp [pbufIndexLegal_eq_false_iff]

/-- A fault is that of the command's first failing check. -/
theorem firstFailingCode_of_failsCheck {c : FaultCode} {i : Instr} {s : State} (h : failsCheck c s i) :
    firstFailingCode s i = (faultNumber c).toNat := by
  cases i with
  | csrw idx v =>
    obtain ⟨rfl, hnone⟩ | ⟨r, hr, ⟨rfl, hro⟩ | ⟨rfl, hrw, hlocked⟩⟩ := h
    · simp [firstFailingCode, hnone, faultNumber]
    · simp [firstFailingCode, hr, hro, faultNumber]
    · simp [firstFailingCode, hr, hrw, hlocked, faultNumber]
  | ftWr | ctWr =>
    obtain ⟨rfl, hout⟩ | ⟨rfl, hin, hready⟩ := h
    · simp [firstFailingCode, hout, faultNumber]
    · simp [firstFailingCode, hin, hready, faultNumber]
  | csrr | ftRd | ctRd | demInit | demSample | modInit | modSample | frmRd =>
    obtain ⟨rfl, hfail⟩ := h
    exact if_pos hfail
  | nop | sysReset | demHalt | modHalt | frmClear | frmBit => exact h.elim

/-- A command that is executed fails no check. -/
theorem firstFailingCode_of_completes {i : Instr} {s u : State} {d : Word} (h : completes s d u i) :
    firstFailingCode s i = 0 := by
  cases i with
  | csrr idx => obtain ⟨c, hc, -⟩ := h; simp [firstFailingCode, hc]
  | csrw idx v => obtain ⟨c, hc, hrw, hfree, -⟩ := h; simp [firstFailingCode, hc, hrw, hfree]
  | ftWr | ctWr => obtain ⟨hin, hidle, -⟩ := h; simp [firstFailingCode, hin, hidle]
  | ftRd | ctRd | demInit | demSample | modInit | modSample | frmRd =>
    obtain ⟨hpass, -⟩ := h
    exact if_neg (ne_false_of_eq_true hpass)
  | nop | sysReset | demHalt | modHalt | frmClear | frmBit => rfl

/-- The code a command answers with is that of its first failing check (R273). -/
theorem exec_responseCode {i : Instr} {s t : State} (he : exec i s = .next t) :
    ∃ r, t.response = some r ∧ r.code.toNat = firstFailingCode s i := by
  rcases exec_outcomes he with ⟨c, hfails, rfl⟩ | ⟨d, u, hc, rfl⟩
  · exact ⟨_, rfl, (firstFailingCode_of_failsCheck hfails).symm⟩
  · exact ⟨_, rfl, (firstFailingCode_of_completes hc).symm⟩

/-- Settles O15: check 1 is the decoder's, and the others are those of the decoded command. -/
theorem firstFailingCheckDecidesTheCode : Obligations.FirstFailingCheckDecidesTheCode := by
  intro w s t rest hinbox hstep
  rw [step_of_command hinbox] at hstep
  cases hd : decode w with
  | error e =>
    cases (runWord_of_illegal hd _).symm.trans hstep
    exact ⟨_, rfl, (expectedCode_of_error hd s).symm⟩
  | ok i =>
    obtain ⟨hi, -⟩ := (decode_eq_ok_iff w i).1 hd
    rw [runWord_of_decode hd] at hstep
    obtain ⟨r, hr, hcode⟩ := exec_responseCode hstep
    refine ⟨r, hr, ?_⟩
    calc r.code.toNat = firstFailingCode { s with inbox := rest } i := hcode
      _ = codeOfChecks (opField w) (idxField w) { s with inbox := rest } := (codeOfChecks_of_instrOfOpcode hi _).symm
      _ = expectedCode w s := (expectedCode_of_ok hd s).symm

/-! ### The writers of the error record -/

/-- The sticky bits and `LASTERR` are the same in `u` as in `s` (R276). -/
abbrev ErrorRecordKept (s u : State) : Prop :=
  u.regs.sticky = s.regs.sticky ∧ u.regs.lastErrCode = s.regs.lastErrCode ∧ u.regs.lastErrOp = s.regs.lastErrOp

/-- `STATUS` is the one register of the error record that `CSRW` can write (R40, R45, R47). -/
theorem csrWrite_keeps_errorRecord {c : Csr} (hc : c ≠ .status) (v : Word) (s : State) :
    ErrorRecordKept s (s.setRegs (csrWrite c v s.regs)) := by
  cases c
  case status => exact absurd rfl hc
  all_goals exact ⟨rfl, rfl, rfl⟩

theorem pushBit_keeps_errorRecord (b : Bool) (s : State) : ErrorRecordKept s (pushBit b s).state := by
  obtain ⟨n, k, hregs⟩ := pushBit_regs b s
  simp only [ErrorRecordKept, hregs, and_self]

/-- A command that passes its checks keeps the error record, unless it is `SYS.RESET` or `CSRW STATUS`. -/
theorem completes_keeps_errorRecord {i : Instr} {s u : State} {d : Word} (h : completes s d u i)
    (hreset : i ≠ .sysReset) (hstatus : ∀ v, i ≠ .csrw 0x0004#16 v) : ErrorRecordKept s u := by
  cases i with
  | sysReset => exact absurd rfl hreset
  | csrw idx v =>
    obtain ⟨c, hc, -, -, -, rfl⟩ := h
    refine csrWrite_keeps_errorRecord (fun hcs => ?_) v s
    subst hcs
    exact hstatus v (csrIndex_of_csrOfIndex hc ▸ rfl)
  | demSample v =>
    obtain ⟨-, -, ⟨-, -, rfl⟩ | ⟨-, -, -, -, rfl⟩⟩ := h
    · exact ⟨rfl, rfl, rfl⟩
    · exact pushBit_keeps_errorRecord (demodulate v s).dec (demodulate v s).state
  | frmBit b => obtain ⟨-, -, rfl⟩ := h; exact pushBit_keeps_errorRecord b s
  | csrr | ftWr | ctWr => obtain ⟨-, -, -, rfl⟩ := h; exact ⟨rfl, rfl, rfl⟩
  | nop | demHalt | modHalt | frmClear => obtain ⟨-, rfl⟩ := h; exact ⟨rfl, rfl, rfl⟩
  | ftRd | ctRd | demInit | modInit | modSample | frmRd => obtain ⟨-, -, rfl⟩ := h; exact ⟨rfl, rfl, rfl⟩

/-- What a command leaves in the error record: a fault overwrites it, an `OK` keeps it but for the two clearing
commands (R272, R276). -/
theorem exec_errorRecord {i : Instr} {s t : State} {r : Response} (he : exec i s = .next t)
    (hr : t.response = some r) :
    (r.code ≠ 0#8 ∧ t.regs.sticky = s.regs.sticky ||| 1#5 <<< (r.code.toNat - 1) ∧
      t.regs.lastErrCode = r.code ∧ t.regs.lastErrOp = opcode i) ∨
    (r.code = 0#8 ∧ (i ≠ .sysReset → (∀ v, i ≠ .csrw 0x0004#16 v) → ErrorRecordKept s t)) := by
  rcases exec_outcomes he with ⟨c, -, rfl⟩ | ⟨d, u, hc, rfl⟩ <;> cases hr
  · exact .inl ⟨faultNumber_ne_zero c, rfl, rfl, rfl⟩
  · have hkept : i ≠ .sysReset → (∀ v, i ≠ .csrw 0x0004#16 v) → ErrorRecordKept s u := completes_keeps_errorRecord hc
    exact .inr ⟨rfl, hkept⟩

/-- Settles O16: the two clearing commands pass every check, so each has one outcome. -/
theorem errorRecordChangesOnlyByFaultsAndClears : Obligations.ErrorRecordChangesOnlyByFaultsAndClears := by
  intro i s t r he hr
  refine ⟨fun hcode => ?_, ?_, ?_, fun hcode => ?_⟩
  · rcases exec_errorRecord he hr with ⟨-, hfault⟩ | ⟨hok, -⟩
    · exact hfault
    · exact absurd hok hcode
  · rintro v rfl
    cases (exec_csrw_of_writable .status (by decide) rfl v).symm.trans he
    cases hr
    exact ⟨rfl, rfl, rfl, fun k hk => clearSticky_getLsbD s.regs.sticky v hk⟩
  · rintro rfl
    cases he
    exact ⟨rfl, rfl, rfl⟩
  · rcases exec_errorRecord he hr with ⟨hfault, -⟩ | ⟨-, hkept⟩
    · exact absurd hcode hfault
    · exact hkept

end Sys2Proof.Machine
end

section
/-! The step without an input and with the power-on reset (spec/70_reset_and_hazards.md R300 to R302, R321). -/

namespace Sys2Proof.Machine

open Sys2Proof

/-- Settles O6: the step finds no input to take. -/
theorem stepWithoutInputHoldsTheState : Obligations.StepWithoutInputHoldsTheState :=
  fun _ => step_of_no_input

/-- Settles O7: after the reset no storage lists an entry, so every read falls through to the free value. -/
theorem powerOnInputResetsTheBlock : Obligations.PowerOnInputResetsTheBlock := by
  intro s rest hinbox
  exact ⟨_, step_of_powerOn hinbox, rfl, rfl, rfl, rfl, rfl,
    fun _ _ => rfl, fun _ => rfl, fun _ => rfl, fun _ => rfl⟩

end Sys2Proof.Machine
end

section
/-! What the storages held at power-on reaches a result only through reads of entries never written
(spec/70_reset_and_hazards.md R302, spec/10_state.md R64, R65). The state with other power-on contents is `refilled`;
each operation that reads written entries only commutes with it. -/

namespace Sys2Proof.Machine

open Sys2Proof

/-- The state whose storages held the contents of power-on `n` before anything was written (log entries 5 and 6). -/
abbrev refilled (n : Nat) (s : State) : State := { s with powerOns := n }

/-! ### Reads of written entries -/

theorem getD_eq_of_ne_none {α : Type} {o : Option α} (h : o ≠ none) (a b : α) : o.getD a = o.getD b := by
  obtain ⟨v, rfl⟩ := Option.ne_none_iff_exists'.1 h
  rfl

theorem ftRead_refilled {s : State} {t i : Nat} (h : storageGet s.ft (ftKey t i) ≠ none) (n : Nat) :
    ftRead (refilled n s) t i = ftRead s t i :=
  getD_eq_of_ne_none h _ _

theorem ctRead_refilled {s : State} {k : Nat} (h : storageGet s.ct k ≠ none) (n : Nat) :
    ctRead (refilled n s) k = ctRead s k :=
  getD_eq_of_ne_none h _ _

theorem winRead_refilled {s : State} {i : Nat} (h : (storageGet s.win i).isSome = true) (n : Nat) :
    winRead (refilled n s) i = winRead s i :=
  getD_eq_of_ne_none (Option.isSome_iff_ne_none.1 h) _ _

/-- Every bit of byte `i` of PBUF has been written since the power-on reset. -/
abbrev ByteWritten (s : State) (i : Nat) : Prop := ∀ k, k < 8 → pbufBitWritten s i k = true

theorem byteWritten_of_not_unwritten {s : State} {i : Nat} (h : ¬ pbufByteUnwritten s i) : ByteWritten s i :=
  fun k hk => Bool.of_not_eq_false fun hfree => h ⟨k, hk, hfree⟩

/-- A byte with every bit written shows nothing of the free value below it. -/
theorem pbufRead_refilled {s : State} {i : Nat} (h : ByteWritten s i) (n : Nat) :
    pbufRead (refilled n s) i = pbufRead s i := by
  unfold ByteWritten pbufBitWritten at h
  unfold pbufRead
  cases hget : storageGet s.pbuf i with
  | none => simpa [hget] using h 0 (by decide)
  | some e =>
    have hfull : e.written = 0xFF#8 := byte_ext fun k hk => by
      have hones : ∀ k, k < 8 → (0xFF#8).getLsbD k = true := by decide
      rw [hones k hk]
      simpa [hget] using h k hk
    simp only [pbufByteValue, hfull, if_true]

/-! ### The framer -/

/-- The hash field and the bytes it covers are all below `m` (R251). -/
theorem hashMatches_refilled {s : State} {m : Nat} (hm : 4 ≤ m) (h : ∀ i, i < m → ByteWritten s i) (n : Nat) :
    hashMatches (refilled n s) m = hashMatches s m := by
  have hread : ∀ i, i < m → pbufRead (refilled n s) i = pbufRead s i := fun i hi => pbufRead_refilled (h i hi) n
  have hspan : pbufBytes (refilled n s) 0 (m - 4) = pbufBytes s 0 (m - 4) :=
    List.map_congr_left fun k hk => hread (0 + k) (by have := List.mem_range.1 hk; omega)
  have hfield : pbufWord (refilled n s) (m - 4) = pbufWord s (m - 4) := by
    unfold pbufWord
    rw [hread (m - 4) (by omega), hread (m - 4 + 1) (by omega), hread (m - 4 + 2) (by omega),
      hread (m - 4 + 3) (by omega)]
  simp only [hashMatches, hspan, hfield]

/-- The striping reads the bytes of its span only (R245). -/
theorem stripe_refilled {s : State} {version : Byte} {lo m : Nat} (h : ∀ i, i < lo + m → ByteWritten s i)
    (n : Nat) : stripe version lo m (refilled n s) = refilled n (stripe version lo m s) := by
  induction m with
  | zero => rfl
  | succ m ih =>
    have hbyte : ByteWritten (stripe version lo m s) (lo + m) := fun k hk =>
      pbufBitWritten_stripe hk (h (lo + m) (by omega) k hk)
    unfold stripe
    rw [ih fun i hi => h i (by omega)]
    unfold stripeByte
    cases stripeMask version (lo + m) with
    | none => rfl
    | some mask =>
      simp only [pbufRead_refilled hbyte n]
      rfl

/-- A candidate whose bytes are all written is validated without a look at a free value (R240 to R243). -/
theorem validate_refilled {s : State} {m : Nat} (h1 : ByteWritten s 1) (h : ∀ i, i < m → ByteWritten s i)
    (hm : pbufRead s 1 = Config.tagCtrl ∨ pbufRead s 1 = Config.tagData → 4 ≤ m) (n : Nat) :
    validate m (refilled n s) = { state := refilled n (validate m s).state, valid := (validate m s).valid } := by
  unfold validate
  rw [pbufRead_refilled h1]
  split
  · next hctrl =>
    have hlen := hm (.inl hctrl)
    rw [hashMatches_refilled hlen h]
  · split
    · next hdata =>
      have hlen := hm (.inr hdata)
      rw [pbufRead_refilled (h 0 (by omega)), stripe_refilled fun i hi => h i (by omega)]
      have hstriped : ∀ i, i < m → ByteWritten (stripe (pbufRead s 0) 2 (m - 4 - 2) s) i := fun i hi k hk =>
        pbufBitWritten_stripe hk (h i hi k hk)
      simp only [hashMatches_refilled hlen hstriped n]
    · rfl

theorem four_le_target_of_packetType (p : Params) {ty : Byte} (h : ty = Config.tagCtrl ∨ ty = Config.tagData) :
    4 ≤ target p ty := by
  rcases h with rfl | rfl
  · exact (by decide : 4 ≤ 31).trans_eq (target_of_control p).symm
  · exact (by omega : 4 ≤ 10 + p.payloadLen).trans_eq (target_of_data p).symm

/-- After a full byte the framer looks at bytes below the new position only (R221, R222). -/
theorem byteFilled_refilled {s : State} {pos : BitVec 16} (h : ∀ i, i < pos.toNat → ByteWritten s i) (n : Nat) :
    byteFilled pos (refilled n s) =
      { state := refilled n (byteFilled pos s).state, result := (byteFilled pos s).result } := by
  unfold byteFilled
  split
  · rfl
  · next htwo =>
    have h1 : ByteWritten s 1 := h 1 (by omega)
    rw [pbufRead_refilled h1]
    split
    · rfl
    · next hopen =>
      have hdone : target s.params (pbufRead s 1) ≤ pos.toNat := Nat.le_of_not_lt hopen
      have hv := validate_refilled h1 (fun i hi => h i (hi.trans_le hdone)) (four_le_target_of_packetType s.params) n
      simp only [hv]
      rfl

/-- `PushBit` fills the candidate's bytes in order, so it reads none that has a bit never written (R65, R221). -/
theorem pushBit_refilled {s : State} (b : Bool) (h : candidateWritten s) (n : Nat) :
    pushBit b (refilled n s) = { state := refilled n (pushBit b s).state, result := (pushBit b s).result } := by
  unfold pushBit
  split
  · rfl
  · next hopen =>
    have hfull : 7 ≤ s.regs.bitOff.toNat := Nat.le_of_succ_le_succ (Nat.le_of_not_lt hopen)
    refine byteFilled_refilled (s := bitStored b s) (fun i hi k hk => bitStored_written b h hk ?_) n
    have hbelow : i < s.regs.byteOff.toNat + 1 := hi.trans_le (BitVec.toNat_add _ _ ▸ Nat.mod_le _ _)
    omega

/-! ### The demodulator -/

/-- The sums of R172 read the first `W` entries of WIN and of a table. -/
theorem correlation_refilled {s : State} {t : Nat} (hpos : 1 ≤ windowLength s)
    (hwin : ∀ i, i < windowLength s → (storageGet s.win i).isSome = true)
    (hft : ∀ i, i < windowLength s → storageGet s.ft (ftKey t i) ≠ none) (n : Nat) :
    correlation (refilled n s) t = correlation s t := by
  refine sumBelow_congr fun j hj => ?_
  have hsample : windowSample (refilled n s) j = windowSample s j :=
    congrArg sext16 (winRead_refilled (hwin _ (Nat.mod_lt _ hpos)) n)
  rw [hsample, ftRead_refilled (hft j hj)]

theorem toneDecision_refilled {s : State} (hpos : 1 ≤ windowLength s)
    (hwin : ∀ i, i < windowLength s → (storageGet s.win i).isSome = true) (hft : ¬ filterUnwritten s) (n : Nat) :
    toneDecision (refilled n s) = toneDecision s := by
  have htable : ∀ t, t < 4 → correlation (refilled n s) t = correlation s t := fun t ht =>
    correlation_refilled hpos hwin (fun i hi hfree => hft ⟨t, i, ht, hi, hfree⟩) n
  refine decide_eq_decide.2 ?_
  simp only [energyHigh, energyLow, htable 0 (by decide), htable 1 (by decide), htable 2 (by decide),
    htable 3 (by decide)]

/-- A sample of a session whose tables are written takes its decision from written entries (R64, R302). -/
theorem demodulate_refilled {s : State} (h : Invariant s) (hready : s.regs.demReady = true)
    (hft : ¬ filterUnwritten s) (v : Half) (n : Nat) :
    demodulate v (refilled n s) = { demodulate v s with state := refilled n (demodulate v s).state } := by
  obtain ⟨hpos, hmax, -⟩ := (windowInside_iff s).1 (windowInside_of_invariant h hready)
  have hwin : ∀ i, i < s.regs.demWindow.toNat → (storageGet (shiftWindow v s).win i).isSome = true := fun i hi =>
    storagePut_isSome (h.windowKnown hready i (hi.trans_le hmax)) _ v
  have hdec : toneDecision (shiftWindow v (refilled n s)) = toneDecision (shiftWindow v s) :=
    toneDecision_refilled (s := shiftWindow v s) hpos hwin hft n
  simp only [demodulate, hdec]
  rfl

/-! ### The commands -/

/-- The check that a command fails decides what it answers (R272, R273). -/
theorem exec_of_failsCheck {c : FaultCode} {i : Instr} {s : State} (h : failsCheck c s i) :
    exec i s = .next (raiseFault c (opcode i) s) := by
  cases i with
  | nop | sysReset | demHalt | modHalt | frmClear | frmBit => cases h
  | csrr idx => obtain ⟨rfl, hidx⟩ := h; simp only [exec, execCsrr, hidx]
  | csrw idx v =>
    obtain ⟨rfl, hidx⟩ | ⟨r, hr, ⟨rfl, hro⟩ | ⟨rfl, hrw, hl⟩⟩ := h
    · simp only [exec, execCsrw, hidx]
    · simp only [exec, execCsrw, hr, hro, if_true]
    · simp only [exec, execCsrw, hr, hrw, hl, if_true, if_false]
  | ftWr zero k e v =>
    obtain ⟨rfl, hidx⟩ | ⟨rfl, hidx, hr⟩ := h
    · exact if_pos hidx
    · simp only [exec, execFtWr, hidx, hr, if_true, Bool.true_eq_false, if_false]
  | ctWr k v =>
    obtain ⟨rfl, hidx⟩ | ⟨rfl, hidx, hr⟩ := h
    · exact if_pos hidx
    · simp only [exec, execCtWr, hidx, hr, if_true, Bool.true_eq_false, if_false]
  | ftRd | ctRd | frmRd | demSample | modSample => obtain ⟨rfl, hbad⟩ := h; exact if_pos hbad
  | demInit | modInit => obtain ⟨rfl, hbad⟩ := h; exact if_neg (ne_true_of_eq_false hbad)

/-- A command that passes its checks is answered. -/
theorem exec_of_completes {i : Instr} {s u : State} {d : Word} (h : completes s d u i) :
    exec i s = .next (respond d u) := by
  cases i with
  | nop | sysReset | demHalt | modHalt | frmClear => obtain ⟨rfl, rfl⟩ := h; rfl
  | csrr idx => obtain ⟨c, hc, rfl, rfl⟩ := h; simp only [exec, execCsrr, hc]
  | csrw idx v =>
    obtain ⟨c, hc, hrw, hl, rfl, rfl⟩ := h
    simp only [exec, execCsrw, hc, hrw, hl, if_false, Bool.false_eq_true]
  | ftWr zero k e v =>
    obtain ⟨hidx, hr, rfl, rfl⟩ := h
    simp only [exec, execFtWr, hidx, hr, Bool.true_eq_false, Bool.false_eq_true, if_false]
  | ctWr k v =>
    obtain ⟨hidx, hr, rfl, rfl⟩ := h
    simp only [exec, execCtWr, hidx, hr, Bool.true_eq_false, Bool.false_eq_true, if_false]
  | ftRd | ctRd | frmRd | modSample => obtain ⟨hok, rfl, rfl⟩ := h; exact if_neg (ne_false_of_eq_true hok)
  | demInit | modInit | frmBit => obtain ⟨hok, rfl, rfl⟩ := h; exact if_pos hok
  | demSample v =>
    obtain ⟨hr, hin, ⟨hfree, rfl, rfl⟩ | ⟨hwrap, hchain, hpos, rfl, rfl⟩⟩ := h
    · exact exec_demSample_unpushed hr hin (hfree.symm.imp_right fun hlow =>
        Nat.lt_of_not_le (mt (demodulate_wrapped_iff v s).2 (ne_true_of_eq_false hlow))) v
    · exact exec_demSample_pushed hr hin hpos hchain ((demodulate_wrapped_iff v s).1 hwrap) v

/-- No check looks at the storages' contents (R273). -/
theorem failsCheck_refilled {c : FaultCode} {i : Instr} {s : State} (h : failsCheck c s i) (n : Nat) :
    failsCheck c (refilled n s) i := by
  cases i <;> exact h

/-- No register shows the storages' contents. -/
theorem csrRead_refilled (c : Csr) (n : Nat) (s : State) : csrRead c (refilled n s) = csrRead c s := by
  cases c <;> rfl

/-- A command that passes its checks and is no listed read of a free value does the same with other power-on
contents. -/
theorem completes_refilled {i : Instr} {s u : State} {d : Word} (h : Invariant s) (hread : ¬ readsUnspecified i s)
    (hc : completes s d u i) (n : Nat) : completes (refilled n s) d (refilled n u) i := by
  cases i with
  | nop | sysReset | demHalt | modHalt | frmClear => obtain ⟨rfl, rfl⟩ := hc; exact ⟨rfl, rfl⟩
  | demInit | modInit => obtain ⟨hok, rfl, rfl⟩ := hc; exact ⟨hok, rfl, rfl⟩
  | ftWr | ctWr => obtain ⟨hidx, hr, rfl, rfl⟩ := hc; exact ⟨hidx, hr, rfl, rfl⟩
  | csrr idx => obtain ⟨c, hidx, rfl, rfl⟩ := hc; exact ⟨c, hidx, (csrRead_refilled c n u).symm, rfl⟩
  | csrw idx v => obtain ⟨c, hidx, hrw, hl, rfl, rfl⟩ := hc; exact ⟨c, hidx, hrw, hl, rfl, rfl⟩
  | ftRd zero k e =>
    obtain ⟨hidx, rfl, rfl⟩ := hc
    exact ⟨hidx, congrArg zext16 (ftRead_refilled hread n).symm, rfl⟩
  | ctRd k =>
    obtain ⟨hidx, rfl, rfl⟩ := hc
    exact ⟨hidx, congrArg zext16 (ctRead_refilled hread n).symm, rfl⟩
  | frmRd j =>
    obtain ⟨hidx, rfl, rfl⟩ := hc
    exact ⟨hidx, congrArg zext8 (pbufRead_refilled (byteWritten_of_not_unwritten hread) n).symm, rfl⟩
  | modSample b =>
    obtain ⟨hr, rfl, rfl⟩ := hc
    exact ⟨hr, congrArg (modResponse · s.regs.needBit) (ctRead_refilled hread n).symm, rfl⟩
  | frmBit b =>
    obtain ⟨hpos, rfl, rfl⟩ := hc
    have hpush := pushBit_refilled b h.candidateKnown n
    exact ⟨hpos, (congrArg Pushed.result hpush).symm, (congrArg Pushed.state hpush).symm⟩
  | demSample v =>
    obtain ⟨hr, hin, hstep⟩ := hc
    have hdem := demodulate_refilled h hr hread v n
    have hpush := pushBit_refilled (demodulate v s).dec (demodulate_keeps_invariant h hr v).candidateKnown n
    refine ⟨hr, hin, ?_⟩
    simp only [chainedData, hdem, hpush]
    obtain ⟨hfree, rfl, rfl⟩ | ⟨hwrap, hchain, hpos, rfl, rfl⟩ := hstep
    · exact .inl ⟨hfree, rfl, rfl⟩
    · exact .inr ⟨hwrap, hchain, hpos, rfl, rfl⟩

/-- Settles O53: a command fails the same check or completes the same way whatever the storages held. -/
theorem unspecifiedContentsReachOnlyTheListedReads : Obligations.UnspecifiedContentsReachOnlyTheListedReads := by
  intro i s t n h hread he
  rcases exec_outcomes he with ⟨c, hfail, rfl⟩ | ⟨d, u, hc, rfl⟩
  · exact exec_of_failsCheck (failsCheck_refilled hfail n)
  · exact exec_of_completes (completes_refilled h hread hc n)

end Sys2Proof.Machine
end
